-- ==== Sys2Proof/Word.lean ====
section
/-! DEFINITION. The block's one datum, the byte (R9: 8 bits, all 256 values, compared only for equality). -/

namespace Sys2Proof

/-- One byte (R9, R13). Equality of two bytes is equality of all eight bits (R237). -/
abbrev Byte := BitVec 8

end Sys2Proof
end

