-- ==== Sys2Proof/Config.lean ====
section
/-! DEFINITION. The configuration value of a call, the names of FSM states and error kinds, what an
implementation fixes, and the free values of what the spec leaves open. -/

namespace Sys2Proof

/-- The configuration `SpecialChars` (R26): four bytes, in the spec's positional order. -/
structure SpecialChars where
  /-- frame end / sync delimiter -/
  fend : Byte
  /-- frame escape, introduces a substitution pair -/
  fesc : Byte
  /-- trade value substituted for `fend` -/
  tfend : Byte
  /-- trade value substituted for `fesc` -/
  tfesc : Byte
deriving DecidableEq, Repr

/-- The canonical default configuration CFG_DEFAULT (R27): a value a caller may pass. -/
def SpecialChars.default : SpecialChars := ⟨0x7E#8, 0x7D#8, 0x5E#8, 0x5D#8⟩

/-- The three states of `hdlc_frame_escape_fsm` (R30). -/
inductive FsmState where
  | expectOpeningFend
  | normal
  | afterEscape
deriving DecidableEq, Repr, Inhabited

/-- The five error kinds (R240). Each is a defined result of a call, not a stop of the machine. -/
inductive ErrKind where
  | duplicateSpecialChar
  | missingFirstFend
  | missingFinalFend
  | fendCharInData
  | missingTradeChar
deriving DecidableEq, Repr

/-- What an implementation fixes (R10, R11, D6, D7, D9). `none` is unbounded. Log 11. -/
structure Params where
  /-- CAP_IN, the largest input length accepted (R10) -/
  capIn : Option Nat
  /-- CAP_OUT, the largest output length held (R10) -/
  capOut : Option Nat
  /-- IDX_W, the width of the index and count registers (R10) -/
  idxW : Option Nat
  /-- ERR_EMPTY_INPUT (R152, D6) -/
  errEmptyInput : ErrKind
  /-- ERR_EOF_AFTER_ESCAPE (R154, D7) -/
  errEofAfterEscape : ErrKind
deriving DecidableEq, Repr

/-- The parameters as the spec gives them: lengths unbounded (R11), the two kinds of R152 and R154. -/
def Params.default : Params := ⟨none, none, none, .missingFirstFend, .missingFinalFend⟩

/-- A free byte of a byte space: the value the byte at an index takes at one draw (R198, R199). No value is fixed. -/
opaque Config.freeByte : Nat → Nat → Byte

/-- A free byte sequence: what OUT holds after a failed call at one draw (R253). No value is fixed. -/
opaque Config.freeBytes : Nat → List Byte

/-- A free index or count register, by draw and register (R38, R39). No value is fixed. -/
opaque Config.freeIndex : Nat → Nat → Nat

/-- A free FSM state (R39). No value is fixed. -/
opaque Config.freeFsm : Nat → FsmState

end Sys2Proof
end

