-- ==== Sys2Proof/Syntax.lean ====
section
/-! DEFINITION. The instructions: one constructor per row of spec/opcode_table.json (R99), and the three operations. -/

namespace Sys2Proof

/-- The three operations a caller can select (R82, R257). -/
inductive Op where
  | encode
  | decode
  | decodeInPlace
deriving DecidableEq, Repr

/-- The 23 rows of spec/opcode_table.json (R99). A byte operand is the byte a row of class "any other byte" matched. -/
inductive Instr where
  /-- ENCODE (R120): configuration and payload -/
  | encode (cfg : SpecialChars) (data : List Byte)
  /-- DECODE (R170): configuration and frame -/
  | decode (cfg : SpecialChars) (data : List Byte)
  /-- DECODE_IN_PLACE (R190): configuration and the frame the buffer holds on entry -/
  | decodeInPlace (cfg : SpecialChars) (data : List Byte)
  /-- CHECK_CONFIG (R110): the first action of every call, on the CFG registers -/
  | checkConfig
  /-- ENC.FESC (R123) -/
  | encFesc
  /-- ENC.FEND (R124) -/
  | encFend
  /-- ENC.LIT (R125) -/
  | encLit (b : Byte)
  /-- DEC.OPEN (R143) -/
  | decOpen
  /-- DEC.NOOPEN (R144) -/
  | decNoopen (b : Byte)
  /-- DEC.ESC (R145) -/
  | decEsc
  /-- DEC.CLOSE (R146) -/
  | decClose
  /-- DEC.STRAY (R147) -/
  | decStray
  /-- DEC.LIT (R148) -/
  | decLit (b : Byte)
  /-- DEC.TFEND (R149) -/
  | decTfend
  /-- DEC.TFESC (R150) -/
  | decTfesc
  /-- DEC.BADTRADE (R151) -/
  | decBadtrade (b : Byte)
  /-- DEC.EOF.E (R152) -/
  | decEofE
  /-- DEC.EOF.N (R153) -/
  | decEofN
  /-- DEC.EOF.A (R154) -/
  | decEofA
  /-- FLAG (R85) -/
  | flag
  /-- ESC_FEND (R85) -/
  | escFend
  /-- ESC_FESC (R85) -/
  | escFesc
  /-- LIT (R85) -/
  | lit (b : Byte)
deriving DecidableEq, Repr

end Sys2Proof
end

