-- ==== Sys2Proof/WellFormed.lean ====
section
/-! DEFINITION. Which instructions a configuration can select: the byte operand of a row of class "any other byte" is
none of the symbols the row yields to (R87, R89, R85). -/

namespace Sys2Proof

/-- The operand check of each row, under the configuration its symbols come from. Every configuration and every byte
sequence is a legal operand of a request (R81, R93). -/
def Instr.WellFormed (c : SpecialChars) : Instr → Bool
  | .encode _ _ => true
  | .decode _ _ => true
  | .decodeInPlace _ _ => true
  | .checkConfig => true
  | .encFesc => true
  | .encFend => true
  | .encLit b => b != c.fesc && b != c.fend
  | .decOpen => true
  | .decNoopen b => b != c.fend
  | .decEsc => true
  | .decClose => true
  | .decStray => true
  | .decLit b => b != c.fesc && b != c.fend
  | .decTfend => true
  | .decTfesc => true
  | .decBadtrade b => b != c.tfend && b != c.tfesc
  | .decEofE => true
  | .decEofN => true
  | .decEofA => true
  | .flag => true
  | .escFend => true
  | .escFesc => true
  | .lit b => b != c.fend && b != c.fesc

end Sys2Proof
end

