-- ==== Sys2Proof/Decode.lean ====
section
/-! DEFINITION. The decoder, total on any bytes and rejecting by name, and the encoder. What a word means depends on
its format (R80, R99) and, for a decoder row, on ST and `last` (R89), so the decoder takes the context it reads in. -/

namespace Sys2Proof

/-- Why the decoder rejects. -/
inductive Reject where
  /-- the reserved operation code 0b11, or operation bits above the two of OP (R82) -/
  | reservedOp
  /-- fewer bytes than the format needs -/
  | truncated
  /-- an end-of-input row asked while a byte is left (R100) -/
  | byteLeft
  /-- `fesc` followed by no trade value is no wire symbol (R85, R94) -/
  | brokenPair
deriving DecidableEq, Repr

/-- The context a word is read in: its format, and the selectors that are not bits of it (R100). -/
inductive Context where
  /-- F-REQ: a request (R81) -/
  | request
  /-- the first action of a call, which has no bits of its own (R98) -/
  | check
  /-- ENC_SYM: one payload byte under a configuration (R87) -/
  | encSym (c : SpecialChars)
  /-- DEC_SYM: one input byte, under a configuration, in a state, with the flag `last` (R89) -/
  | decSym (c : SpecialChars) (st : FsmState) (last : Bool)
  /-- DEC_SYM with no byte left (R89, R100) -/
  | decEof (st : FsmState)
  /-- FRAME: one wire symbol (R85) -/
  | frame (c : SpecialChars)
deriving DecidableEq, Repr

/-- The operation a 2-bit code selects; 0b11 is reserved (R82). -/
def decodeOp (code : BitVec 2) : Option Op :=
  if code = 0#2 then some .encode
  else if code = 1#2 then some .decode
  else if code = 2#2 then some .decodeInPlace
  else none

/-- The 2-bit code of an operation (R82). -/
def Op.code : Op → BitVec 2
  | .encode => 0#2
  | .decode => 1#2
  | .decodeInPlace => 2#2

/-- The instruction of a call: the operation with its operands (R81). -/
def Op.instr (op : Op) (cfg : SpecialChars) (data : List Byte) : Instr :=
  match op with
  | .encode => .encode cfg data
  | .decode => .decode cfg data
  | .decodeInPlace => .decodeInPlace cfg data

/-- The ENC_SYM row of a payload byte, tested in the order of R87. -/
def encRow (c : SpecialChars) (b : Byte) : Instr :=
  if b = c.fesc then .encFesc
  else if b = c.fend then .encFend
  else .encLit b

/-- The DEC_SYM row of an input byte, by state, byte and `last` (R89), tested in the order of R158. -/
def decRow (c : SpecialChars) (st : FsmState) (last : Bool) (b : Byte) : Instr :=
  match st with
  | .expectOpeningFend => if b = c.fend then .decOpen else .decNoopen b
  | .normal =>
    if b = c.fesc then .decEsc
    else if b = c.fend then (if last then .decClose else .decStray)
    else .decLit b
  | .afterEscape =>
    if b = c.tfend then .decTfend
    else if b = c.tfesc then .decTfesc
    else .decBadtrade b

/-- The end-of-input row of a state (R89). -/
def eofRow : FsmState → Instr
  | .expectOpeningFend => .decEofE
  | .normal => .decEofN
  | .afterEscape => .decEofA

/-- The wire symbol at the front of a byte string, its length told from the first byte alone (R85, R86). -/
def decodeSymbol (c : SpecialChars) : List Byte → Except Reject (Instr × List Byte)
  | [] => .error .truncated
  | b :: rest =>
    if b = c.fend then .ok (.flag, rest)
    else if b = c.fesc then
      match rest with
      | [] => .error .truncated
      | t :: rest' =>
        if t = c.tfend then .ok (.escFend, rest')
        else if t = c.tfesc then .ok (.escFesc, rest')
        else .error .brokenPair
    else .ok (.lit b, rest)

/-- A request laid out as bytes: OP in the two low bits of the first byte, CFG in positional order (R26), then DATA,
whose length is N (R81). The spec gives F-REQ fields and no bytes; the layout is log 4. -/
def decodeRequestBytes : List Byte → Except Reject (Instr × List Byte)
  | o :: fe :: fs :: te :: ts :: data =>
    if o.toNat < 4 then
      match decodeOp (BitVec.ofNat 2 o.toNat) with
      | some op => .ok (op.instr ⟨fe, fs, te, ts⟩ data, [])
      | none => .error .reservedOp
    else .error .reservedOp
  | _ => .error .truncated

/-- The decoder: the instruction at the front of a byte string read in a context, and the bytes after it. -/
def decode : Context → List Byte → Except Reject (Instr × List Byte)
  | .request, bs => decodeRequestBytes bs
  | .check, bs => .ok (.checkConfig, bs)
  | .encSym _, [] => .error .truncated
  | .encSym c, b :: rest => .ok (encRow c b, rest)
  | .decSym _ _ _, [] => .error .truncated
  | .decSym c st last, b :: rest => .ok (decRow c st last b, rest)
  | .decEof st, [] => .ok (eofRow st, [])
  | .decEof _, _ :: _ => .error .byteLeft
  | .frame c, bs => decodeSymbol c bs

/-- The bytes of a request (log 4). -/
def encodeRequest (op : Op) (cfg : SpecialChars) (data : List Byte) : List Byte :=
  BitVec.ofNat 8 op.code.toNat :: cfg.fend :: cfg.fesc :: cfg.tfend :: cfg.tfesc :: data

/-- The encoder: the bytes of an instruction under a configuration (R82, R85, R87, R89). CHECK_CONFIG and the
end-of-input rows have none (R98, R100). -/
def encode (c : SpecialChars) : Instr → List Byte
  | .encode cfg data => encodeRequest .encode cfg data
  | .decode cfg data => encodeRequest .decode cfg data
  | .decodeInPlace cfg data => encodeRequest .decodeInPlace cfg data
  | .checkConfig => []
  | .encFesc => [c.fesc]
  | .encFend => [c.fend]
  | .encLit b => [b]
  | .decOpen => [c.fend]
  | .decNoopen b => [b]
  | .decEsc => [c.fesc]
  | .decClose => [c.fend]
  | .decStray => [c.fend]
  | .decLit b => [b]
  | .decTfend => [c.tfend]
  | .decTfesc => [c.tfesc]
  | .decBadtrade b => [b]
  | .decEofE => []
  | .decEofN => []
  | .decEofA => []
  | .flag => [c.fend]
  | .escFend => [c.fesc, c.tfend]
  | .escFesc => [c.fesc, c.tfesc]
  | .lit b => [b]

/-- The context whose words the instruction's row stands among: its format, state and `last` (R89, R100); a row that
takes any `last` is read with `last` false. -/
def Instr.context (c : SpecialChars) : Instr → Context
  | .encode _ _ | .decode _ _ | .decodeInPlace _ _ => .request
  | .checkConfig => .check
  | .encFesc | .encFend | .encLit _ => .encSym c
  | .decOpen | .decNoopen _ => .decSym c .expectOpeningFend false
  | .decEsc | .decStray | .decLit _ => .decSym c .normal false
  | .decClose => .decSym c .normal true
  | .decTfend | .decTfesc | .decBadtrade _ => .decSym c .afterEscape false
  | .decEofE => .decEof .expectOpeningFend
  | .decEofN => .decEof .normal
  | .decEofA => .decEof .afterEscape
  | .flag | .escFend | .escFesc | .lit _ => .frame c

/-- The context's words stand under this configuration; a context without configuration bytes stands under every one. -/
def Context.under (c : SpecialChars) : Context → Bool
  | .request => true
  | .check => true
  | .encSym c' => c' == c
  | .decSym c' _ _ => c' == c
  | .decEof _ => true
  | .frame c' => c' == c

/-- The configuration packed in 32 bits: `fend` in bits 7:0 up to `tfesc` in bits 31:24 (R26, D20). -/
def SpecialChars.pack (c : SpecialChars) : BitVec 32 :=
  c.tfesc ++ c.tfend ++ c.fesc ++ c.fend

/-- The configuration a packed word holds (R26, D20). -/
def SpecialChars.unpack (w : BitVec 32) : SpecialChars :=
  ⟨w.extractLsb' 0 8, w.extractLsb' 8 8, w.extractLsb' 16 8, w.extractLsb' 24 8⟩

/-- The state in which a byte of the default configuration selects its DEC_SYM row by an exact match (R89). -/
def tableState (b : Byte) : FsmState :=
  if b = SpecialChars.default.fend then .expectOpeningFend
  else if b = SpecialChars.default.tfend ∨ b = SpecialChars.default.tfesc then .afterEscape
  else .normal

/-- The context and bytes a bare table word is read in (log 15): one byte below 4 is a request's OP with zero operands,
any other byte a DEC_SYM byte under CFG_DEFAULT, two bytes a wire symbol, first byte high (R100). -/
def tableWord (nbits w : Nat) : Option (Context × List Byte) :=
  if nbits = 0 then none
  else if nbits ≤ 8 then
    if w < 4 then some (.request, [BitVec.ofNat 8 w, 0#8, 0#8, 0#8, 0#8])
    else if w < 256 then
      some (.decSym .default (tableState (BitVec.ofNat 8 w)) true, [BitVec.ofNat 8 w])
    else none
  else if nbits ≤ 16 ∧ w < 65536 then
    some (.frame .default, [BitVec.ofNat 8 (w / 256), BitVec.ofNat 8 (w % 256)])
  else none

/-- The instruction the decoder reads from a table word, when it takes up the whole word. -/
def decodeTableWord (nbits w : Nat) : Option Instr :=
  match tableWord nbits w with
  | none => none
  | some (ctx, bs) =>
    match decode ctx bs with
    | .ok (i, []) => some i
    | _ => none

end Sys2Proof
end

