-- ==== Sys2Proof/Machine/State.lean ====
section
/-! DEFINITION. The machine's state as plain data, its stops, and the state after power-on. -/

namespace Sys2Proof.Machine

/-- A byte space (R50): the bytes at indices 0, 1, …, length - 1, one cell each, indices rising. An unlisted index
does not exist in the space. Canonical form: `Memory.wf` (Machine/Ops.lean). Log 5. -/
abbrev Memory := List Host.Cell

/-- STATUS (R34): no result yet (R37), `Busy`, `Ok` or `Err(kind)`. -/
inductive Status where
  | noResult
  | busy
  | ok
  | err (k : ErrKind)
deriving DecidableEq, Repr

/-- Where a call in progress stands (R110, R122, R142): before its check, before ENCODE's open step, in the scan. Log 3. -/
inductive Phase where
  | check
  | opening
  | scan
deriving DecidableEq, Repr

/-- What one step shows (log 1): a whole call (R7), one input byte (R8) or one wire symbol (R86). -/
inductive Level where
  | call
  | byte
  | symbol
deriving DecidableEq, Repr

/-- F-REQ, what the caller presents (R81). N is the length of `data`. `outOverIn` says that the caller placed OUT over
IN, which R67 refuses. -/
structure Request where
  opCode : BitVec 2
  cfg : SpecialChars
  data : List Byte
  outOverIn : Bool
deriving DecidableEq, Repr

/-- F-RSP, what the caller gets (R83): ENCODE and DECODE give bytes, DECODE_IN_PLACE the length of a view and its
bytes, an error its kind and nothing else (R248). -/
inductive Response where
  | bytes (out : List Byte)
  | view (len : Nat) (payload : List Byte)
  | error (k : ErrKind)
deriving DecidableEq, Repr

/-- The reasons the machine stops with a fault. -/
inductive Fault where
  /-- A read, an append or an in-place write at an index that does not exist in its space (R50). Raised by the byte
  steps, the close step and the fetch. Safe: the machine stops. No state that meets `State.Inv` raises it. -/
  | indexOutsideSpace
deriving DecidableEq, Repr

/-- The reasons the model gives a step no meaning. -/
inductive Refusal where
  /-- An instruction without a meaning, by its mnemonic. Raised by no arm. Safe. -/
  | notModelled (mnemonic : String)
  /-- The reserved operation code 0b11 (R82). Raised by the fetch of a request. Safe. -/
  | reservedOp
  /-- A call beyond CAP_IN or CAP_OUT (R10, R297). Raised by the start of a call. Safe. -/
  | overCapacity
  /-- An ENCODE or DECODE call whose OUT lies over its IN (R67). Raised by the fetch of a request. Safe. -/
  | outOverIn
  /-- An operation run while a call is in progress (R260). Raised by the start of a call. Safe. -/
  | callInFlight
  /-- A row run where its selecting condition does not hold (R89, R100). Raised by the meanings of the rows. Safe. -/
  | rowNotSelected
deriving DecidableEq, Repr

/-- The complete state (R20), the call in progress, what an implementation fixes (R11), and the model's own fields. -/
@[ext]
structure State where
  /-- CFG (R26) -/
  cfg : SpecialChars
  /-- ST (R30) -/
  st : FsmState
  /-- I (R31) -/
  i : Nat
  /-- N (R31) -/
  n : Nat
  /-- REM (R32) -/
  rem : Nat
  /-- OLEN (R33) -/
  olen : Nat
  /-- END (R33) -/
  viewEnd : Nat
  /-- STATUS (R34) -/
  status : Status
  /-- IN (R51) -/
  inp : Memory
  /-- OUT (R52) -/
  out : Memory
  /-- BUF (R53) -/
  buf : Memory
  /-- the operation of the call in progress or of the last call (R65) -/
  op : Op
  /-- where the call in progress stands (log 3) -/
  phase : Phase
  /-- what the implementation fixes (R11); no step changes it -/
  params : Params
  /-- the level of description a step shows (log 1); no step changes it -/
  level : Level
  /-- the request the caller presents (R81; log 2) -/
  req : Option Request
  /-- how many free values have been drawn (log 9) -/
  draws : Nat
deriving DecidableEq, Repr

/-- Power-on (R37, R38, D13): idle, no result, no request; N, END and the caller's spaces as log 10 says. -/
def State.reset : State where
  cfg := .default
  st := .expectOpeningFend
  i := 0
  n := 0
  rem := 0
  olen := 0
  viewEnd := 0
  status := .noResult
  inp := []
  out := []
  buf := []
  op := .encode
  phase := .check
  params := .default
  level := .call
  req := none
  draws := 0

/-- What a step or a meaning answers. -/
abbrev Result := Host.Outcome State Fault Refusal

end Sys2Proof.Machine
end

