-- ==== Sys2Proof/Machine/Ops.lean ====
section
/-! DEFINITION. The named operations: byte spaces, the configuration check, the start of a call, the end of a call with
`Ok`, and `raise`, the block's whole exception entry (R252). -/

namespace Sys2Proof.Machine

/-! ## Byte spaces (R50) -/

/-- What an index outside a space reads as: nothing, for it does not exist (R50, R60). -/
def Memory.unlisted : Option Byte := none

/-- MemRead (R50). -/
def Memory.read : Memory → Nat → Option Byte
  | [], _ => Memory.unlisted
  | c :: m, a => if c.1 = a then some c.2 else Memory.read m a

/-- MemWrite at an existing index (R50): the byte there becomes `v` and nothing else changes. -/
def Memory.write : Memory → Nat → Byte → Option Memory
  | [], _, _ => none
  | c :: m, a, v => if c.1 = a then some ((a, v) :: m) else (Memory.write m a v).map (c :: ·)

/-- The appending MemWrite (R50): at the first index after the space, or at an existing one. -/
def Memory.append (m : Memory) (a : Nat) (v : Byte) : Option Memory :=
  if a = m.length then some (m ++ [(a, v)]) else m.write a v

/-- A byte sequence as the cells from index `k` on. -/
def Memory.ofBytesFrom : Nat → List Byte → Memory
  | _, [] => []
  | k, b :: bs => (k, b) :: Memory.ofBytesFrom (k + 1) bs

/-- The byte space that holds a sequence, its first byte at index 0 (R56). -/
def Memory.ofBytes (bs : List Byte) : Memory := Memory.ofBytesFrom 0 bs

/-- The sequence a space holds, in index order (R56). -/
def Memory.bytes (m : Memory) : List Byte := m.map Prod.snd

/-- Canonical form: the cells are those of indices 0, 1, …, length - 1, rising. -/
def Memory.wf (m : Memory) : Bool := m.map Prod.fst == List.range m.length

/-- The first `k` bytes of a space: `S[0:k)` (R14). -/
def Memory.front (m : Memory) (k : Nat) : Memory := m.take k

/-- The space with every byte from index `e` on left open (R198, R199); its length is unchanged. -/
def Memory.freeFrom (m : Memory) (e draw : Nat) : Memory :=
  m.map fun c => if c.1 < e then c else (c.1, Config.freeByte draw c.1)

/-- The space with its first bytes overwritten by a sequence (R197). -/
def Memory.overwrite (m : Memory) (bs : List Byte) : Memory :=
  Memory.ofBytes (bs ++ m.bytes.drop bs.length)

/-! ## Chaining -/

/-- Go on from a next state; a stop stays a stop. -/
def andThen (r : Result) (k : State → Result) : Result :=
  match r with
  | .next s => k s
  | .fault f => .fault f
  | .refused r => .refused r

/-- A row's meaning runs where the row is selected (R89, R100); elsewhere the spec gives it none. -/
def whenSelected (selected : Bool) (r : Result) : Result :=
  if selected then r else .refused .rowNotSelected

/-! ## Parameters of an instance (R10, R11) -/

/-- `distinct4` (R110): all six pairs differ. -/
def distinct4 (c : SpecialChars) : Bool :=
  c.fend != c.fesc && c.fend != c.tfend && c.fend != c.tfesc
    && c.fesc != c.tfend && c.fesc != c.tfesc && c.tfend != c.tfesc

/-- Within a limit that may be absent. -/
def within (x : Nat) (cap : Option Nat) : Bool :=
  match cap with
  | none => true
  | some c => x ≤ c

/-- The output room an operation may need (R297, D9). -/
def outputRoom (op : Op) (n : Nat) : Nat :=
  match op with
  | .encode => 2 * n + 2
  | .decode => n - 1
  | .decodeInPlace => 0

/-- Whether an instance accepts a call (R10, R297). -/
def admits (p : Params) (op : Op) (n : Nat) : Bool :=
  within n p.capIn && within (outputRoom op n) p.capOut

/-- The admissible parameters (R11 and the open parameters of 92_eei_decisions): a finite IDX_W holds 2*CAP_IN + 2. -/
def paramsOk (p : Params) : Bool :=
  (match p.idxW with
    | none => true
    | some w =>
      match p.capIn with
      | none => false
      | some c => decide (2 * c + 2 < 2 ^ w))
  && (p.errEmptyInput == .missingFirstFend || p.errEmptyInput == .missingFinalFend)
  && (p.errEofAfterEscape == .missingFinalFend || p.errEofAfterEscape == .missingTradeChar)

/-! ## Free values (log 6 to log 9) -/

/-- A free value of an index or count register, of the register's width (R39). -/
def State.freeIndex (s : State) (register : Nat) : Nat :=
  match s.params.idxW with
  | none => Config.freeIndex s.draws register
  | some w => Config.freeIndex s.draws register % 2 ^ w

/-- The internal registers after a call hold unspecified values, OLEN among them (R39). Log 6. -/
def State.release (s : State) : State :=
  { s with
    st := Config.freeFsm s.draws
    i := s.freeIndex 0
    n := s.freeIndex 1
    rem := s.freeIndex 2
    olen := s.freeIndex 3
    phase := .check
    draws := s.draws + 1 }

/-! ## The start and the end of a call -/

/-- The start of a call, the block's reset (R36, R280). END has no meaning until a successful DECODE_IN_PLACE (R38). -/
def State.startCall (s : State) (op : Op) (cfg : SpecialChars) (data : List Byte) : State :=
  { s with
    cfg := cfg
    st := .expectOpeningFend
    i := 0
    n := data.length
    rem := 0
    olen := 0
    viewEnd := s.freeIndex 4
    status := .busy
    inp := if op = .decodeInPlace then s.inp else Memory.ofBytes data
    out := []
    buf := if op = .decodeInPlace then Memory.ofBytes data else s.buf
    op := op
    phase := .check
    draws := s.draws + 1 }

/-- A call starts when none is in flight (R260) and its operands fit the instance (R10). -/
def State.begin (s : State) (op : Op) (cfg : SpecialChars) (data : List Byte) : Result :=
  if s.status = .busy then .refused .callInFlight
  else if admits s.params op data.length then .next (s.startCall op cfg data)
  else .refused .overCapacity

/-- `return Ok(OUT[0:OLEN))` (R126, R170): STATUS is `Ok` and OUT holds exactly the result (R52), from which the response
is read (R83). The register OLEN is released with the others (R39). -/
def State.returnOut (s : State) : State :=
  { s.release with
    status := .ok
    out := s.out.front s.olen }

/-- `END <- e; return Ok(view [0, END))` (R194): BUF from END on is left open (R198). -/
def State.returnView (s : State) (e : Nat) : State :=
  { s.release with
    status := .ok
    viewEnd := e
    buf := s.buf.freeFrom e s.draws }

/-- What OUT holds after an error: nothing a caller may read (R253). The check fails before any output (R110), and
DECODE_IN_PLACE does not reach OUT (R52). -/
def State.outAfter (s : State) (k : ErrKind) : Memory :=
  if k = .duplicateSpecialChar ∨ s.op = .decodeInPlace then s.out
  else Memory.ofBytes (Config.freeBytes s.draws)

/-- What BUF holds after an error: as on entry after DuplicateSpecialChar (R200), otherwise left open by a
DECODE_IN_PLACE call (R199). -/
def State.bufAfter (s : State) (k : ErrKind) : Memory :=
  if k = .duplicateSpecialChar ∨ s.op ≠ .decodeInPlace then s.buf
  else s.buf.freeFrom 0 s.draws

/-- `raise K`, the block's whole exception entry (R252): STATUS is `Err(K)` and the call ends; nothing is saved, no
handler is entered, and the output has no meaning (R253). There is no return from it (R254). -/
def State.raise (s : State) (k : ErrKind) : State :=
  { s.release with
    status := .err k
    viewEnd := s.freeIndex 4
    out := s.outAfter k
    buf := s.bufAfter k }

/-- `Append(OUT, v)` (R33, R52): write at OLEN, then OLEN + 1. -/
def State.appendOut (s : State) (v : Byte) : Result :=
  match s.out.append s.olen v with
  | some m => .next { s with out := m, olen := s.olen + 1 }
  | none => .fault .indexOutsideSpace

/-- `I <- I + 1` (R22). -/
def State.advance (s : State) : State :=
  { s with i := s.i + 1 }

end Sys2Proof.Machine
end

