-- ==== Sys2Proof/Machine/Operands.lean ====
section
/-! DEFINITION. The operand forms of R70: the byte at I, the byte after it, the flag `last`, the in-place index
I - REM; and when a byte row, an end-of-input row or ENCODE's open and close steps have their operand. -/

namespace Sys2Proof.Machine

/-- The space a call reads: IN for ENCODE and DECODE, BUF for DECODE_IN_PLACE (R50). -/
def State.source (s : State) : Memory :=
  if s.op = .decodeInPlace then s.buf else s.inp

/-- `last = (I == N - 1)` (R31). -/
def State.last (s : State) : Bool := s.i == s.n - 1

/-- The byte at I, while one is left (R31, R60). -/
def State.currentByte (s : State) : Option Byte :=
  if s.i < s.n then s.source.read s.i else none

/-- The byte at I + 1, while one is left: the second byte of a wire symbol (R86). -/
def State.followingByte (s : State) : Option Byte :=
  if s.i + 1 < s.n then s.source.read (s.i + 1) else none

/-- A call is in its scan. -/
def State.scanning (s : State) : Bool :=
  decide (s.status = .busy) && decide (s.phase = .scan)

/-- The scan of an ENCODE call (R120). -/
def State.encScanning (s : State) : Bool := s.scanning && decide (s.op = .encode)

/-- The scan of a DECODE or DECODE_IN_PLACE call (R142). -/
def State.decScanning (s : State) : Bool := s.scanning && decide (s.op ≠ .encode)

/-- An ENCODE byte step reads the byte `b` (R123 to R125). -/
def State.encReads (s : State) (b : Byte) : Bool :=
  s.encScanning && s.currentByte == some b

/-- A decode byte step reads the byte `b` in the state `st` (R143 to R151). -/
def State.decReads (s : State) (st : FsmState) (b : Byte) : Bool :=
  s.decScanning && s.st == st && s.currentByte == some b

/-- A decode call has no byte left, in the state `st` (R152 to R154). -/
def State.decAtEnd (s : State) (st : FsmState) : Bool :=
  s.decScanning && s.st == st && s.i == s.n

/-- ENCODE's open step is next (R122). -/
def State.encAtOpen (s : State) : Bool :=
  decide (s.status = .busy) && decide (s.phase = .opening) && decide (s.op = .encode)

/-- ENCODE's close step is next: `I == N` (R126). -/
def State.encAtClose (s : State) : Bool := s.encScanning && s.i == s.n

/-- The in-place write index I - REM (R193), which is never below zero (R60). -/
def State.writeIndex (s : State) : Option Nat :=
  if s.rem ≤ s.i then some (s.i - s.rem) else none

/-- `MemWrite(BUF, I - REM, 1, v)` (R193). -/
def State.storeInPlace (s : State) (v : Byte) : Result :=
  match s.writeIndex with
  | none => .fault .indexOutsideSpace
  | some a =>
    match s.buf.write a v with
    | some m => .next { s with buf := m }
    | none => .fault .indexOutsideSpace

/-- A decoder's output byte (R142): appended to OUT by DECODE, written to BUF by DECODE_IN_PLACE. -/
def State.storeOutput (s : State) (v : Byte) : Result :=
  if s.op = .decodeInPlace then s.storeInPlace v else s.appendOut v

end Sys2Proof.Machine
end

