-- ==== Sys2Proof/Machine/Flags.lean ====
section
/-! DEFINITION. STATUS, the block's only flag register: its numeric codes, the codes of the FSM states, and the response
the caller reads from it (R34, R83, R247). -/

namespace Sys2Proof.Machine

/-- The code of an error kind (R247, D4). -/
def errCode : ErrKind → BitVec 3
  | .duplicateSpecialChar => 1#3
  | .missingFirstFend => 2#3
  | .missingFinalFend => 3#3
  | .fendCharInData => 4#3
  | .missingTradeChar => 5#3

/-- The code a caller reads from STATUS (R247): none before a result, none while `Busy`. -/
def statusCode : Status → Option (BitVec 3)
  | .noResult => none
  | .busy => none
  | .ok => some 0#3
  | .err k => some (errCode k)

/-- The code of an FSM state (R30, D5); code 3 is no state. -/
def fsmCode : FsmState → BitVec 2
  | .expectOpeningFend => 0#2
  | .normal => 1#2
  | .afterEscape => 2#2

/-- F-RSP (R83): what the caller reads once the call has ended: OUT, which holds the output alone, or the view. With an
error no other field is valid (R253). No register that R39 leaves open after a call is read. -/
def State.response (s : State) : Option Response :=
  match s.status with
  | .noResult => none
  | .busy => none
  | .ok =>
    if s.op = .decodeInPlace then some (.view s.viewEnd (s.buf.bytes.take s.viewEnd))
    else some (.bytes s.out.bytes)
  | .err k => some (.error k)

/-- The field OLEN of a response (R83): the length of the output of ENCODE or DECODE. -/
def Response.olen : Response → Option Nat
  | .bytes out => some out.length
  | .view _ _ => none
  | .error _ => none

end Sys2Proof.Machine
end

