-- ==== Sys2Proof/Machine/Fsm.lean ====
section
/-! DEFINITION. `hdlc_frame_escape_fsm` as two total functions (R140, R158), and what a decode operation does with an
action (R142, R171, R192 to R195). -/

namespace Sys2Proof.Machine

/-- The actions of the machine (R140), each with the next state where the call goes on. -/
inductive FsmAction where
  | drop (next : FsmState)
  | emit (v : Byte) (next : FsmState)
  | accept
  | fail (k : ErrKind)
deriving DecidableEq, Repr

/-- `fsm_step` (R158). -/
def fsmStep (c : SpecialChars) (st : FsmState) (b : Byte) (last : Bool) : FsmAction :=
  match st with
  | .expectOpeningFend => if b = c.fend then .drop .normal else .fail .missingFirstFend
  | .normal =>
    if b = c.fesc then .drop .afterEscape
    else if b = c.fend then (if last then .accept else .fail .fendCharInData)
    else .emit b .normal
  | .afterEscape =>
    if b = c.tfend then .emit c.fend .normal
    else if b = c.tfesc then .emit c.fesc .normal
    else .fail .missingTradeChar

/-- `fsm_eof` (R158), with the parameters ERR_EMPTY_INPUT and ERR_EOF_AFTER_ESCAPE (R11). -/
def fsmEof (p : Params) : FsmState → ErrKind
  | .expectOpeningFend => p.errEmptyInput
  | .normal => .missingFinalFend
  | .afterEscape => p.errEofAfterEscape

/-- Action `Drop` (R142, R192): REM + 1, the next state, I + 1. -/
def State.drop (s : State) (next : FsmState) : Result :=
  .next { s with rem := s.rem + 1, st := next, i := s.i + 1 }

/-- Action `Emit(v)` (R142, R193): store `v` as the next output byte, then the next state and I + 1. -/
def State.emit (s : State) (v : Byte) (next : FsmState) : Result :=
  andThen (s.storeOutput v) fun t => .next { t with st := next, i := t.i + 1 }

/-- Action `Accept` (R146, R194). -/
def State.accept (s : State) : Result :=
  if s.op = .decodeInPlace then
    match s.writeIndex with
    | some e => .next (s.returnView e)
    | none => .fault .indexOutsideSpace
  else .next s.returnOut

/-- Action `Fail(k)` (R142, R195). -/
def State.fail (s : State) (k : ErrKind) : Result := .next (s.raise k)

/-- What a decode operation does with an action (R142). -/
def State.perform (s : State) : FsmAction → Result
  | .drop next => s.drop next
  | .emit v next => s.emit v next
  | .accept => s.accept
  | .fail k => s.fail k

end Sys2Proof.Machine
end

