-- ==== Sys2Proof/Machine/Functions.lean ====
section
/-! DEFINITION. The operations as functions of their operands (R120, R121, R172): the call level, which is normative
(R7). -/

namespace Sys2Proof.Machine

/-- The result of a call (R15): exactly one of bytes and an error kind. -/
inductive CallResult where
  | ok (bytes : List Byte)
  | err (k : ErrKind)
deriving DecidableEq, Repr

/-- The escape function `esc` (R121). -/
def esc (c : SpecialChars) (b : Byte) : List Byte :=
  if b = c.fesc then [c.fesc, c.tfesc]
  else if b = c.fend then [c.fesc, c.tfend]
  else [b]

/-- The escaped payload (R84): the symbols of its bytes, in order. -/
def escAll (c : SpecialChars) : List Byte → List Byte
  | [] => []
  | b :: bs => esc c b ++ escAll c bs

/-- The wire frame of a payload (R84, R120). -/
def frameOf (c : SpecialChars) (p : List Byte) : List Byte :=
  c.fend :: (escAll c p ++ [c.fend])

/-- ENCODE as a function (R120). -/
def encodeFn (c : SpecialChars) (p : List Byte) : CallResult :=
  if distinct4 c then .ok (frameOf c p) else .err .duplicateSpecialChar

/-- `parse` (R172) from the byte after the opening flag, with the payload so far. -/
def parse (pr : Params) (c : SpecialChars) : List Byte → List Byte → CallResult
  | [], _ => .err .missingFinalFend
  | b :: rest, acc =>
    if b = c.fend then
      match rest with
      | [] => .ok acc
      | _ :: _ => .err .fendCharInData
    else if b = c.fesc then
      match rest with
      | [] => .err pr.errEofAfterEscape
      | t :: rest' =>
        if t = c.tfend then parse pr c rest' (acc ++ [c.fend])
        else if t = c.tfesc then parse pr c rest' (acc ++ [c.fesc])
        else .err .missingTradeChar
    else parse pr c rest (acc ++ [b])

/-- DECODE as a function of the whole input, without the machine (R172). The kind for an empty input is
ERR_EMPTY_INPUT (R152). -/
def decodeFn (pr : Params) (c : SpecialChars) (f : List Byte) : CallResult :=
  if distinct4 c then
    match f with
    | [] => .err pr.errEmptyInput
    | b :: rest => if b = c.fend then parse pr c rest [] else .err .missingFirstFend
  else .err .duplicateSpecialChar

end Sys2Proof.Machine
end

