-- ==== Sys2Proof/Machine/Request.lean ====
section
/-! DEFINITION. Family REQ: ENCODE, DECODE and DECODE_IN_PLACE as calls (R7, R120, R170, R190), and CHECK_CONFIG (R110). -/

namespace Sys2Proof.Machine

/-- The end of a call whose output is OUT: the bytes as OUT[0:OLEN), or the error (R83). -/
def State.deliverOut (s : State) (r : CallResult) : State :=
  match r with
  | .ok bs => { s with out := Memory.ofBytes bs, olen := bs.length }.returnOut
  | .err k => s.raise k

/-- The end of a call whose output is a view of BUF: the payload in BUF[0:END), or the error (R197, R203). -/
def State.deliverView (s : State) (r : CallResult) : State :=
  match r with
  | .ok bs => { s with buf := s.buf.overwrite bs }.returnView bs.length
  | .err k => s.raise k

/-- ENCODE, the call (R120). -/
def execEncode (cfg : SpecialChars) (data : List Byte) (s : State) : Result :=
  andThen (s.begin .encode cfg data) fun t => .next (t.deliverOut (encodeFn cfg data))

/-- DECODE, the call (R170, R172). -/
def execDecode (cfg : SpecialChars) (data : List Byte) (s : State) : Result :=
  andThen (s.begin .decode cfg data) fun t => .next (t.deliverOut (decodeFn t.params cfg data))

/-- DECODE_IN_PLACE, the call (R190, R197 to R201). -/
def execDecodeInPlace (cfg : SpecialChars) (data : List Byte) (s : State) : Result :=
  andThen (s.begin .decodeInPlace cfg data) fun t => .next (t.deliverView (decodeFn t.params cfg data))

/-- CHECK_CONFIG (R110): when the check passes nothing is written and the call goes on with its open step (ENCODE,
R122) or its scan (R142); when it fails the call ends. -/
def execCheckConfig (s : State) : Result :=
  whenSelected (decide (s.status = .busy) && decide (s.phase = .check))
    (if distinct4 s.cfg then
      .next { s with phase := if s.op = .encode then .opening else .scan }
    else .next (s.raise .duplicateSpecialChar))

end Sys2Proof.Machine
end

