-- ==== Sys2Proof/Machine/EncSym.lean ====
section
/-! DEFINITION. Family ENC_SYM: the byte steps of ENCODE (R123 to R125), and the shared emission of its wire bytes. -/

namespace Sys2Proof.Machine

/-- `Append(OUT, v); I <- I + 1` (R125). -/
def State.emitByte (s : State) (v : Byte) : Result :=
  andThen (s.appendOut v) fun t => .next t.advance

/-- `Append(OUT, CFG.fesc); Append(OUT, trade); I <- I + 1` (R123, R124). -/
def State.emitPair (s : State) (trade : Byte) : Result :=
  andThen (s.appendOut s.cfg.fesc) fun t =>
    andThen (t.appendOut trade) fun u => .next u.advance

/-- ENC.FESC (R123). -/
def execEncFesc (s : State) : Result :=
  whenSelected (s.encReads s.cfg.fesc) (s.emitPair s.cfg.tfesc)

/-- ENC.FEND (R124). -/
def execEncFend (s : State) : Result :=
  whenSelected (s.encReads s.cfg.fend && s.cfg.fend != s.cfg.fesc) (s.emitPair s.cfg.tfend)

/-- ENC.LIT (R125). -/
def execEncLit (b : Byte) (s : State) : Result :=
  whenSelected (s.encReads b && b != s.cfg.fesc && b != s.cfg.fend) (s.emitByte b)

end Sys2Proof.Machine
end

