-- ==== Sys2Proof/Machine/DecSym.lean ====
section
/-! DEFINITION. Family DEC_SYM: the transitions of `hdlc_frame_escape_fsm` in a decode call (R143 to R151) and the
end-of-input check (R152 to R154). Where the output byte goes is the operation's matter (R142). -/

namespace Sys2Proof.Machine

/-- DEC.OPEN (R143). -/
def execDecOpen (s : State) : Result :=
  whenSelected (s.decReads .expectOpeningFend s.cfg.fend) (s.drop .normal)

/-- DEC.NOOPEN (R144). -/
def execDecNoopen (b : Byte) (s : State) : Result :=
  whenSelected (s.decReads .expectOpeningFend b && b != s.cfg.fend) (s.fail .missingFirstFend)

/-- DEC.ESC (R145). -/
def execDecEsc (s : State) : Result :=
  whenSelected (s.decReads .normal s.cfg.fesc) (s.drop .afterEscape)

/-- DEC.CLOSE (R146). -/
def execDecClose (s : State) : Result :=
  whenSelected (s.decReads .normal s.cfg.fend && s.last) s.accept

/-- DEC.STRAY (R147). -/
def execDecStray (s : State) : Result :=
  whenSelected (s.decReads .normal s.cfg.fend && !s.last) (s.fail .fendCharInData)

/-- DEC.LIT (R148). -/
def execDecLit (b : Byte) (s : State) : Result :=
  whenSelected (s.decReads .normal b && b != s.cfg.fesc && b != s.cfg.fend) (s.emit b .normal)

/-- DEC.TFEND (R149): the configured `fend` is emitted, not a function of the byte read (R88). -/
def execDecTfend (s : State) : Result :=
  whenSelected (s.decReads .afterEscape s.cfg.tfend) (s.emit s.cfg.fend .normal)

/-- DEC.TFESC (R150). -/
def execDecTfesc (s : State) : Result :=
  whenSelected (s.decReads .afterEscape s.cfg.tfesc) (s.emit s.cfg.fesc .normal)

/-- DEC.BADTRADE (R151). -/
def execDecBadtrade (b : Byte) (s : State) : Result :=
  whenSelected (s.decReads .afterEscape b && b != s.cfg.tfend && b != s.cfg.tfesc) (s.fail .missingTradeChar)

/-- DEC.EOF.E (R152), with the parameter ERR_EMPTY_INPUT. -/
def execDecEofE (s : State) : Result :=
  whenSelected (s.decAtEnd .expectOpeningFend) (s.fail s.params.errEmptyInput)

/-- DEC.EOF.N (R153). -/
def execDecEofN (s : State) : Result :=
  whenSelected (s.decAtEnd .normal) (s.fail .missingFinalFend)

/-- DEC.EOF.A (R154), with the parameter ERR_EOF_AFTER_ESCAPE (90_conflicts C1). -/
def execDecEofA (s : State) : Result :=
  whenSelected (s.decAtEnd .afterEscape) (s.fail s.params.errEofAfterEscape)

end Sys2Proof.Machine
end

