-- ==== Sys2Proof/Machine/Frame.lean ====
section
/-! DEFINITION. Family FRAME: one wire symbol (R85), in the direction of the call in progress (log 14). In an ENCODE
call the row consumes what the symbol stands for and emits the symbol; in a decode call it consumes the symbol and
emits what it stands for (R86, R172). -/

namespace Sys2Proof.Machine

/-- ENCODE's open step (R122): `OUT[0] <- fend; OLEN <- 1`. -/
def State.openFrame (s : State) : Result :=
  andThen (s.appendOut s.cfg.fend) fun t => .next { t with phase := .scan }

/-- ENCODE's close step (R126): `Append(OUT, CFG.fend); return Ok(OUT[0:OLEN))`. -/
def State.closeFrame (s : State) : Result :=
  andThen (s.appendOut s.cfg.fend) fun t => .next t.returnOut

/-- A decode call is at an escape pair: `fesc` at I in state Normal, and this trade value after it (R86). -/
def State.decReadsPair (s : State) (trade : Byte) : Bool :=
  s.decReads .normal s.cfg.fesc && s.followingByte == some trade

/-- The two byte steps of an escape pair: DEC.ESC, then DEC.TFEND or DEC.TFESC (R145, R149, R150). -/
def State.consumePair (s : State) (v : Byte) : Result :=
  andThen (s.drop .afterEscape) fun t => t.emit v .normal

/-- FLAG (R85), only at the two ends of a frame: ENCODE's open and close steps; DEC.OPEN and DEC.CLOSE. -/
def execFlag (s : State) : Result :=
  if s.encAtOpen then s.openFrame
  else if s.encAtClose then s.closeFrame
  else if s.decReads .expectOpeningFend s.cfg.fend then s.drop .normal
  else whenSelected (s.decReads .normal s.cfg.fend && s.last) s.accept

/-- ESC_FEND (R85): stands for the payload byte `fend`. -/
def execEscFend (s : State) : Result :=
  if s.encReads s.cfg.fend && s.cfg.fend != s.cfg.fesc then s.emitPair s.cfg.tfend
  else whenSelected (s.decReadsPair s.cfg.tfend) (s.consumePair s.cfg.fend)

/-- ESC_FESC (R85): stands for the payload byte `fesc`. -/
def execEscFesc (s : State) : Result :=
  if s.encReads s.cfg.fesc then s.emitPair s.cfg.tfesc
  else whenSelected (s.decReadsPair s.cfg.tfesc) (s.consumePair s.cfg.fesc)

/-- LIT (R85): stands for the payload byte itself. -/
def execLit (b : Byte) (s : State) : Result :=
  if s.encReads b && b != s.cfg.fesc && b != s.cfg.fend then s.emitByte b
  else whenSelected (s.decReads .normal b && b != s.cfg.fesc && b != s.cfg.fend) (s.emit b .normal)

end Sys2Proof.Machine
end

