-- ==== Sys2Proof/Machine/Dispatch.lean ====
section
/-! DEFINITION. One arm per row of spec/opcode_table.json. -/

namespace Sys2Proof.Machine

def exec (i : Instr) (s : State) : Host.Outcome State Fault Refusal :=
  match i with
  | .encode cfg data => Sys2Proof.Machine.execEncode cfg data s
  | .decode cfg data => Sys2Proof.Machine.execDecode cfg data s
  | .decodeInPlace cfg data => Sys2Proof.Machine.execDecodeInPlace cfg data s
  | .checkConfig => Sys2Proof.Machine.execCheckConfig s
  | .encFesc => Sys2Proof.Machine.execEncFesc s
  | .encFend => Sys2Proof.Machine.execEncFend s
  | .encLit b => Sys2Proof.Machine.execEncLit b s
  | .decOpen => Sys2Proof.Machine.execDecOpen s
  | .decNoopen b => Sys2Proof.Machine.execDecNoopen b s
  | .decEsc => Sys2Proof.Machine.execDecEsc s
  | .decClose => Sys2Proof.Machine.execDecClose s
  | .decStray => Sys2Proof.Machine.execDecStray s
  | .decLit b => Sys2Proof.Machine.execDecLit b s
  | .decTfend => Sys2Proof.Machine.execDecTfend s
  | .decTfesc => Sys2Proof.Machine.execDecTfesc s
  | .decBadtrade b => Sys2Proof.Machine.execDecBadtrade b s
  | .decEofE => Sys2Proof.Machine.execDecEofE s
  | .decEofN => Sys2Proof.Machine.execDecEofN s
  | .decEofA => Sys2Proof.Machine.execDecEofA s
  | .flag => Sys2Proof.Machine.execFlag s
  | .escFend => Sys2Proof.Machine.execEscFend s
  | .escFesc => Sys2Proof.Machine.execEscFesc s
  | .lit b => Sys2Proof.Machine.execLit b s

end Sys2Proof.Machine
end

