-- ==== Sys2Proof/Machine/Fetch.lean ====
section
/-! DEFINITION. What the next step does: nothing while idle, the start of a presented call, or the row that the call in
progress selects (R89, R142); and how a table word is placed where the step finds it. -/

namespace Sys2Proof.Machine

/-- What a step finds to do. -/
inductive Fetched where
  /-- no call in progress and no request presented (R37) -/
  | idle
  /-- a request to start step by step (R8, R36) -/
  | start (op : Op) (cfg : SpecialChars) (data : List Byte)
  /-- an instruction to run -/
  | run (i : Instr)
  /-- a request or a byte without a meaning -/
  | refuse (r : Refusal)
  /-- an access outside a space -/
  | stop (f : Fault)
deriving DecidableEq, Repr

/-- The presented request (R81, R82): as one instruction at the level of the call (R7), as the start of a call below
it (R8). OUT over IN is refused (R67); DECODE_IN_PLACE reaches neither. -/
def State.fetchRequest (s : State) : Fetched :=
  match s.req with
  | none => .idle
  | some r =>
    match decodeOp r.opCode with
    | none => .refuse .reservedOp
    | some op =>
      if r.outOverIn && decide (op ≠ .decodeInPlace) then .refuse .outOverIn
      else if s.level = .call then .run (op.instr r.cfg r.data)
      else .start op r.cfg r.data

/-- The context the byte at I is read in by a byte step (R89, R100). -/
def State.byteContext (s : State) : Context :=
  if s.op = .encode then .encSym s.cfg else .decSym s.cfg s.st s.last

/-- The row of the byte `b` at I in a byte step. -/
def State.byteRow (s : State) (b : Byte) : Fetched :=
  match decode s.byteContext [b] with
  | .ok (i, _) => .run i
  | .error _ => .refuse .rowNotSelected

/-- The wire symbol a payload byte is emitted as (R121). -/
def payloadSymbol (c : SpecialChars) (b : Byte) : Instr :=
  if b = c.fesc then .escFesc else if b = c.fend then .escFend else .lit b

/-- The wire symbol at I of a decode call, where one may stand (R85, R86): FLAG only at the two ends, the others only
between them. -/
def State.symbolAt (s : State) (b : Byte) : Option Instr :=
  match s.st, decodeSymbol s.cfg (b :: s.followingByte.toList) with
  | .expectOpeningFend, .ok (.flag, _) => some .flag
  | .normal, .ok (.flag, _) => if s.last then some .flag else none
  | .normal, .ok (i, _) => some i
  | _, _ => none

/-- The row of the byte `b` at I: a wire symbol at the symbol level where there is one, else the byte's row. -/
def State.rowAt (s : State) (b : Byte) : Fetched :=
  if s.level = .symbol then
    if s.op = .encode then .run (payloadSymbol s.cfg b)
    else
      match s.symbolAt b with
      | some i => .run i
      | none => s.byteRow b
  else s.byteRow b

/-- The next action of the call in progress: its check (R110), ENCODE's open step (R122), the row of the byte at I, and
with no byte left ENCODE's close step (R126) or the end-of-input check (R142). -/
def State.fetchRow (s : State) : Fetched :=
  match s.phase with
  | .check => .run .checkConfig
  | .opening => .run .flag
  | .scan =>
    if s.i < s.n then
      match s.currentByte with
      | some b => s.rowAt b
      | none => .stop .indexOutsideSpace
    else if s.op = .encode then .run .flag
    else .run (eofRow s.st)

/-- What the next step does. While a call is in progress a presented request is not accepted (R260). -/
def State.fetch (s : State) : Fetched :=
  if s.status = .busy then s.fetchRow else s.fetchRequest

/-- The request port as the step leaves it: a request is taken when no call is in progress (R260). -/
def State.takeRequest (s : State) : State :=
  if s.status = .busy then s else { s with req := none }

/-- The bytes that bring a DECODE call of the default configuration to a state: nothing, the opening flag, the opening
flag and an escape (R143, R145). -/
def leadIn : FsmState → List Byte
  | .expectOpeningFend => []
  | .normal => [SpecialChars.default.fend]
  | .afterEscape => [SpecialChars.default.fend, SpecialChars.default.fesc]

/-- A DECODE call of the default configuration, at a level and in a state, with these bytes next (log 15). -/
def State.midDecode (s : State) (level : Level) (st : FsmState) (bs : List Byte) : State :=
  { s with
    cfg := .default
    st := st
    i := (leadIn st).length
    n := (leadIn st).length + bs.length
    rem := (leadIn st).length
    olen := 0
    status := .busy
    inp := Memory.ofBytes (leadIn st ++ bs)
    out := []
    op := .decode
    phase := .scan
    level := level }

/-- A request presented to the idle block at the level of the call (log 15). -/
def State.present (s : State) (r : Request) : State :=
  { s with
    status := if s.status = .busy then .noResult else s.status
    level := .call
    req := some r }

/-- The request that a request's bytes stand for (R81; log 4). -/
def requestOf (bs : List Byte) : Request :=
  let byte (k : Nat) : Byte := bs.getD k 0#8
  { opCode := BitVec.ofNat 2 (byte 0).toNat
    cfg := ⟨byte 1, byte 2, byte 3, byte 4⟩
    data := bs.drop 5
    outOverIn := false }

end Sys2Proof.Machine
end

