-- ==== Sys2Proof/Machine/Step.lean ====
section
/-! DEFINITION. One step of the block, and the placing of a table word where the next step finds it. -/

namespace Sys2Proof.Machine

/-- One step: nothing while idle (log 2); the start of a call, the operands taken (R36); or one instruction. -/
def step (s : State) : Host.Outcome State Fault Refusal :=
  match s.fetch with
  | .idle => .next s
  | .start op cfg data => s.takeRequest.begin op cfg data
  | .run i => exec i s.takeRequest
  | .refuse r => .refused r
  | .stop f => .fault f

/-- `s` with the instruction of a table word where the next step finds it (log 15): a request is presented at the level
of the call, a decoder byte or a wire symbol is the next input of a DECODE call. -/
def State.withFetchWord (s : State) (nbits w : Nat) : State :=
  match tableWord nbits w with
  | some (.request, bs) => s.present (requestOf bs)
  | some (.decSym _ st _, bs) => s.midDecode .byte st bs
  | some (.frame _, bs) => s.midDecode .symbol .normal bs
  | _ => s

end Sys2Proof.Machine
end

