-- ==== Sys2Proof/Safety.lean ====
section
/-! DEFINITION. Runs, the invariant of the step machine (R35), and the bound of its registers (R236). -/

namespace Sys2Proof.Machine

/-- `k` steps, stopping at the first fault or refusal. -/
def run : Nat → State → Result
  | 0, s => .next s
  | k + 1, s => andThen (step s) (run k)

/-- Before the scan every register holds its start-of-call value (R36). -/
def State.atStart (s : State) : Bool :=
  decide (s.st = .expectOpeningFend ∧ s.i = 0 ∧ s.rem = 0 ∧ s.olen = 0 ∧ s.out = [])

/-- The relation of an ENCODE call's scan (R35, last sentence). -/
def State.encScan (s : State) : Bool :=
  decide (s.rem = 0 ∧ s.out.length = s.olen ∧
    s.olen = 1 + s.i + (s.inp.bytes.take s.i).count s.cfg.fend + (s.inp.bytes.take s.i).count s.cfg.fesc)

/-- The relations (a) to (e) of R35 in a decode call's scan. In a DECODE_IN_PLACE call the consumed bytes may have been
overwritten, so (d), which counts them, is kept for DECODE only. -/
def State.decScan (s : State) : Bool :=
  decide ((s.st = .expectOpeningFend ↔ s.i = 0) ∧
    (s.st = .expectOpeningFend → s.rem = 0) ∧
    (s.st ≠ .expectOpeningFend → 1 ≤ s.rem ∧ s.rem ≤ s.i) ∧
    (s.op = .decode → s.olen = s.i - s.rem ∧ s.out.length = s.olen) ∧
    (s.op = .decodeInPlace → s.olen = 0 ∧ s.out = []) ∧
    (s.op = .decode → s.st ≠ .expectOpeningFend →
      s.rem = 1 + (s.inp.bytes.take s.i).count s.cfg.fesc) ∧
    (s.st = .afterEscape → 2 ≤ s.rem ∧ s.source.read (s.i - 1) = some s.cfg.fesc))

/-- A call in progress. -/
abbrev State.Running (s : State) : Prop :=
  s.source.length = s.n ∧ s.i ≤ s.n ∧
  (s.phase ≠ .scan → s.atStart = true) ∧
  (s.phase = .opening → s.op = .encode) ∧
  (s.phase ≠ .check → distinct4 s.cfg = true) ∧
  (s.phase = .scan → s.op = .encode → s.encScan = true) ∧
  (s.phase = .scan → s.op ≠ .encode → s.decScan = true)

/-- A call that ended with `Ok`: ENCODE's output is a frame, two bytes at least (R84); DECODE_IN_PLACE's view is shorter
than the buffer by the two flags at least (R194). -/
abbrev State.Delivered (s : State) : Prop :=
  (s.op = .encode → 2 ≤ s.out.length) ∧
  (s.op = .decodeInPlace → s.viewEnd + 2 ≤ s.buf.length)

/-- The invariant: the byte spaces are in canonical form, and the registers stand as R35 says while a call runs and as
R84 and R194 say once it has ended with `Ok`. -/
abbrev State.Inv (s : State) : Prop :=
  s.inp.wf = true ∧ s.out.wf = true ∧ s.buf.wf = true ∧
  (s.status = .busy → s.Running) ∧ (s.status = .ok → s.Delivered)

/-- A value fits a register of the instance's width (R11, R236). -/
def fits (p : Params) (x : Nat) : Bool :=
  match p.idxW with
  | none => true
  | some w => decide (x < 2 ^ w)

/-- Every index and count register fits its width (R236). -/
def State.registersFit (s : State) : Bool :=
  fits s.params s.i && fits s.params s.n && fits s.params s.rem && fits s.params s.olen && fits s.params s.viewEnd

/-- A call in progress was accepted by the instance (R10). -/
def State.accepted (s : State) : Bool :=
  if s.status = .busy then admits s.params s.op s.n else true

end Sys2Proof.Machine
end

