-- ==== Sys2Proof/Certificates/Slice0/Obligations.lean ====
section
/-! DEFINITION. The statements about the machine, one per rule or group of rules of spec/. -/

open Sys2Proof Sys2Proof.Machine

/-! ## Reset, start of a call, and what a step runs -/

/-- Power-on (R37, R38, as the spec's own choice D13, with log 2 for the idle step): the block is idle, no result can be
read, the registers hold the values of the table's power-on column where it gives one, and a step does nothing. -/
def Obligations.PowerOnIsIdleWithoutResult : Prop :=
  State.reset.status = .noResult ∧ State.reset.response = none ∧ State.reset.st = .expectOpeningFend ∧
  State.reset.i = 0 ∧ State.reset.rem = 0 ∧ State.reset.olen = 0 ∧ State.reset.out = [] ∧
  State.reset.cfg = ⟨0x7E#8, 0x7D#8, 0x5E#8, 0x5D#8⟩ ∧ step State.reset = .next State.reset

/-- The state after power-on meets the invariant. -/
def Obligations.ResetMeetsInvariant : Prop := State.reset.Inv

/-- Below the level of the call, the step that takes a request gives every register its start-of-call value (R36). -/
def Obligations.StartOfCallLoadsRegisters : Prop :=
  ∀ (s : State) (op : Op) (cfg : SpecialChars) (data : List Byte),
    s.status ≠ .busy → s.level ≠ .call → s.req = some ⟨op.code, cfg, data, false⟩ →
    admits s.params op data.length = true →
    ∃ t, step s = .next t ∧ t.cfg = cfg ∧ t.st = .expectOpeningFend ∧ t.i = 0 ∧ t.n = data.length ∧
      t.rem = 0 ∧ t.olen = 0 ∧ t.out = [] ∧ t.status = .busy ∧ t.op = op ∧ t.phase = .check ∧
      t.inp = (if op = .decodeInPlace then s.inp else Memory.ofBytes data) ∧
      t.buf = (if op = .decodeInPlace then Memory.ofBytes data else s.buf) ∧
      t.params = s.params ∧ t.level = s.level ∧ t.req = none

/-- A step of an idle block at the level of the call runs the instruction the request decodes to, the request taken. -/
def Obligations.StepRunsRequestedCall : Prop :=
  ∀ (s : State) (r : Request) (op : Op),
    s.status ≠ .busy → s.level = .call → s.req = some r → decodeOp r.opCode = some op →
    (op = .decodeInPlace ∨ r.outOverIn = false) →
    step s = exec (op.instr r.cfg r.data) { s with req := none }

/-- A byte step of a call runs the row the decoder reads from the byte at I, in the context of the call. -/
def Obligations.ByteStepRunsDecodedRow : Prop :=
  ∀ (s : State) (b : Byte) (i : Instr),
    s.status = .busy → s.phase = .scan → s.level ≠ .symbol → s.currentByte = some b →
    decode (if s.op = .encode then .encSym s.cfg else .decSym s.cfg s.st (decide (s.i = s.n - 1))) [b] = .ok (i, []) →
    step s = exec i s

/-- A symbol step of a decode call runs the wire symbol the decoder reads at I where one may stand: FLAG first or last,
the others between; a symbol step of an ENCODE call runs the symbol that stands for the payload byte. -/
def Obligations.SymbolStepRunsDecodedSymbol : Prop :=
  ∀ (s : State) (b : Byte), s.status = .busy → s.phase = .scan → s.level = .symbol → s.currentByte = some b →
    (∀ (i : Instr) (rest : List Byte), s.op ≠ .encode →
      decode (.frame s.cfg) (b :: s.followingByte.toList) = .ok (i, rest) →
      (s.st = .normal ∧ (i = .flag → s.i = s.n - 1) ∨ s.st = .expectOpeningFend ∧ i = .flag) →
      step s = exec i s) ∧
    (s.op = .encode →
      (b = s.cfg.fesc → step s = exec .escFesc s) ∧
      (b ≠ s.cfg.fesc → b = s.cfg.fend → step s = exec .escFend s) ∧
      (b ≠ s.cfg.fesc → b ≠ s.cfg.fend → step s = exec (.lit b) s))

/-- The steps of a call that read no byte: the check first, ENCODE's open step, and with no byte left ENCODE's close
step or the decoder's end-of-input row. -/
def Obligations.StepsWithoutByteRunTheirRow : Prop :=
  ∀ s : State, s.status = .busy →
    (s.phase = .check → step s = exec .checkConfig s) ∧
    (s.phase = .opening → step s = exec .flag s) ∧
    (s.phase = .scan → s.i = s.n → s.op = .encode → step s = exec .flag s) ∧
    (∀ i, s.phase = .scan → s.i = s.n → s.op ≠ .encode → decode (.decEof s.st) [] = .ok (i, []) → step s = exec i s)

/-- Requests without a meaning: the reserved code (R82), a call beyond the instance (R10), OUT over IN (R67). -/
def Obligations.RequestsWithoutMeaningAreRefused : Prop :=
  ∀ (s : State) (r : Request), s.status ≠ .busy → s.req = some r →
    (r.opCode = 3#2 → step s = .refused .reservedOp) ∧
    (∀ op : Op, r.opCode = op.code → r.outOverIn = true → op ≠ .decodeInPlace → step s = .refused .outOverIn) ∧
    (∀ op : Op, r.opCode = op.code → r.outOverIn = false → admits s.params op r.data.length = false →
      step s = .refused .overCapacity)

/-- A request presented while a call is in progress is not accepted (R260): it changes nothing of the step and stays
presented. -/
def Obligations.BusyBlockIgnoresRequest : Prop :=
  ∀ (s t : State) (r : Option Request), s.status = .busy → step s = .next t →
    t.req = s.req ∧ step { s with req := r } = .next { t with req := r }

/-! ## Decoding and encoding -/

/-- Words written out from the spec: the operation codes (R82), the default symbols in each format (R85, R87, R89). -/
def Obligations.SpecWordsDecode : Prop :=
  decode .request [0x02#8, 0x7E#8, 0x7D#8, 0x5E#8, 0x5D#8, 0x7E#8, 0x01#8, 0x7E#8]
    = .ok (.decodeInPlace ⟨0x7E#8, 0x7D#8, 0x5E#8, 0x5D#8⟩ [0x7E#8, 0x01#8, 0x7E#8], []) ∧
  decode .request [0x03#8, 0x7E#8, 0x7D#8, 0x5E#8, 0x5D#8] = .error .reservedOp ∧
  decode (.encSym .default) [0x7E#8] = .ok (.encFend, []) ∧
  decode (.encSym .default) [0x5E#8] = .ok (.encLit 0x5E#8, []) ∧
  decode (.decSym .default .normal false) [0x7E#8] = .ok (.decStray, []) ∧
  decode (.decSym .default .normal true) [0x7E#8] = .ok (.decClose, []) ∧
  decode (.decSym .default .afterEscape true) [0x7E#8] = .ok (.decBadtrade 0x7E#8, []) ∧
  decode (.frame .default) [0x7D#8, 0x5D#8, 0x7E#8] = .ok (.escFesc, [0x7E#8])

/-- Decoding the encoding of a well-formed instruction in its own context gives it back, with every operand at every
value, under every valid configuration (R82, R85, R87, R89), whatever bytes follow; a request takes all of its bytes
and an end-of-input row stands where no byte follows. -/
def Obligations.DecodeUndoesEncode : Prop :=
  ∀ (c : SpecialChars) (i : Instr) (rest : List Byte),
    distinct4 c = true → i.WellFormed c = true →
    (i.context c = .request ∨ (∃ st, i.context c = .decEof st) → rest = []) →
    decode (i.context c) (encode c i ++ rest) = .ok (i, rest)

/-- Whatever the decoder reads is the encoding of the instruction it answers, followed by the bytes it leaves: no byte
is dropped and no second word stands for an instruction of a context (R94). -/
def Obligations.EncodeUndoesDecode : Prop :=
  ∀ (ctx : Context) (c : SpecialChars) (bs rest : List Byte) (i : Instr),
    ctx.under c = true → decode ctx bs = .ok (i, rest) → encode c i ++ rest = bs ∧ i.WellFormed c = true

/-- The packed configuration holds the four bytes at the places of R26 and gives them back. -/
def Obligations.PackedConfigurationGivesBackItsBytes : Prop :=
  ∀ c : SpecialChars, SpecialChars.unpack c.pack = c ∧
    c.pack.toNat = c.fend.toNat + 2 ^ 8 * c.fesc.toNat + 2 ^ 16 * c.tfend.toNat + 2 ^ 24 * c.tfesc.toNat

/-- Under a valid configuration the decoder's byte rows are mutually exclusive (R90): in every state at most one of them
has an effect. -/
def Obligations.DecoderRowsAreExclusive : Prop :=
  ∀ (s t u : State) (i j : Instr),
    distinct4 s.cfg = true → exec i s = .next t → exec j s = .next u →
    (∃ st last, i.context s.cfg = .decSym s.cfg st last) → (∃ st last, j.context s.cfg = .decSym s.cfg st last) →
    i = j

/-! ## CHECK_CONFIG and the calls -/

/-- CHECK_CONFIG (R110): it passes exactly when no two of the four bytes are equal, and then writes nothing (the call
moves on to its open step or its scan); otherwise the call ends with DuplicateSpecialChar and no space is changed. -/
def Obligations.CheckConfigTestsAllSixPairs : Prop :=
  ∀ s : State, s.status = .busy → s.phase = .check →
    ((s.cfg.fend ≠ s.cfg.fesc ∧ s.cfg.fend ≠ s.cfg.tfend ∧ s.cfg.fend ≠ s.cfg.tfesc ∧
        s.cfg.fesc ≠ s.cfg.tfend ∧ s.cfg.fesc ≠ s.cfg.tfesc ∧ s.cfg.tfend ≠ s.cfg.tfesc) →
      exec .checkConfig s = .next { s with phase := if s.op = .encode then .opening else .scan }) ∧
    ((s.cfg.fend = s.cfg.fesc ∨ s.cfg.fend = s.cfg.tfend ∨ s.cfg.fend = s.cfg.tfesc ∨
        s.cfg.fesc = s.cfg.tfend ∨ s.cfg.fesc = s.cfg.tfesc ∨ s.cfg.tfend = s.cfg.tfesc) →
      ∃ t, exec .checkConfig s = .next t ∧ t.status = .err .duplicateSpecialChar ∧
        t.response = some (.error .duplicateSpecialChar) ∧
        t.inp = s.inp ∧ t.out = s.out ∧ t.buf = s.buf ∧ t.cfg = s.cfg)

/-- ENCODE, the call (R120): fend, then for each payload byte its escape pair or itself, then fend, for every payload,
when the configuration is valid. -/
def Obligations.EncodeCallGivesFrame : Prop :=
  ∀ (s : State) (c : SpecialChars) (p : List Byte),
    s.status ≠ .busy → admits s.params .encode p.length = true → distinct4 c = true →
    ∃ t, exec (.encode c p) s = .next t ∧ t.status = .ok ∧
      t.out.bytes = [c.fend] ++ p.flatMap (fun b =>
        if b = c.fesc then [c.fesc, c.tfesc] else if b = c.fend then [c.fesc, c.tfend] else [b]) ++ [c.fend] ∧
      t.response = some (.bytes t.out.bytes) ∧ t.response.bind Response.olen = some t.out.bytes.length ∧
      t.inp.bytes = p ∧ (∀ a, t.buf.read a = s.buf.read a) ∧
      t.cfg = c ∧ t.params = s.params ∧ t.level = s.level ∧ t.req = s.req

/-- DECODE, the call (R170, R172): the result of `parse`, as bytes in OUT or as an error; IN holds the frame, BUF is
untouched. -/
def Obligations.DecodeCallGivesParseResult : Prop :=
  ∀ (s : State) (c : SpecialChars) (f : List Byte),
    s.status ≠ .busy → admits s.params .decode f.length = true →
    ∃ t, exec (.decode c f) s = .next t ∧
      (∀ p, decodeFn s.params c f = .ok p →
        t.status = .ok ∧ t.out.bytes = p ∧ t.response = some (.bytes p) ∧
          t.response.bind Response.olen = some p.length) ∧
      (∀ k, decodeFn s.params c f = .err k → t.status = .err k ∧ t.response = some (.error k)) ∧
      t.inp.bytes = f ∧ (∀ a, t.buf.read a = s.buf.read a) ∧
      t.cfg = c ∧ t.params = s.params ∧ t.level = s.level ∧ t.req = s.req

/-- DECODE_IN_PLACE, the call (R190, R197, R201): the status of DECODE for the same bytes; on success the payload stands
in BUF[0:END); BUF keeps its length; IN is untouched. -/
def Obligations.DecodeInPlaceCallGivesView : Prop :=
  ∀ (s : State) (c : SpecialChars) (f : List Byte),
    s.status ≠ .busy → admits s.params .decodeInPlace f.length = true →
    ∃ t, exec (.decodeInPlace c f) s = .next t ∧
      (∀ p, decodeFn s.params c f = .ok p →
        t.status = .ok ∧ t.viewEnd = p.length ∧ t.buf.bytes.take t.viewEnd = p ∧
          t.response = some (.view p.length p)) ∧
      (∀ k, decodeFn s.params c f = .err k → t.status = .err k ∧ t.response = some (.error k)) ∧
      t.buf.length = f.length ∧ (∀ a, t.inp.read a = s.inp.read a) ∧
      t.cfg = c ∧ t.params = s.params ∧ t.level = s.level ∧ t.req = s.req

/-- Duplicate rejection (R223): a configuration with two equal fields makes every operation end with
DuplicateSpecialChar whatever the data, and BUF then holds what it held on entry (R200). -/
def Obligations.DuplicateConfigurationIsRejected : Prop :=
  ∀ (s : State) (c : SpecialChars) (data : List Byte) (op : Op),
    s.status ≠ .busy → admits s.params op data.length = true →
    (c.fend = c.fesc ∨ c.fend = c.tfend ∨ c.fend = c.tfesc ∨ c.fesc = c.tfend ∨ c.fesc = c.tfesc ∨ c.tfend = c.tfesc) →
    ∃ t, exec (op.instr c data) s = .next t ∧ t.status = .err .duplicateSpecialChar ∧ t.out = [] ∧
      (op = .decodeInPlace → t.buf.bytes = data) ∧ (op ≠ .decodeInPlace → t.buf = s.buf)

/-- An operation run while a call is in progress is refused (R260). -/
def Obligations.NoSecondCallInFlight : Prop :=
  ∀ (s : State) (c : SpecialChars) (data : List Byte) (op : Op),
    s.status = .busy → exec (op.instr c data) s = .refused .callInFlight

/-! ## The byte steps of ENCODE -/

/-- ENC.FESC (R123): two bytes, `fesc` then `tfesc`, at OLEN and OLEN + 1; I moves by one; nothing else changes. -/
def Obligations.EncFescAppendsPair : Prop :=
  ∀ s : State, s.encReads s.cfg.fesc = true → s.out.wf = true → s.out.length = s.olen →
    exec .encFesc s = .next { s with
      out := s.out ++ [(s.olen, s.cfg.fesc), (s.olen + 1, s.cfg.tfesc)], olen := s.olen + 2, i := s.i + 1 }

/-- ENC.FEND (R124): two bytes, `fesc` then `tfend`. -/
def Obligations.EncFendAppendsPair : Prop :=
  ∀ s : State, s.encReads s.cfg.fend = true → s.cfg.fend ≠ s.cfg.fesc → s.out.wf = true → s.out.length = s.olen →
    exec .encFend s = .next { s with
      out := s.out ++ [(s.olen, s.cfg.fesc), (s.olen + 1, s.cfg.tfend)], olen := s.olen + 2, i := s.i + 1 }

/-- ENC.LIT (R125): the byte read, unchanged. -/
def Obligations.EncLitAppendsByte : Prop :=
  ∀ (s : State) (b : Byte), s.encReads b = true → b ≠ s.cfg.fesc → b ≠ s.cfg.fend →
    s.out.wf = true → s.out.length = s.olen →
    exec (.encLit b) s = .next { s with out := s.out ++ [(s.olen, b)], olen := s.olen + 1, i := s.i + 1 }

/-- FLAG in an ENCODE call: the open step (R122) and the close step (R126). -/
def Obligations.FlagOpensAndClosesFrame : Prop :=
  ∀ s : State, s.out.wf = true → s.out.length = s.olen →
    (s.encAtOpen = true → exec .flag s = .next { s with
      out := s.out ++ [(s.olen, s.cfg.fend)], olen := s.olen + 1, phase := .scan }) ∧
    (s.encAtClose = true → ∃ t, exec .flag s = .next t ∧ t.status = .ok ∧
      t.out = s.out ++ [(s.olen, s.cfg.fend)] ∧ t.response = some (.bytes (s.out.bytes ++ [s.cfg.fend])) ∧
      t.inp = s.inp ∧ t.buf = s.buf ∧
      t.cfg = s.cfg ∧ t.op = s.op ∧ t.params = s.params ∧ t.level = s.level ∧ t.req = s.req ∧ t.viewEnd = s.viewEnd)

/-- The frame of ENCODE's byte steps and of the same symbols in an ENCODE call: only OUT at OLEN (and OLEN + 1 where a
pair is emitted), OLEN and I change. -/
def Obligations.EncodeStepsFrame : Prop :=
  ∀ (s t : State) (i : Instr) (b : Byte),
    (i = .encFesc ∨ i = .encFend ∨ i = .encLit b ∨
      (s.op = .encode ∧ (i = .escFesc ∨ i = .escFend ∨ i = .lit b))) →
    exec i s = .next t →
    t.cfg = s.cfg ∧ t.st = s.st ∧ t.n = s.n ∧ t.rem = s.rem ∧ t.viewEnd = s.viewEnd ∧ t.status = s.status ∧
    t.op = s.op ∧ t.phase = s.phase ∧ t.params = s.params ∧ t.level = s.level ∧ t.req = s.req ∧ t.draws = s.draws ∧
    (∀ a, t.inp.read a = s.inp.read a) ∧ (∀ a, t.buf.read a = s.buf.read a) ∧
    (∀ a, a ≠ s.olen → a ≠ s.olen + 1 → t.out.read a = s.out.read a) ∧
    ((i = .encLit b ∨ i = .lit b) → ∀ a, a ≠ s.olen → t.out.read a = s.out.read a)

/-! ## The transitions of the escape FSM -/

/-- DEC.OPEN (R143): the opening flag is dropped. -/
def Obligations.DecOpenDropsFlag : Prop :=
  ∀ s : State, s.decReads .expectOpeningFend s.cfg.fend = true →
    exec .decOpen s = .next { s with rem := s.rem + 1, st := .normal, i := s.i + 1 }

/-- DEC.ESC (R145): the escape byte is dropped and the machine waits for a trade value. -/
def Obligations.DecEscDropsEscape : Prop :=
  ∀ s : State, s.decReads .normal s.cfg.fesc = true →
    exec .decEsc s = .next { s with rem := s.rem + 1, st := .afterEscape, i := s.i + 1 }

/-- DEC.LIT (R148), DEC.TFEND (R149), DEC.TFESC (R150) in a DECODE call: the byte itself, the configured `fend`, the
configured `fesc`, appended to OUT at OLEN. -/
def Obligations.DecodeEmitsAppend : Prop :=
  ∀ (s : State) (b : Byte), s.op = .decode → s.out.wf = true → s.out.length = s.olen →
    (s.decReads .normal b = true → b ≠ s.cfg.fesc → b ≠ s.cfg.fend →
      exec (.decLit b) s = .next { s with
        out := s.out ++ [(s.olen, b)], olen := s.olen + 1, st := .normal, i := s.i + 1 }) ∧
    (s.decReads .afterEscape s.cfg.tfend = true →
      exec .decTfend s = .next { s with
        out := s.out ++ [(s.olen, s.cfg.fend)], olen := s.olen + 1, st := .normal, i := s.i + 1 }) ∧
    (s.decReads .afterEscape s.cfg.tfesc = true →
      exec .decTfesc s = .next { s with
        out := s.out ++ [(s.olen, s.cfg.fesc)], olen := s.olen + 1, st := .normal, i := s.i + 1 })

/-- The same rows in a DECODE_IN_PLACE call (R193): BUF[I - REM] becomes the emitted byte, every other byte of BUF, the
other spaces and the other registers are unchanged. -/
def Obligations.DecodeInPlaceEmitsBelowRead : Prop :=
  ∀ (s : State) (b : Byte), s.op = .decodeInPlace → s.buf.wf = true → s.buf.length = s.n → 1 ≤ s.rem → s.rem ≤ s.i →
    (∀ i v, (i = .decLit b ∧ v = b ∧ s.decReads .normal b = true ∧ b ≠ s.cfg.fesc ∧ b ≠ s.cfg.fend) ∨
      (i = .decTfend ∧ v = s.cfg.fend ∧ s.decReads .afterEscape s.cfg.tfend = true) ∨
      (i = .decTfesc ∧ v = s.cfg.fesc ∧ s.decReads .afterEscape s.cfg.tfesc = true) →
      ∃ m, exec i s = .next { s with buf := m, st := .normal, i := s.i + 1 } ∧
        m.read (s.i - s.rem) = some v ∧ s.i - s.rem < s.i ∧
        (∀ a, a ≠ s.i - s.rem → m.read a = s.buf.read a) ∧ m.length = s.buf.length)

/-- DEC.CLOSE (R146, R194): the only success of a decoder. DECODE returns OUT[0:OLEN), which is then all
of OUT; DECODE_IN_PLACE returns the view of I - REM bytes, leaves OUT, and keeps every byte of BUF below END. -/
def Obligations.DecCloseAccepts : Prop :=
  ∀ s : State, s.decReads .normal s.cfg.fend = true → s.i = s.n - 1 → s.rem ≤ s.i →
    ∃ t, exec .decClose s = .next t ∧ t.status = .ok ∧ t.inp = s.inp ∧ t.cfg = s.cfg ∧ t.op = s.op ∧
      t.params = s.params ∧ t.level = s.level ∧ t.req = s.req ∧
      (s.op = .decode → t.out.bytes = s.out.bytes.take s.olen ∧
        t.response = some (.bytes (s.out.bytes.take s.olen)) ∧ t.buf = s.buf) ∧
      (s.op = .decodeInPlace → t.viewEnd = s.i - s.rem ∧ t.out = s.out ∧ t.buf.length = s.buf.length ∧
        (s.buf.wf = true → ∀ a, a < s.i - s.rem → t.buf.read a = s.buf.read a))

/-- DEC.NOOPEN (R144), DEC.STRAY (R147), DEC.BADTRADE (R151), DEC.EOF.N (R153): `raise` of the row's kind. STATUS is the
error and the response is the kind alone (R252, R253); IN, CFG and what an implementation fixes are unchanged, a DECODE
call leaves BUF alone and a DECODE_IN_PLACE call leaves its length and OUT alone. -/
def Obligations.FailRowsRaiseTheirKind : Prop :=
  ∀ (s : State) (b : Byte) (i : Instr) (k : ErrKind),
    (i = .decNoopen b ∧ k = .missingFirstFend ∧ s.decReads .expectOpeningFend b = true ∧ b ≠ s.cfg.fend) ∨
    (i = .decStray ∧ k = .fendCharInData ∧ s.decReads .normal s.cfg.fend = true ∧ s.i ≠ s.n - 1) ∨
    (i = .decBadtrade b ∧ k = .missingTradeChar ∧ s.decReads .afterEscape b = true ∧
      b ≠ s.cfg.tfend ∧ b ≠ s.cfg.tfesc) ∨
    (i = .decEofN ∧ k = .missingFinalFend ∧ s.decAtEnd .normal = true) →
    ∃ t, exec i s = .next t ∧ t.status = .err k ∧ t.response = some (.error k) ∧ t.inp = s.inp ∧ t.cfg = s.cfg ∧
      t.op = s.op ∧ t.params = s.params ∧ t.level = s.level ∧ t.req = s.req ∧
      t.buf.length = s.buf.length ∧ (s.op = .decode → t.buf = s.buf) ∧ (s.op = .decodeInPlace → t.out = s.out)

/-- DEC.EOF.E (R152) and DEC.EOF.A (R154), whose kinds are the spec's own choices D6 and D7: the kind the instance's
parameter holds, which in the default parameters is MissingFirstFend and MissingFinalFend. -/
def Obligations.EndOfInputRowsRaiseConfiguredKind : Prop :=
  Params.default.errEmptyInput = .missingFirstFend ∧ Params.default.errEofAfterEscape = .missingFinalFend ∧
  ∀ s : State,
    (s.decAtEnd .expectOpeningFend = true → ∃ t, exec .decEofE s = .next t ∧ t.status = .err s.params.errEmptyInput ∧
      t.response = some (.error s.params.errEmptyInput) ∧
      t.inp = s.inp ∧ t.cfg = s.cfg ∧ t.buf.length = s.buf.length ∧ (s.op = .decode → t.buf = s.buf)) ∧
    (s.decAtEnd .afterEscape = true → ∃ t, exec .decEofA s = .next t ∧ t.status = .err s.params.errEofAfterEscape ∧
      t.response = some (.error s.params.errEofAfterEscape) ∧
      t.inp = s.inp ∧ t.cfg = s.cfg ∧ t.buf.length = s.buf.length ∧ (s.op = .decode → t.buf = s.buf))

/-- The frame of the rows that drop or emit, for every state: IN, CFG, N, END, STATUS, the call and what an
implementation fixes are unchanged; a row that drops writes no space; a row that emits writes OUT at OLEN (DECODE) or
BUF at the in-place index (DECODE_IN_PLACE), and no other byte. -/
def Obligations.DecodeStepsFrame : Prop :=
  ∀ (s t : State) (i : Instr) (b : Byte),
    (i = .decOpen ∨ i = .decEsc ∨ i = .decLit b ∨ i = .decTfend ∨ i = .decTfesc) → exec i s = .next t →
    t.cfg = s.cfg ∧ t.n = s.n ∧ t.viewEnd = s.viewEnd ∧ t.status = s.status ∧ t.op = s.op ∧ t.phase = s.phase ∧
    t.params = s.params ∧ t.level = s.level ∧ t.req = s.req ∧ t.draws = s.draws ∧ t.i = s.i + 1 ∧
    (∀ a, t.inp.read a = s.inp.read a) ∧
    ((i = .decOpen ∨ i = .decEsc) → t.rem = s.rem + 1 ∧ t.olen = s.olen ∧
      (∀ a, t.out.read a = s.out.read a) ∧ (∀ a, t.buf.read a = s.buf.read a)) ∧
    ((i = .decLit b ∨ i = .decTfend ∨ i = .decTfesc) → t.rem = s.rem ∧
      (s.op = .decodeInPlace → t.olen = s.olen ∧ (∀ a, t.out.read a = s.out.read a) ∧
        ∀ w, s.writeIndex = some w → ∀ a, a ≠ w → t.buf.read a = s.buf.read a) ∧
      (s.op ≠ .decodeInPlace → t.olen = s.olen + 1 ∧ (∀ a, t.buf.read a = s.buf.read a) ∧
        ∀ a, a ≠ s.olen → t.out.read a = s.out.read a))

/-- A byte step of a decode call does what `fsm_step` says (R142, R158), for every state, byte and configuration. -/
def Obligations.ByteStepPerformsFsmStep : Prop :=
  ∀ (s : State) (b : Byte),
    s.status = .busy → s.phase = .scan → s.op ≠ .encode → s.level ≠ .symbol → s.currentByte = some b →
    step s = s.perform (fsmStep s.cfg s.st b (decide (s.i = s.n - 1)))

/-! ## Wire symbols (log 14) -/

/-- The wire symbols in a decode call: FLAG is the opening flag or the closing flag; a pair is dropped and emitted as the
byte it stands for; LIT stands for itself. Each is the effect of its byte steps. -/
def Obligations.SymbolsInDecodeAreTheirByteSteps : Prop :=
  ∀ (s : State) (b : Byte), s.op ≠ .encode →
    (s.decReads .expectOpeningFend s.cfg.fend = true → exec .flag s = exec .decOpen s) ∧
    (s.decReads .normal s.cfg.fend = true → s.i = s.n - 1 → exec .flag s = exec .decClose s) ∧
    (s.decReads .normal b = true → b ≠ s.cfg.fesc → b ≠ s.cfg.fend → exec (.lit b) s = exec (.decLit b) s) ∧
    (s.decReads .normal s.cfg.fesc = true → s.followingByte = some s.cfg.tfend →
      exec .escFend s = andThen (exec .decEsc s) (exec .decTfend)) ∧
    (s.decReads .normal s.cfg.fesc = true → s.followingByte = some s.cfg.tfesc →
      exec .escFesc s = andThen (exec .decEsc s) (exec .decTfesc))

/-- The escape pairs in a DECODE call and in an ENCODE call: what is consumed, what is emitted, nothing else. -/
def Obligations.EscapePairSymbols : Prop :=
  ∀ s : State, s.out.wf = true → s.out.length = s.olen →
    (s.op = .decode → s.decReads .normal s.cfg.fesc = true → s.followingByte = some s.cfg.tfend →
      exec .escFend s = .next { s with
        out := s.out ++ [(s.olen, s.cfg.fend)], olen := s.olen + 1, rem := s.rem + 1, st := .normal, i := s.i + 2 }) ∧
    (s.op = .decode → s.decReads .normal s.cfg.fesc = true → s.followingByte = some s.cfg.tfesc →
      exec .escFesc s = .next { s with
        out := s.out ++ [(s.olen, s.cfg.fesc)], olen := s.olen + 1, rem := s.rem + 1, st := .normal, i := s.i + 2 }) ∧
    (s.encReads s.cfg.fend = true → s.cfg.fend ≠ s.cfg.fesc →
      exec .escFend s = .next { s with
        out := s.out ++ [(s.olen, s.cfg.fesc), (s.olen + 1, s.cfg.tfend)], olen := s.olen + 2, i := s.i + 1 }) ∧
    (s.encReads s.cfg.fesc = true →
      exec .escFesc s = .next { s with
        out := s.out ++ [(s.olen, s.cfg.fesc), (s.olen + 1, s.cfg.tfesc)], olen := s.olen + 2, i := s.i + 1 })

/-- FLAG and LIT complete: the opening flag in a decode call, the closing flag of a DECODE call, a literal in an ENCODE
call and in a DECODE call. -/
def Obligations.FlagAndLiteralSymbols : Prop :=
  ∀ (s : State) (b : Byte),
    (s.decReads .expectOpeningFend s.cfg.fend = true →
      exec .flag s = .next { s with rem := s.rem + 1, st := .normal, i := s.i + 1 }) ∧
    (s.op = .decode → s.decReads .normal s.cfg.fend = true → s.i = s.n - 1 →
      ∃ t, exec .flag s = .next t ∧ t.status = .ok ∧ t.out.bytes = s.out.bytes.take s.olen ∧
        t.response = some (.bytes (s.out.bytes.take s.olen)) ∧ t.inp = s.inp ∧ t.buf = s.buf) ∧
    (s.out.wf = true → s.out.length = s.olen → b ≠ s.cfg.fesc → b ≠ s.cfg.fend →
      (s.encReads b = true →
        exec (.lit b) s = .next { s with out := s.out ++ [(s.olen, b)], olen := s.olen + 1, i := s.i + 1 }) ∧
      (s.op = .decode → s.decReads .normal b = true →
        exec (.lit b) s = .next { s with
          out := s.out ++ [(s.olen, b)], olen := s.olen + 1, st := .normal, i := s.i + 1 }))

/-! ## The whole machine -/

/-- Every step keeps the invariant: canonical byte spaces and the register relations of R35. -/
def Obligations.EveryStepKeepsInvariant : Prop :=
  ∀ s t : State, s.Inv → step s = .next t → t.Inv

/-- A call in progress always takes its next step (R230): no stop and no refusal from a state that meets the invariant. -/
def Obligations.CallInProgressNeverStops : Prop :=
  ∀ s : State, s.Inv → s.status = .busy → ∃ t, step s = .next t

/-- No register ever exceeds its width (R236): with admissible parameters, from a state that meets the invariant whose
registers fit and whose call the instance accepted, every step gives such a state. -/
def Obligations.RegistersNeverExceedTheirWidth : Prop :=
  ∀ s t : State, s.Inv → paramsOk s.params = true → s.registersFit = true → s.accepted = true → step s = .next t →
    t.registersFit = true ∧ t.accepted = true ∧ t.params = s.params

/-- No step of a call writes IN (R51), changes the configuration or the operation (R29, R65), what an implementation
fixes, or the length of BUF (R53); an ENCODE or DECODE call writes no byte of BUF. The bytes of BUF are the operand of a
DECODE_IN_PLACE call, which its steps do change. -/
def Obligations.CallKeepsInCfgOperationAndBufLength : Prop :=
  ∀ s t : State, s.status = .busy → step s = .next t →
    (∀ a, t.inp.read a = s.inp.read a) ∧ t.cfg = s.cfg ∧ t.op = s.op ∧ t.params = s.params ∧ t.level = s.level ∧
    t.req = s.req ∧ t.buf.length = s.buf.length ∧ (s.op ≠ .decodeInPlace → ∀ a, t.buf.read a = s.buf.read a)

/-- While a DECODE_IN_PLACE call goes on, a step changes no byte of BUF at or above the read index, and below it only the
byte at I - REM (R59, R292). -/
def Obligations.InPlaceWritesStayBelowReadIndex : Prop :=
  ∀ s t : State, s.Inv → s.status = .busy → s.op = .decodeInPlace → step s = .next t → t.status = .busy →
    (∀ a, s.i ≤ a → t.buf.read a = s.buf.read a) ∧ (∀ a, a ≠ s.i - s.rem → t.buf.read a = s.buf.read a)

/-- OUT only grows at its end while a call goes on (R52), by at most two bytes a step (R232). -/
def Obligations.OutputOnlyGrowsAtItsEnd : Prop :=
  ∀ s t : State, s.Inv → s.status = .busy → step s = .next t → t.status = .busy →
    ∃ bs, t.out.bytes = s.out.bytes ++ bs ∧ bs.length ≤ 2 ∧ t.olen = s.olen + bs.length

/-- A byte step moves I by exactly one unless it ends the call, and I never exceeds N (R22). -/
def Obligations.ReadIndexMovesByOne : Prop :=
  ∀ s t : State, s.Inv → s.status = .busy → s.phase = .scan → s.level ≠ .symbol → step s = .next t →
    t.status = .busy → t.i = s.i + 1 ∧ t.i ≤ t.n ∧ t.n = s.n

/-- Which error ends which call where (R246): ENCODE only with DuplicateSpecialChar, at the check; a decoder with the
kinds of the table in its index ranges, the two kinds at the end of input as the spec sets them (D6, D7). -/
def Obligations.ErrorsOccurWhereTheTableSays : Prop :=
  ∀ (s t : State) (k : ErrKind), s.Inv → s.params.errEmptyInput = .missingFirstFend →
    s.params.errEofAfterEscape = .missingFinalFend → s.status = .busy → step s = .next t → t.status = .err k →
    (s.op = .encode → k = .duplicateSpecialChar) ∧
    (k = .duplicateSpecialChar → s.phase = .check) ∧
    (k = .missingFirstFend → s.i = 0) ∧
    (k = .missingFinalFend → s.i = s.n ∧ 1 ≤ s.n) ∧
    (k = .fendCharInData → 1 ≤ s.i ∧ s.i + 2 ≤ s.n) ∧
    (k = .missingTradeChar → 2 ≤ s.i ∧ s.i + 1 ≤ s.n)

/-- The step machine and the call agree (R233), at the byte level and at the symbol level, for admissible parameters (R11):
N + 4 steps from the presented
request (the start, the check, ENCODE's two flags and at most N bytes) end in the state the call gives. -/
def Obligations.StepMachineAgreesWithCall : Prop :=
  ∀ (s t : State) (op : Op) (c : SpecialChars) (data : List Byte),
    paramsOk s.params = true → s.status ≠ .busy → s.level ≠ .call → s.req = some ⟨op.code, c, data, false⟩ →
    exec (op.instr c data) { s with req := none } = .next t →
    run (data.length + 4) s = .next t

/-- Every accepted call ends, within N + 4 steps at every level, with exactly one result (R230, R232). -/
def Obligations.EveryCallEnds : Prop :=
  ∀ (s : State) (op : Op) (c : SpecialChars) (data : List Byte),
    paramsOk s.params = true → s.status ≠ .busy → s.req = some ⟨op.code, c, data, false⟩ →
    admits s.params op data.length = true →
    ∃ t, run (data.length + 4) s = .next t ∧ t.req = none ∧
      (t.status = .ok ∨ ∃ k, t.status = .err k ∧ (op = .encode → k = .duplicateSpecialChar))

/-- No hidden state (R229, R40): two blocks of the same parameters, whatever they did before and at whatever level, give
the same response to the same request. -/
def Obligations.ResponseDependsOnRequestOnly : Prop :=
  ∀ (s₁ s₂ t₁ t₂ : State) (op : Op) (c : SpecialChars) (data : List Byte),
    s₁.status ≠ .busy → s₂.status ≠ .busy → s₁.params = s₂.params → paramsOk s₁.params = true →
    s₁.req = some ⟨op.code, c, data, false⟩ → s₂.req = some ⟨op.code, c, data, false⟩ →
    run (data.length + 4) s₁ = .next t₁ → run (data.length + 4) s₂ = .next t₂ →
    t₁.response = t₂.response

/-- The two decoders agree step by step (R226): on the same bytes and configuration they end with the same status, and
on success END and BUF[0:END) are the length and the bytes of DECODE's payload. -/
def Obligations.DecodersAgree : Prop :=
  ∀ (s t u : State) (c : SpecialChars) (f : List Byte),
    paramsOk s.params = true → s.status ≠ .busy →
    run (f.length + 4) { s with req := some ⟨Op.decode.code, c, f, false⟩ } = .next t →
    run (f.length + 4) { s with req := some ⟨Op.decodeInPlace.code, c, f, false⟩ } = .next u →
    t.status = u.status ∧
    (t.status = .ok → u.viewEnd = t.out.bytes.length ∧ u.buf.bytes.take u.viewEnd = t.out.bytes)

/-! ## Laws of the coding -/

/-- Round trip (R220): for every payload and valid configuration, DECODE of ENCODE's output is the payload. -/
def Obligations.RoundTrip : Prop :=
  ∀ (s t : State) (c : SpecialChars) (p : List Byte), distinct4 c = true → s.status ≠ .busy →
    exec (.encode c p) s = .next t → admits t.params .decode t.out.length = true →
    ∃ u, exec (.decode c t.out.bytes) t = .next u ∧ u.response = some (.bytes p)

/-- Round trip in place (R221): BUF holding the frame, DECODE_IN_PLACE ends with Ok, END = len(P) and BUF[0:END) = P. -/
def Obligations.RoundTripInPlace : Prop :=
  ∀ (s t : State) (c : SpecialChars) (p : List Byte), distinct4 c = true → s.status ≠ .busy →
    exec (.encode c p) s = .next t → admits t.params .decodeInPlace t.out.length = true →
    ∃ u, exec (.decodeInPlace c t.out.bytes) t = .next u ∧ u.status = .ok ∧ u.viewEnd = p.length ∧
      u.buf.bytes.take u.viewEnd = p

/-- DECODE accepts only what ENCODE produces (R224): for a valid configuration, DECODE of F answers the payload P if and
only if ENCODE of P answers F. -/
def Obligations.DecodeIsExactInverse : Prop :=
  ∀ (s t u : State) (c : SpecialChars) (p f : List Byte), distinct4 c = true →
    exec (.decode c f) s = .next t → exec (.encode c p) s = .next u →
    (t.response = some (.bytes p) ↔ u.response = some (.bytes f))

/-- The output length of ENCODE (R127, R222), as the response gives it (R83; log 6): exact, and between N + 2 and 2N + 2
with the two bounds reached exactly when no byte and when every byte is special. -/
def Obligations.EncodedLength : Prop :=
  ∀ (s t : State) (c : SpecialChars) (p : List Byte), distinct4 c = true → exec (.encode c p) s = .next t →
    t.response.bind Response.olen = some t.out.length ∧
    t.out.length = 2 + p.length + p.count c.fend + p.count c.fesc ∧
    t.out.length ≤ 2 * p.length + 2 ∧ (t.out.length = 2 * p.length + 2 ↔ ∀ b ∈ p, b = c.fend ∨ b = c.fesc) ∧
    p.length + 2 ≤ t.out.length ∧ (t.out.length = p.length + 2 ↔ ∀ b ∈ p, b ≠ c.fend ∧ b ≠ c.fesc)

/-- A frame has fend at its two ends and nowhere else (R225). -/
def Obligations.FrameHasFlagsOnlyAtItsEnds : Prop :=
  ∀ (s t : State) (c : SpecialChars) (p : List Byte), distinct4 c = true → exec (.encode c p) s = .next t →
    ∃ body, t.out.bytes = [c.fend] ++ body ++ [c.fend] ∧ c.fend ∉ body ∧ t.out.bytes.count c.fend = 2

/-- The decoded length (R228, R173): the frame's length less the two flags and one for each escape pair. -/
def Obligations.DecodedLength : Prop :=
  ∀ (s t : State) (c : SpecialChars) (p f : List Byte), distinct4 c = true → exec (.decode c f) s = .next t →
    t.response = some (.bytes p) →
    f.length = p.length + 2 + f.count c.fesc ∧ p.length + 2 ≤ f.length ∧ f.length ≤ 2 * p.length + 2

/-- The configuration with every byte renamed. -/
def renameChars (g : Byte → Byte) (c : SpecialChars) : SpecialChars := ⟨g c.fend, g c.fesc, g c.tfend, g c.tfesc⟩

/-- The result depends on byte values only through equality with the configured symbols (R227): a one-to-one renaming of
bytes, applied to the data and the configuration, renames the output and keeps the status. -/
def Obligations.RenamingBytesRenamesResult : Prop :=
  ∀ (s t u : State) (g : Byte → Byte) (c : SpecialChars) (data : List Byte) (op : Op),
    Function.Injective g →
    exec (op.instr c data) s = .next t → exec (op.instr (renameChars g c) (data.map g)) s = .next u →
    u.status = t.status ∧ (∀ bs, t.response = some (.bytes bs) → u.response = some (.bytes (bs.map g))) ∧
    (∀ n bs, t.response = some (.view n bs) → u.response = some (.view n (bs.map g)))

/-- An error is decided by a prefix of the input (R234), in both decoders and every instance. When a step of a decode call
on `f` reads a byte at index I and the call ends with kind `k`, the call on every `f'` that agrees with `f` on its first
I + 1 bytes ends with `k` too, where for FendCharInData `f'` has at least one byte more. -/
def Obligations.ErrorIsDecidedByPrefix : Prop :=
  ∀ (s u t : State) (op : Op) (c : SpecialChars) (f f' : List Byte) (j : Nat) (k : ErrKind),
    op ≠ .encode → s.status ≠ .busy → s.level = .byte → s.req = some ⟨op.code, c, f, false⟩ →
    run j s = .next u → u.status = .busy → u.i < f.length → step u = .next t → t.status = .err k →
    f'.take (u.i + 1) = f.take (u.i + 1) → (k = .fendCharInData → u.i + 1 < f'.length) →
    admits s.params op f'.length = true →
    ∃ v, exec (op.instr c f') s = .next v ∧ v.status = .err k

/-- Between calls no result depends on ST, I, N, REM and OLEN (R39, as D23 decides): whatever they hold, the response reads
the same, and the step that takes a request answers the same. -/
def Obligations.IdleRegistersAreNotRead : Prop :=
  ∀ (s : State) (st : FsmState) (i n rem olen : Nat), s.status ≠ .busy →
    ({ s with st := st, i := i, n := n, rem := rem, olen := olen } : State).response = s.response ∧
    (s.req ≠ none → step { s with st := st, i := i, n := n, rem := rem, olen := olen } = step s)
end

