-- ==== Sys2Proof/Laws/Memory.lean ====
section
/-! SUPPORT. The laws of a byte space: a canonical space is the space of its bytes, reads after writes, and every memory
operation keeps the canonical form. -/

namespace Sys2Proof.Machine.Memory

@[simp] theorem ofBytesFrom_length (k : Nat) (bs : List Byte) :
    (ofBytesFrom k bs).length = bs.length := by
  induction bs generalizing k with
  | nil => rfl
  | cons b bs ih => simp [ofBytesFrom, ih]

@[simp] theorem ofBytesFrom_snd (k : Nat) (bs : List Byte) :
    (ofBytesFrom k bs).map Prod.snd = bs := by
  induction bs generalizing k with
  | nil => rfl
  | cons b bs ih => simp [ofBytesFrom, ih]

theorem ofBytesFrom_fst (k : Nat) (bs : List Byte) :
    (ofBytesFrom k bs).map Prod.fst = List.range' k bs.length := by
  induction bs generalizing k with
  | nil => rfl
  | cons b bs ih => simp [ofBytesFrom, ih, List.range'_succ]

theorem ofBytesFrom_append (k : Nat) (bs cs : List Byte) :
    ofBytesFrom k (bs ++ cs) = ofBytesFrom k bs ++ ofBytesFrom (k + bs.length) cs := by
  induction bs generalizing k with
  | nil => simp [ofBytesFrom]
  | cons b bs ih => simp [ofBytesFrom, ih, Nat.add_assoc, Nat.add_comm 1]

@[simp] theorem ofBytes_length (bs : List Byte) : (ofBytes bs).length = bs.length :=
  ofBytesFrom_length 0 bs

@[simp] theorem bytes_ofBytes (bs : List Byte) : (ofBytes bs).bytes = bs :=
  ofBytesFrom_snd 0 bs

@[simp] theorem bytes_length (m : Memory) : m.bytes.length = m.length := by
  simp [bytes]

@[simp] theorem wf_ofBytes (bs : List Byte) : (ofBytes bs).wf = true := by
  simp [wf, ofBytes, ofBytesFrom_fst, List.range_eq_range']

theorem wf_nil : wf [] = true := rfl

/-- Keys from `k` on and the bytes determine a list of cells. -/
theorem eq_ofBytesFrom (k : Nat) (m : Memory) (h : m.map Prod.fst = List.range' k m.length) :
    m = ofBytesFrom k (m.map Prod.snd) := by
  induction m generalizing k with
  | nil => rfl
  | cons c m ih =>
    simp only [List.map_cons, List.length_cons, List.range'_succ, List.cons.injEq] at h
    obtain ⟨hk, hm⟩ := h
    rw [List.map_cons, ofBytesFrom, ← ih (k + 1) hm, ← hk]

/-- A canonical space is the space of its bytes: equal contents are equal data. -/
theorem eq_ofBytes (m : Memory) (h : m.wf = true) : m = ofBytes m.bytes := by
  apply eq_ofBytesFrom 0
  simpa [wf, List.range_eq_range'] using h

theorem wf_iff (m : Memory) : m.wf = true ↔ ∃ bs, m = ofBytes bs :=
  ⟨fun h => ⟨_, eq_ofBytes m h⟩, by rintro ⟨bs, rfl⟩; exact wf_ofBytes bs⟩

/-- The canonical form's addresses rise strictly. -/
theorem wf_rising (m : Memory) (h : m.wf = true) : (m.map Prod.fst).Pairwise (· < ·) := by
  have hk : m.map Prod.fst = List.range m.length := by simpa [wf] using h
  rw [hk]
  exact List.pairwise_lt_range

theorem read_ofBytesFrom (k : Nat) (bs : List Byte) (a : Nat) :
    (ofBytesFrom k bs).read (k + a) = bs[a]? := by
  induction bs generalizing k a with
  | nil => rfl
  | cons b bs ih =>
    cases a with
    | zero => simp [ofBytesFrom, read]
    | succ a =>
      have h := ih (k + 1) a
      rw [show k + (a + 1) = k + 1 + a by omega]
      simp [ofBytesFrom, read, h]
      omega

@[simp] theorem read_ofBytes (bs : List Byte) (a : Nat) : (ofBytes bs).read a = bs[a]? := by
  simpa [ofBytes] using read_ofBytesFrom 0 bs a

theorem read_eq (m : Memory) (h : m.wf = true) (a : Nat) : m.read a = m.bytes[a]? := by
  conv_lhs => rw [eq_ofBytes m h]
  exact read_ofBytes _ a

theorem write_ofBytesFrom (k : Nat) (bs : List Byte) (a : Nat) (v : Byte) (h : a < bs.length) :
    (ofBytesFrom k bs).write (k + a) v = some (ofBytesFrom k (bs.set a v)) := by
  induction bs generalizing k a with
  | nil => simp at h
  | cons b bs ih =>
    cases a with
    | zero => simp [ofBytesFrom, write]
    | succ a =>
      have h' := ih (k + 1) a (by simpa using h)
      rw [show k + (a + 1) = k + 1 + a by omega]
      simp [ofBytesFrom, write, h']
      omega

@[simp] theorem write_ofBytes (bs : List Byte) (a : Nat) (v : Byte) (h : a < bs.length) :
    (ofBytes bs).write a v = some (ofBytes (bs.set a v)) := by
  simpa [ofBytes] using write_ofBytesFrom 0 bs a v h

/-- A write to an existing index of a canonical space, by its bytes. -/
theorem write_eq (m : Memory) (h : m.wf = true) (a : Nat) (v : Byte) (ha : a < m.length) :
    m.write a v = some (ofBytes (m.bytes.set a v)) := by
  conv_lhs => rw [eq_ofBytes m h]
  exact write_ofBytes _ a v (by simpa using ha)

/-- A write changes the cells' bytes and no key. -/
theorem write_fst (m m' : Memory) (a : Nat) (v : Byte) (h : m.write a v = some m') :
    m'.map Prod.fst = m.map Prod.fst := by
  induction m generalizing m' with
  | nil => simp [write] at h
  | cons c m ih =>
    simp only [write] at h
    split at h
    · rename_i hc
      obtain rfl := Option.some.inj h
      simp [hc]
    · obtain ⟨x, hx, rfl⟩ := Option.map_eq_some_iff.1 h
      simp [ih x hx]

/-- A write keeps the length. -/
theorem write_length {m m' : Memory} {a : Nat} {v : Byte} (h : m.write a v = some m') : m'.length = m.length := by
  simpa using congrArg List.length (write_fst m m' a v h)

@[simp] theorem append_ofBytes (bs : List Byte) (v : Byte) :
    (ofBytes bs).append bs.length v = some (ofBytes (bs ++ [v])) := by
  simp [append, ofBytes, ofBytesFrom_append, ofBytesFrom]

/-- An append at the end of a canonical space, by its bytes. -/
theorem append_eq (m : Memory) (h : m.wf = true) (v : Byte) :
    m.append m.length v = some (ofBytes (m.bytes ++ [v])) := by
  have := append_ofBytes m.bytes v
  rwa [← eq_ofBytes m h, bytes_length] at this

theorem write_wf (m m' : Memory) (h : m.wf = true) (a : Nat) (v : Byte) (hw : m.write a v = some m') :
    m'.wf = true := by
  have hk := write_fst m m' a v hw
  have hl : m'.length = m.length := by simpa using congrArg List.length hk
  simp only [wf, hk, hl]
  exact h

theorem append_wf (m m' : Memory) (h : m.wf = true) (a : Nat) (v : Byte) (hw : m.append a v = some m') :
    m'.wf = true := by
  by_cases ha : a = m.length
  · subst ha
    rw [append_eq m h v] at hw
    obtain rfl := Option.some.inj hw
    exact wf_ofBytes _
  · rw [append, if_neg ha] at hw
    exact write_wf m m' h a v hw

@[simp] theorem freeFrom_length (m : Memory) (e d : Nat) : (m.freeFrom e d).length = m.length := by
  simp [freeFrom]

@[simp] theorem freeFrom_wf (m : Memory) (e d : Nat) : (m.freeFrom e d).wf = m.wf := by
  have h : (m.freeFrom e d).map Prod.fst = m.map Prod.fst := by
    simp only [freeFrom, List.map_map]
    apply List.map_congr_left
    intro c _
    by_cases hc : c.1 < e <;> simp [hc]
  simp [wf, h]

@[simp] theorem overwrite_wf (m : Memory) (bs : List Byte) : (m.overwrite bs).wf = true :=
  wf_ofBytes _

@[simp] theorem overwrite_bytes (m : Memory) (bs : List Byte) :
    (m.overwrite bs).bytes = bs ++ m.bytes.drop bs.length := by
  simp [overwrite]

/-- The bytes below the first open index stay. -/
theorem freeFrom_take (m : Memory) (h : m.wf = true) (e d : Nat) :
    (m.freeFrom e d).bytes.take e = m.bytes.take e := by
  apply List.ext_getElem?
  intro j
  by_cases hj : j < e
  · rw [List.getElem?_take_of_lt hj, List.getElem?_take_of_lt hj]
    have hk : m.map Prod.fst = List.range m.length := by simpa [wf] using h
    by_cases hm : j < m.length
    · have : m[j].1 = j := by
        have := congrArg (fun l => l[j]?) hk
        simpa [hm] using this
      simp [bytes, freeFrom, hm, this, hj]
    · simp [bytes, freeFrom, hm]
  · simp [hj]

/-! The first bytes of a space. -/

@[simp] theorem front_bytes (m : Memory) (k : Nat) : (m.front k).bytes = m.bytes.take k := by
  simp [front, bytes]

@[simp] theorem front_length (m : Memory) (k : Nat) : (m.front k).length = min k m.length := by
  simp [front]

theorem front_all {m : Memory} {k : Nat} (h : m.length ≤ k) : m.front k = m :=
  List.take_of_length_le h

@[simp] theorem front_ofBytes_length (bs : List Byte) : (ofBytes bs).front bs.length = ofBytes bs :=
  front_all (by simp)

theorem front_wf (m : Memory) (h : m.wf = true) (k : Nat) : (m.front k).wf = true := by
  have hk : m.map Prod.fst = List.range m.length := by simpa [wf] using h
  have : (m.front k).map Prod.fst = List.range (m.front k).length := by
    rw [front, List.map_take, hk, List.take_range, List.length_take]
  simpa [wf] using this

/-- Freeing keeps nothing of the freed bytes: only the length and the bytes below matter. -/
theorem freeFrom_congr (bs cs : List Byte) (e d : Nat) (hl : bs.length = cs.length)
    (ht : bs.take e = cs.take e) : (ofBytes bs).freeFrom e d = (ofBytes cs).freeFrom e d := by
  suffices H : ∀ (k : Nat) (bs cs : List Byte), bs.length = cs.length →
      bs.take (e - k) = cs.take (e - k) →
      (ofBytesFrom k bs).freeFrom e d = (ofBytesFrom k cs).freeFrom e d from
    H 0 bs cs hl (by simpa using ht)
  intro k bs
  induction bs generalizing k with
  | nil =>
    intro cs hl _
    obtain rfl : cs = [] := List.length_eq_zero_iff.1 (by simpa using hl.symm)
    rfl
  | cons b bs ih =>
    intro cs hl ht
    cases cs with
    | nil => simp at hl
    | cons c cs =>
      have hrest : bs.take (e - (k + 1)) = cs.take (e - (k + 1)) := by
        by_cases hk : k < e
        · rw [show e - k = (e - (k + 1)) + 1 by omega] at ht
          simp only [List.take_succ_cons, List.cons.injEq] at ht
          exact ht.2
        · simp [show e - (k + 1) = 0 by omega]
      have := ih (k + 1) cs (by simpa using hl) hrest
      simp only [freeFrom, ofBytesFrom, List.map_cons] at this ⊢
      rw [this]
      by_cases hk : k < e
      · rw [show e - k = (e - (k + 1)) + 1 by omega] at ht
        simp only [List.take_succ_cons, List.cons.injEq] at ht
        simp [hk, ht.1]
      · simp [hk]

/-- Read after write: the written index. -/
theorem read_write_same (m m' : Memory) (a : Nat) (v : Byte) (h : m.write a v = some m') :
    m'.read a = some v := by
  induction m generalizing m' with
  | nil => simp [write] at h
  | cons c m ih =>
    simp only [write] at h
    split at h
    · obtain rfl := Option.some.inj h
      simp [read]
    · rename_i hc
      obtain ⟨x, hx, rfl⟩ := Option.map_eq_some_iff.1 h
      simp [read, hc, ih x hx]

/-- Read after write: every other index. -/
theorem read_write_other (m m' : Memory) (a b : Nat) (v : Byte) (h : m.write a v = some m') (hb : b ≠ a) :
    m'.read b = m.read b := by
  induction m generalizing m' with
  | nil => simp [write] at h
  | cons c m ih =>
    simp only [write] at h
    split at h
    · rename_i hc
      obtain rfl := Option.some.inj h
      simp [read, hc, Ne.symm hb]
    · obtain ⟨x, hx, rfl⟩ := Option.map_eq_some_iff.1 h
      simp only [read, ih x hx]

/-- An append at the first index after a space adds one cell. -/
theorem append_at_end (m : Memory) (a : Nat) (v : Byte) (h : a = m.length) : m.append a v = some (m ++ [(a, v)]) := by
  simp [append, h]

/-- Read after append: every other index. -/
theorem read_append_other (m m' : Memory) (a b : Nat) (v : Byte) (h : m.append a v = some m') (hb : b ≠ a) :
    m'.read b = m.read b := by
  simp only [append] at h
  split at h
  · cases h
    clear * - hb
    induction m with
    | nil => simp [read, hb.symm]
    | cons c m ih => simp [read, ih]
  · exact read_write_other m m' a b v h hb

/-- The bytes of a space after an append at its end. -/
theorem append_bytes {m m' : Memory} {v : Byte} (h : m.append m.length v = some m') : m'.bytes = m.bytes ++ [v] := by
  rw [append_at_end _ _ _ rfl] at h; cases h; simp [bytes]

end Sys2Proof.Machine.Memory
end

