-- ==== Sys2Proof/Laws/State.lean ====
section
/-! SUPPORT. One lemma per field for each named update of State, and what the small questions about a state read. -/

namespace Sys2Proof.Machine.State

/-! ## release -/

@[simp] theorem release_cfg (s : State) : (s.release).cfg = s.cfg := rfl
@[simp] theorem release_st (s : State) : (s.release).st = Config.freeFsm s.draws := rfl
@[simp] theorem release_i (s : State) : (s.release).i = s.freeIndex 0 := rfl
@[simp] theorem release_n (s : State) : (s.release).n = s.freeIndex 1 := rfl
@[simp] theorem release_rem (s : State) : (s.release).rem = s.freeIndex 2 := rfl
@[simp] theorem release_olen (s : State) : (s.release).olen = s.freeIndex 3 := rfl
@[simp] theorem release_viewEnd (s : State) : (s.release).viewEnd = s.viewEnd := rfl
@[simp] theorem release_status (s : State) : (s.release).status = s.status := rfl
@[simp] theorem release_inp (s : State) : (s.release).inp = s.inp := rfl
@[simp] theorem release_out (s : State) : (s.release).out = s.out := rfl
@[simp] theorem release_buf (s : State) : (s.release).buf = s.buf := rfl
@[simp] theorem release_op (s : State) : (s.release).op = s.op := rfl
@[simp] theorem release_phase (s : State) : (s.release).phase = .check := rfl
@[simp] theorem release_params (s : State) : (s.release).params = s.params := rfl
@[simp] theorem release_level (s : State) : (s.release).level = s.level := rfl
@[simp] theorem release_req (s : State) : (s.release).req = s.req := rfl
@[simp] theorem release_draws (s : State) : (s.release).draws = s.draws + 1 := rfl

/-! ## returnOut -/

@[simp] theorem returnOut_cfg (s : State) : (s.returnOut).cfg = s.cfg := rfl
@[simp] theorem returnOut_st (s : State) : (s.returnOut).st = Config.freeFsm s.draws := rfl
@[simp] theorem returnOut_i (s : State) : (s.returnOut).i = s.freeIndex 0 := rfl
@[simp] theorem returnOut_n (s : State) : (s.returnOut).n = s.freeIndex 1 := rfl
@[simp] theorem returnOut_rem (s : State) : (s.returnOut).rem = s.freeIndex 2 := rfl
@[simp] theorem returnOut_olen (s : State) : (s.returnOut).olen = s.freeIndex 3 := rfl
@[simp] theorem returnOut_viewEnd (s : State) : (s.returnOut).viewEnd = s.viewEnd := rfl
@[simp] theorem returnOut_status (s : State) : (s.returnOut).status = .ok := rfl
@[simp] theorem returnOut_inp (s : State) : (s.returnOut).inp = s.inp := rfl
@[simp] theorem returnOut_out (s : State) : (s.returnOut).out = s.out.front s.olen := rfl
@[simp] theorem returnOut_buf (s : State) : (s.returnOut).buf = s.buf := rfl
@[simp] theorem returnOut_op (s : State) : (s.returnOut).op = s.op := rfl
@[simp] theorem returnOut_phase (s : State) : (s.returnOut).phase = .check := rfl
@[simp] theorem returnOut_params (s : State) : (s.returnOut).params = s.params := rfl
@[simp] theorem returnOut_level (s : State) : (s.returnOut).level = s.level := rfl
@[simp] theorem returnOut_req (s : State) : (s.returnOut).req = s.req := rfl
@[simp] theorem returnOut_draws (s : State) : (s.returnOut).draws = s.draws + 1 := rfl

/-! ## returnView -/

@[simp] theorem returnView_cfg (s : State) (e : Nat) : (s.returnView e).cfg = s.cfg := rfl
@[simp] theorem returnView_st (s : State) (e : Nat) : (s.returnView e).st = Config.freeFsm s.draws := rfl
@[simp] theorem returnView_i (s : State) (e : Nat) : (s.returnView e).i = s.freeIndex 0 := rfl
@[simp] theorem returnView_n (s : State) (e : Nat) : (s.returnView e).n = s.freeIndex 1 := rfl
@[simp] theorem returnView_rem (s : State) (e : Nat) : (s.returnView e).rem = s.freeIndex 2 := rfl
@[simp] theorem returnView_olen (s : State) (e : Nat) : (s.returnView e).olen = s.freeIndex 3 := rfl
@[simp] theorem returnView_viewEnd (s : State) (e : Nat) : (s.returnView e).viewEnd = e := rfl
@[simp] theorem returnView_status (s : State) (e : Nat) : (s.returnView e).status = .ok := rfl
@[simp] theorem returnView_inp (s : State) (e : Nat) : (s.returnView e).inp = s.inp := rfl
@[simp] theorem returnView_out (s : State) (e : Nat) : (s.returnView e).out = s.out := rfl
@[simp] theorem returnView_buf (s : State) (e : Nat) : (s.returnView e).buf = s.buf.freeFrom e s.draws := rfl
@[simp] theorem returnView_op (s : State) (e : Nat) : (s.returnView e).op = s.op := rfl
@[simp] theorem returnView_phase (s : State) (e : Nat) : (s.returnView e).phase = .check := rfl
@[simp] theorem returnView_params (s : State) (e : Nat) : (s.returnView e).params = s.params := rfl
@[simp] theorem returnView_level (s : State) (e : Nat) : (s.returnView e).level = s.level := rfl
@[simp] theorem returnView_req (s : State) (e : Nat) : (s.returnView e).req = s.req := rfl
@[simp] theorem returnView_draws (s : State) (e : Nat) : (s.returnView e).draws = s.draws + 1 := rfl

/-! ## raise -/

@[simp] theorem raise_cfg (s : State) (k : ErrKind) : (s.raise k).cfg = s.cfg := rfl
@[simp] theorem raise_st (s : State) (k : ErrKind) : (s.raise k).st = Config.freeFsm s.draws := rfl
@[simp] theorem raise_i (s : State) (k : ErrKind) : (s.raise k).i = s.freeIndex 0 := rfl
@[simp] theorem raise_n (s : State) (k : ErrKind) : (s.raise k).n = s.freeIndex 1 := rfl
@[simp] theorem raise_rem (s : State) (k : ErrKind) : (s.raise k).rem = s.freeIndex 2 := rfl
@[simp] theorem raise_olen (s : State) (k : ErrKind) : (s.raise k).olen = s.freeIndex 3 := rfl
@[simp] theorem raise_viewEnd (s : State) (k : ErrKind) : (s.raise k).viewEnd = s.freeIndex 4 := rfl
@[simp] theorem raise_status (s : State) (k : ErrKind) : (s.raise k).status = .err k := rfl
@[simp] theorem raise_inp (s : State) (k : ErrKind) : (s.raise k).inp = s.inp := rfl
@[simp] theorem raise_out (s : State) (k : ErrKind) : (s.raise k).out = s.outAfter k := rfl
@[simp] theorem raise_buf (s : State) (k : ErrKind) : (s.raise k).buf = s.bufAfter k := rfl
@[simp] theorem raise_op (s : State) (k : ErrKind) : (s.raise k).op = s.op := rfl
@[simp] theorem raise_phase (s : State) (k : ErrKind) : (s.raise k).phase = .check := rfl
@[simp] theorem raise_params (s : State) (k : ErrKind) : (s.raise k).params = s.params := rfl
@[simp] theorem raise_level (s : State) (k : ErrKind) : (s.raise k).level = s.level := rfl
@[simp] theorem raise_req (s : State) (k : ErrKind) : (s.raise k).req = s.req := rfl
@[simp] theorem raise_draws (s : State) (k : ErrKind) : (s.raise k).draws = s.draws + 1 := rfl

/-! ## startCall -/

@[simp] theorem startCall_cfg (s : State) (op : Op) (cfg : SpecialChars) (data : List Byte) : (s.startCall op cfg data).cfg = cfg := rfl
@[simp] theorem startCall_st (s : State) (op : Op) (cfg : SpecialChars) (data : List Byte) : (s.startCall op cfg data).st = .expectOpeningFend := rfl
@[simp] theorem startCall_i (s : State) (op : Op) (cfg : SpecialChars) (data : List Byte) : (s.startCall op cfg data).i = 0 := rfl
@[simp] theorem startCall_n (s : State) (op : Op) (cfg : SpecialChars) (data : List Byte) : (s.startCall op cfg data).n = data.length := rfl
@[simp] theorem startCall_rem (s : State) (op : Op) (cfg : SpecialChars) (data : List Byte) : (s.startCall op cfg data).rem = 0 := rfl
@[simp] theorem startCall_olen (s : State) (op : Op) (cfg : SpecialChars) (data : List Byte) : (s.startCall op cfg data).olen = 0 := rfl
@[simp] theorem startCall_viewEnd (s : State) (op : Op) (cfg : SpecialChars) (data : List Byte) : (s.startCall op cfg data).viewEnd = s.freeIndex 4 := rfl
@[simp] theorem startCall_status (s : State) (op : Op) (cfg : SpecialChars) (data : List Byte) : (s.startCall op cfg data).status = .busy := rfl
@[simp] theorem startCall_inp (s : State) (op : Op) (cfg : SpecialChars) (data : List Byte) : (s.startCall op cfg data).inp = if op = .decodeInPlace then s.inp else Memory.ofBytes data := rfl
@[simp] theorem startCall_out (s : State) (op : Op) (cfg : SpecialChars) (data : List Byte) : (s.startCall op cfg data).out = [] := rfl
@[simp] theorem startCall_buf (s : State) (op : Op) (cfg : SpecialChars) (data : List Byte) : (s.startCall op cfg data).buf = if op = .decodeInPlace then Memory.ofBytes data else s.buf := rfl
@[simp] theorem startCall_op (s : State) (op : Op) (cfg : SpecialChars) (data : List Byte) : (s.startCall op cfg data).op = op := rfl
@[simp] theorem startCall_phase (s : State) (op : Op) (cfg : SpecialChars) (data : List Byte) : (s.startCall op cfg data).phase = .check := rfl
@[simp] theorem startCall_params (s : State) (op : Op) (cfg : SpecialChars) (data : List Byte) : (s.startCall op cfg data).params = s.params := rfl
@[simp] theorem startCall_level (s : State) (op : Op) (cfg : SpecialChars) (data : List Byte) : (s.startCall op cfg data).level = s.level := rfl
@[simp] theorem startCall_req (s : State) (op : Op) (cfg : SpecialChars) (data : List Byte) : (s.startCall op cfg data).req = s.req := rfl
@[simp] theorem startCall_draws (s : State) (op : Op) (cfg : SpecialChars) (data : List Byte) : (s.startCall op cfg data).draws = s.draws + 1 := rfl

/-! ## advance -/

@[simp] theorem advance_cfg (s : State) : (s.advance).cfg = s.cfg := rfl
@[simp] theorem advance_st (s : State) : (s.advance).st = s.st := rfl
@[simp] theorem advance_i (s : State) : (s.advance).i = s.i + 1 := rfl
@[simp] theorem advance_n (s : State) : (s.advance).n = s.n := rfl
@[simp] theorem advance_rem (s : State) : (s.advance).rem = s.rem := rfl
@[simp] theorem advance_olen (s : State) : (s.advance).olen = s.olen := rfl
@[simp] theorem advance_viewEnd (s : State) : (s.advance).viewEnd = s.viewEnd := rfl
@[simp] theorem advance_status (s : State) : (s.advance).status = s.status := rfl
@[simp] theorem advance_inp (s : State) : (s.advance).inp = s.inp := rfl
@[simp] theorem advance_out (s : State) : (s.advance).out = s.out := rfl
@[simp] theorem advance_buf (s : State) : (s.advance).buf = s.buf := rfl
@[simp] theorem advance_op (s : State) : (s.advance).op = s.op := rfl
@[simp] theorem advance_phase (s : State) : (s.advance).phase = s.phase := rfl
@[simp] theorem advance_params (s : State) : (s.advance).params = s.params := rfl
@[simp] theorem advance_level (s : State) : (s.advance).level = s.level := rfl
@[simp] theorem advance_req (s : State) : (s.advance).req = s.req := rfl
@[simp] theorem advance_draws (s : State) : (s.advance).draws = s.draws := rfl

end Sys2Proof.Machine.State
end

