-- ==== Sys2Proof/Laws/Ops.lean ====
section
/-! SUPPORT. What each shared operation can do, once: when it answers a next state, and which one. -/

namespace Sys2Proof.Machine

@[simp] theorem andThen_next (s : State) (k : State → Result) : andThen (.next s) k = k s := rfl
@[simp] theorem andThen_fault (f : Fault) (k : State → Result) : andThen (.fault f) k = .fault f := rfl
@[simp] theorem andThen_refused (r : Refusal) (k : State → Result) : andThen (.refused r) k = .refused r := rfl

theorem andThen_eq_next {r : Result} {k : State → Result} {t : State} (h : andThen r k = .next t) :
    ∃ s, r = .next s ∧ k s = .next t := by
  cases r with
  | next s => exact ⟨s, rfl, h⟩
  | fault f => cases h
  | refused f => cases h

@[simp] theorem whenSelected_true (r : Result) : whenSelected true r = r := rfl
@[simp] theorem whenSelected_false (r : Result) : whenSelected false r = .refused .rowNotSelected := rfl

theorem whenSelected_eq_next {b : Bool} {r : Result} {t : State} (h : whenSelected b r = .next t) :
    b = true ∧ r = .next t := by
  cases b with
  | true => exact ⟨rfl, h⟩
  | false => cases h

theorem whenSelected_pos {b : Bool} (h : b = true) (r : Result) : whenSelected b r = r := by simp [h]

/-- A call starts exactly when none is in flight and the instance admits it. -/
theorem begin_cases {s t : State} {op : Op} {cfg : SpecialChars} {data : List Byte}
    (h : s.begin op cfg data = .next t) :
    s.status ≠ .busy ∧ admits s.params op data.length = true ∧ t = s.startCall op cfg data := by
  simp only [State.begin] at h
  split at h
  · cases h
  · split at h
    · cases h
      exact ⟨‹_›, ‹_›, rfl⟩
    · cases h

theorem begin_next {s : State} {op : Op} {cfg : SpecialChars} {data : List Byte} (hb : s.status ≠ .busy)
    (ha : admits s.params op data.length = true) : s.begin op cfg data = .next (s.startCall op cfg data) := by
  simp [State.begin, hb, ha]

/-- An append to OUT writes one byte at OLEN and moves OLEN. -/
theorem appendOut_cases {s t : State} {v : Byte} (h : s.appendOut v = .next t) :
    ∃ m, s.out.append s.olen v = some m ∧ t = { s with out := m, olen := s.olen + 1 } := by
  simp only [State.appendOut] at h
  split at h
  · cases h
    exact ⟨_, ‹_›, rfl⟩
  · cases h

/-- With OLEN at the end of a canonical OUT, the append succeeds and grows it by the byte. -/
theorem appendOut_next {s : State} {v : Byte} (hw : s.out.wf = true) (hl : s.out.length = s.olen) :
    s.appendOut v = .next { s with out := Memory.ofBytes (s.out.bytes ++ [v]), olen := s.olen + 1 } := by
  simp [State.appendOut, ← hl, Memory.append_eq _ hw]

/-- With OLEN at the end of OUT, the append adds one cell. -/
theorem appendOut_cells {s : State} (v : Byte) (h : s.out.length = s.olen) :
    s.appendOut v = .next { s with out := s.out ++ [(s.olen, v)], olen := s.olen + 1 } := by
  simp [State.appendOut, Memory.append_at_end _ _ _ h.symm]

/-- An in-place store writes one byte of BUF, at I - REM, and nothing else. -/
theorem storeInPlace_cases {s t : State} {v : Byte} (h : s.storeInPlace v = .next t) :
    s.rem ≤ s.i ∧ ∃ m, s.buf.write (s.i - s.rem) v = some m ∧ t = { s with buf := m } := by
  simp only [State.storeInPlace, State.writeIndex] at h
  by_cases hr : s.rem ≤ s.i
  · simp only [hr, if_true] at h
    split at h
    · cases h
      exact ⟨hr, _, ‹_›, rfl⟩
    · cases h
  · simp [hr] at h

/-- With I - REM inside a canonical BUF, the store succeeds. -/
theorem storeInPlace_next {s : State} {v : Byte} (hw : s.buf.wf = true) (hr : s.rem ≤ s.i)
    (hl : s.i - s.rem < s.buf.length) :
    s.storeInPlace v = .next { s with buf := Memory.ofBytes (s.buf.bytes.set (s.i - s.rem) v) } := by
  simp [State.storeInPlace, State.writeIndex, hr, Memory.write_eq _ hw _ _ hl]

/-- An output byte of a decoder goes to BUF or to OUT, by the operation. -/
theorem storeOutput_cases {s t : State} {v : Byte} (h : s.storeOutput v = .next t) :
    (s.op = .decodeInPlace ∧ s.storeInPlace v = .next t) ∨ (s.op ≠ .decodeInPlace ∧ s.appendOut v = .next t) := by
  simp only [State.storeOutput] at h
  split at h
  · exact .inl ⟨‹_›, h⟩
  · exact .inr ⟨‹_›, h⟩

/-- `Emit(v)`: the byte is stored, then the state and I move. -/
theorem emit_cases {s t : State} {v : Byte} {next : FsmState} (h : s.emit v next = .next t) :
    ∃ u, s.storeOutput v = .next u ∧ t = { u with st := next, i := u.i + 1 } := by
  obtain ⟨u, hu, ht⟩ := andThen_eq_next h
  cases ht
  exact ⟨u, hu, rfl⟩

/-- `Emit(v)` in full: one byte of BUF at I - REM, or one byte of OUT at OLEN. -/
theorem emit_effect {s t : State} {v : Byte} {next : FsmState} (h : s.emit v next = .next t) :
    (s.op = .decodeInPlace ∧ s.rem ≤ s.i ∧ ∃ m, s.buf.write (s.i - s.rem) v = some m ∧
      t = { s with buf := m, st := next, i := s.i + 1 }) ∨
    (s.op ≠ .decodeInPlace ∧ ∃ m, s.out.append s.olen v = some m ∧
      t = { s with out := m, olen := s.olen + 1, st := next, i := s.i + 1 }) := by
  obtain ⟨u, hu, rfl⟩ := emit_cases h
  rcases storeOutput_cases hu with ⟨ho, h⟩ | ⟨ho, h⟩
  · obtain ⟨hr, m, hm, rfl⟩ := storeInPlace_cases h
    exact .inl ⟨ho, hr, m, hm, rfl⟩
  · obtain ⟨m, hm, rfl⟩ := appendOut_cases h
    exact .inr ⟨ho, m, hm, rfl⟩

/-- `Emit(v)` outside DECODE_IN_PLACE, with OLEN at the end of OUT. -/
theorem emit_out {s : State} (v : Byte) (next : FsmState) (ho : s.op ≠ .decodeInPlace) (h : s.out.length = s.olen) :
    s.emit v next = .next { s with
      out := s.out ++ [(s.olen, v)], olen := s.olen + 1, st := next, i := s.i + 1 } := by
  simp [State.emit, State.storeOutput, ho, appendOut_cells _ h]

/-- `Emit(v)` in DECODE_IN_PLACE, with I - REM inside BUF. -/
theorem emit_inPlace {s : State} (v : Byte) (next : FsmState) (ho : s.op = .decodeInPlace) (hw : s.buf.wf = true)
    (hr : s.rem ≤ s.i) (hl : s.i - s.rem < s.buf.length) :
    s.emit v next = .next { s with
      buf := Memory.ofBytes (s.buf.bytes.set (s.i - s.rem) v), st := next, i := s.i + 1 } := by
  simp [State.emit, State.storeOutput, ho, storeInPlace_next hw hr hl]

/-- `Accept`: a view in place, the output otherwise. -/
theorem accept_cases {s t : State} (h : s.accept = .next t) :
    (s.op = .decodeInPlace ∧ s.rem ≤ s.i ∧ t = s.returnView (s.i - s.rem)) ∨
    (s.op ≠ .decodeInPlace ∧ t = s.returnOut) := by
  simp only [State.accept] at h
  split at h
  · rename_i hop
    by_cases hr : s.rem ≤ s.i
    · simp only [State.writeIndex, hr, if_true] at h
      cases h
      exact .inl ⟨hop, hr, rfl⟩
    · simp [State.writeIndex, hr] at h
  · cases h
    exact .inr ⟨‹_›, rfl⟩

/-- `raise` keeps every space in canonical form. -/
theorem raise_wf (s : State) (k : ErrKind) (hi : s.inp.wf = true) (ho : s.out.wf = true) (hb : s.buf.wf = true) :
    (s.raise k).inp.wf = true ∧ (s.raise k).out.wf = true ∧ (s.raise k).buf.wf = true := by
  refine ⟨hi, ?_, ?_⟩
  · simp only [State.raise_out, State.outAfter]
    split
    · exact ho
    · exact Memory.wf_ofBytes _
  · simp only [State.raise_buf, State.bufAfter]
    split
    · exact hb
    · simpa using hb

/-- A byte at I is a byte of the input. -/
theorem currentByte_lt {s : State} {b : Byte} (h : s.currentByte = some b) : s.i < s.n := by
  simp only [State.currentByte] at h
  split at h
  · assumption
  · cases h

/-- The flags a decode byte row asks for. -/
theorem decReads_iff (s : State) (st : FsmState) (b : Byte) :
    s.decReads st b = true ↔
      s.status = .busy ∧ s.phase = .scan ∧ s.op ≠ .encode ∧ s.st = st ∧ s.currentByte = some b := by
  simp [State.decReads, State.decScanning, State.scanning, and_assoc]

theorem encReads_iff (s : State) (b : Byte) :
    s.encReads b = true ↔
      s.status = .busy ∧ s.phase = .scan ∧ s.op = .encode ∧ s.currentByte = some b := by
  simp [State.encReads, State.encScanning, State.scanning, and_assoc]

theorem decAtEnd_iff (s : State) (st : FsmState) :
    s.decAtEnd st = true ↔
      s.status = .busy ∧ s.phase = .scan ∧ s.op ≠ .encode ∧ s.st = st ∧ s.i = s.n := by
  simp [State.decAtEnd, State.decScanning, State.scanning, and_assoc]

theorem distinct4_iff (c : SpecialChars) :
    distinct4 c = true ↔ c.fend ≠ c.fesc ∧ c.fend ≠ c.tfend ∧ c.fend ≠ c.tfesc ∧
      c.fesc ≠ c.tfend ∧ c.fesc ≠ c.tfesc ∧ c.tfend ≠ c.tfesc := by
  simp [distinct4, and_assoc]

/-- The step the machine takes, by what it finds. -/
theorem step_idle {s : State} (h : s.fetch = .idle) : step s = .next s := by simp [step, h]
theorem step_run {s : State} {i : Instr} (h : s.fetch = .run i) : step s = exec i s.takeRequest := by simp [step, h]
theorem step_start {s : State} {op : Op} {cfg : SpecialChars} {data : List Byte}
    (h : s.fetch = .start op cfg data) : step s = s.takeRequest.begin op cfg data := by simp [step, h]

end Sys2Proof.Machine
end

