-- ==== Sys2Proof/Laws/Functions.lean ====
section
/-! SUPPORT. The operations as functions: lengths, and the escaped payload as a map over its bytes. -/

namespace Sys2Proof.Machine

theorem escAll_eq_flatMap (c : SpecialChars) (p : List Byte) : escAll c p = p.flatMap (esc c) := by
  induction p with
  | nil => rfl
  | cons b p ih => simp [escAll, ih]

@[simp] theorem escAll_append (c : SpecialChars) (p q : List Byte) : escAll c (p ++ q) = escAll c p ++ escAll c q := by
  simp [escAll_eq_flatMap]

/-- What `parse` accepts is an escaped payload followed by one `fend`. -/
theorem parse_ok (pr : Params) (c : SpecialChars) (f acc p : List Byte) (h : parse pr c f acc = .ok p) :
    ∃ q, p = acc ++ q ∧ f = escAll c q ++ [c.fend] := by
  induction f, acc using parse.induct c with
  | case1 acc => simp [parse] at h
  | case2 acc => exact ⟨[], by simpa [parse, escAll, eq_comm] using h⟩
  | case3 => simp [parse] at h
  | case4 acc hne => simp [parse, hne] at h
  | case5 acc rest hne ih =>
    simp only [parse, hne, if_false, if_true] at h
    obtain ⟨q, rfl, rfl⟩ := ih h
    exact ⟨c.fend :: q, by simp [escAll, esc, Ne.symm hne]⟩
  | case6 acc rest hne ht ih =>
    simp only [parse, hne, ht, if_false, if_true] at h
    obtain ⟨q, rfl, rfl⟩ := ih h
    exact ⟨c.fesc :: q, by simp [escAll, esc]⟩
  | case7 acc t rest h1 h2 hne => simp [parse, hne, h1, h2] at h
  | case8 b rest acc h1 h2 ih =>
    rw [parse.eq_def] at h
    simp only [h1, h2, if_false] at h
    obtain ⟨q, rfl, rfl⟩ := ih h
    exact ⟨b :: q, by simp [escAll, esc, h1, h2]⟩

/-- `parse` reads an escaped payload back, under a valid configuration. -/
theorem parse_escAll (pr : Params) (c : SpecialChars) (hd : distinct4 c = true) (p rest acc : List Byte) :
    parse pr c (escAll c p ++ rest) acc = parse pr c rest (acc ++ p) := by
  obtain ⟨h1, h2, h3, h4, h5, h6⟩ := (distinct4_iff c).1 hd
  induction p generalizing acc with
  | nil => simp [escAll]
  | cons b p ih =>
    simp only [escAll, esc]
    split
    · subst b; simp [parse, h1.symm, h6.symm, ih]
    · split
      · subst b; simp [parse, h1.symm, ih]
      · rw [parse.eq_def]; simp [*]

theorem parse_length {pr : Params} {c : SpecialChars} {f acc p : List Byte} (h : parse pr c f acc = .ok p) :
    p.length + 1 ≤ acc.length + f.length := by
  obtain ⟨q, rfl, rfl⟩ := parse_ok _ _ _ _ _ h
  have : q.length ≤ (escAll c q).length := by
    clear h
    induction q with
    | nil => simp [escAll]
    | cons b q ih =>
      have : 1 ≤ (esc c b).length := by simp only [esc]; split; simp; split <;> simp
      simp [escAll]; omega
  simp; omega

theorem decodeFn_length {pr : Params} {c : SpecialChars} {f p : List Byte} (h : decodeFn pr c f = .ok p) :
    p.length + 2 ≤ f.length := by
  simp only [decodeFn] at h
  split at h
  · cases f with
    | nil => cases h
    | cons b f =>
      simp only at h
      split at h
      · simpa using parse_length h
      · cases h
  · cases h

theorem decodeFn_ok {pr : Params} {c : SpecialChars} {f p : List Byte} (h : decodeFn pr c f = .ok p) :
    distinct4 c = true ∧ f = frameOf c p := by
  simp only [decodeFn] at h
  split at h
  · cases f with
    | nil => cases h
    | cons b f =>
      simp only at h
      split at h
      · obtain ⟨q, hq, rfl⟩ := parse_ok _ _ _ _ _ h
        simp only [List.nil_append] at hq
        subst hq
        exact ⟨‹_›, by simp [frameOf, *]⟩
      · cases h
  · cases h

theorem decodeFn_frameOf (pr : Params) {c : SpecialChars} (hd : distinct4 c = true) (p : List Byte) :
    decodeFn pr c (frameOf c p) = .ok p := by
  simp [decodeFn, hd, frameOf, parse_escAll pr c hd, parse]

/-- The exact inverse, on functions. -/
theorem decodeFn_ok_iff (pr : Params) {c : SpecialChars} (hd : distinct4 c = true) (f p : List Byte) :
    decodeFn pr c f = .ok p ↔ f = frameOf c p :=
  ⟨fun h => (decodeFn_ok h).2, fun h => h ▸ decodeFn_frameOf pr hd p⟩

theorem escAll_length (c : SpecialChars) (h : c.fend ≠ c.fesc) (p : List Byte) :
    (escAll c p).length = p.length + p.count c.fend + p.count c.fesc := by
  induction p with
  | nil => rfl
  | cons b p ih =>
    simp only [escAll, List.length_append, ih, List.length_cons, List.count_cons]
    by_cases h1 : b = c.fesc
    · subst b; simp [esc, h.symm]; omega
    · by_cases h2 : b = c.fend
      · subst b; simp [esc, h]; omega
      · simp [esc, h1, h2]; omega

theorem escAll_no_fend {c : SpecialChars} (hd : distinct4 c = true) (p : List Byte) : c.fend ∉ escAll c p := by
  obtain ⟨h1, h2, h3, -⟩ := (distinct4_iff c).1 hd
  induction p with
  | nil => simp [escAll]
  | cons b p ih =>
    simp only [escAll, List.mem_append, ih, or_false, esc]
    split
    · simp [h1, h3]
    · split
      · simp [h1, h2]
      · simpa using fun h => ‹¬b = c.fend› h.symm

theorem escAll_count_fesc {c : SpecialChars} (hd : distinct4 c = true) (p : List Byte) :
    (escAll c p).length = p.length + (escAll c p).count c.fesc := by
  obtain ⟨h1, h2, h3, h4, h5, h6⟩ := (distinct4_iff c).1 hd
  induction p with
  | nil => simp [escAll]
  | cons b p ih =>
    simp only [escAll, List.length_append, List.count_append, List.length_cons, esc]
    split
    · simp [h5.symm]; omega
    · split
      · simp [h4.symm]; omega
      · simp_all; omega

/-- `parse` never ends with the kind of the check, for parameters that do not name it. -/
theorem parse_ne_dup (pr : Params) (c : SpecialChars) (hp : pr.errEofAfterEscape ≠ .duplicateSpecialChar) (f a : List Byte) : parse pr c f a ≠
    .err .duplicateSpecialChar := by
  induction f, a using parse.induct c with
  | case8 b rest acc h1 h2 ih => rw [parse.eq_def]; simpa [h1, h2] using ih
  | case4 acc h => simpa [parse, h] using hp
  | _ => simp_all [parse]

end Sys2Proof.Machine
end

