-- ==== Sys2Proof/Laws/Request.lean ====
section
/-! SUPPORT. What a call can do, said once per operation, and the end of a call. -/

namespace Sys2Proof.Machine

/-- An ENCODE call that runs. -/
theorem exec_encode_cases {c : SpecialChars} {d : List Byte} {s t : State} (h : exec (.encode c d) s = .next t) :
    s.status ≠ .busy ∧ admits s.params .encode d.length = true ∧
      t = (s.startCall .encode c d).deliverOut (encodeFn c d) := by
  obtain ⟨u, hu, h⟩ := andThen_eq_next h
  obtain ⟨hb, ha, rfl⟩ := begin_cases hu
  cases h
  exact ⟨hb, ha, rfl⟩

/-- A DECODE call that runs. -/
theorem exec_decode_cases {c : SpecialChars} {d : List Byte} {s t : State} (h : exec (.decode c d) s = .next t) :
    s.status ≠ .busy ∧ admits s.params .decode d.length = true ∧
      t = (s.startCall .decode c d).deliverOut (decodeFn s.params c d) := by
  obtain ⟨u, hu, h⟩ := andThen_eq_next h
  obtain ⟨hb, ha, rfl⟩ := begin_cases hu
  cases h
  exact ⟨hb, ha, rfl⟩

/-- A DECODE_IN_PLACE call that runs. -/
theorem exec_decodeInPlace_cases {c : SpecialChars} {d : List Byte} {s t : State}
    (h : exec (.decodeInPlace c d) s = .next t) :
    s.status ≠ .busy ∧ admits s.params .decodeInPlace d.length = true ∧
      t = (s.startCall .decodeInPlace c d).deliverView (decodeFn s.params c d) := by
  obtain ⟨u, hu, h⟩ := andThen_eq_next h
  obtain ⟨hb, ha, rfl⟩ := begin_cases hu
  cases h
  exact ⟨hb, ha, rfl⟩

/-- A call runs when none is in flight and its operands fit. -/
theorem exec_encode_next {s : State} {c : SpecialChars} {d : List Byte} (hb : s.status ≠ .busy)
    (ha : admits s.params .encode d.length = true) :
    exec (.encode c d) s = .next ((s.startCall .encode c d).deliverOut (encodeFn c d)) := by
  simp only [exec, execEncode, begin_next hb ha, andThen_next]

theorem exec_decode_next {s : State} {c : SpecialChars} {d : List Byte} (hb : s.status ≠ .busy)
    (ha : admits s.params .decode d.length = true) :
    exec (.decode c d) s = .next ((s.startCall .decode c d).deliverOut (decodeFn s.params c d)) := by
  simp only [exec, execDecode, begin_next hb ha, andThen_next, State.startCall_params]

theorem exec_decodeInPlace_next {s : State} {c : SpecialChars} {d : List Byte} (hb : s.status ≠ .busy)
    (ha : admits s.params .decodeInPlace d.length = true) :
    exec (.decodeInPlace c d) s = .next ((s.startCall .decodeInPlace c d).deliverView (decodeFn s.params c d)) := by
  simp only [exec, execDecodeInPlace, begin_next hb ha, andThen_next, State.startCall_params]

/-- The end of a call with its output: OUT holds the output and nothing more, whatever it held before. -/
theorem deliverOut_ok (s : State) (bs : List Byte) :
    s.deliverOut (.ok bs) = { s.release with status := .ok, out := Memory.ofBytes bs } := by
  simp [State.deliverOut, State.returnOut, State.release, State.freeIndex]

/-- The end of a call with an error, for both kinds of output. -/
@[simp] theorem deliverOut_err (s : State) (k : ErrKind) : s.deliverOut (.err k) = s.raise k := rfl
@[simp] theorem deliverView_err (s : State) (k : ErrKind) : s.deliverView (.err k) = s.raise k := rfl

/-- What an ended call answers. -/
theorem deliverOut_response {s : State} (h : s.op ≠ .decodeInPlace) (r : CallResult) :
    (s.deliverOut r).response = some (match r with | .ok bs => .bytes bs | .err k => .error k) := by
  cases r <;> simp [deliverOut_ok, State.response, h]

theorem deliverView_response {s : State} (h : s.op = .decodeInPlace) (r : CallResult) :
    (s.deliverView r).response = some (match r with | .ok bs => .view bs.length bs | .err k => .error k) := by
  cases r <;> simp [State.deliverView, State.response, h, Memory.freeFrom_take]

end Sys2Proof.Machine
end

