-- ==== Sys2Proof/Laws/Rows.lean ====
section
/-! SUPPORT. What the shared emissions of ENCODE do, what a row's selection says, and a byte step as a whole. -/

namespace Sys2Proof.Machine

/-- An escape pair, with OLEN at the end of OUT. -/
theorem emitPair_cells {s : State} (v : Byte) (h : s.out.length = s.olen) :
    s.emitPair v = .next { s with
      out := s.out ++ [(s.olen, s.cfg.fesc), (s.olen + 1, v)], olen := s.olen + 2, i := s.i + 1 } := by
  simp only [State.emitPair, appendOut_cells _ h, andThen_next]
  rw [appendOut_cells _ (by simp [h])]
  simp [State.advance]

/-- A literal, with OLEN at the end of OUT. -/
theorem emitByte_cells {s : State} (v : Byte) (h : s.out.length = s.olen) :
    s.emitByte v = .next { s with out := s.out ++ [(s.olen, v)], olen := s.olen + 1, i := s.i + 1 } := by
  simp [State.emitByte, appendOut_cells _ h, State.advance]

/-- An escape pair writes OUT at OLEN and OLEN + 1 and nothing else. -/
theorem emitPair_effect {s t : State} {v : Byte} (h : s.emitPair v = .next t) :
    ∃ m m', s.out.append s.olen s.cfg.fesc = some m ∧ m.append (s.olen + 1) v = some m' ∧
      t = { s with out := m', olen := s.olen + 2, i := s.i + 1 } := by
  obtain ⟨u, hu, h⟩ := andThen_eq_next h
  obtain ⟨w, hw, h⟩ := andThen_eq_next h
  obtain ⟨m, hm, rfl⟩ := appendOut_cases hu
  obtain ⟨m', hm', rfl⟩ := appendOut_cases hw
  cases h
  exact ⟨m, m', hm, hm', rfl⟩

/-- A literal writes OUT at OLEN and nothing else. -/
theorem emitByte_effect {s t : State} {v : Byte} (h : s.emitByte v = .next t) :
    ∃ m, s.out.append s.olen v = some m ∧ t = { s with out := m, olen := s.olen + 1, i := s.i + 1 } := by
  obtain ⟨u, hu, h⟩ := andThen_eq_next h
  obtain ⟨m, hm, rfl⟩ := appendOut_cases hu
  cases h
  exact ⟨m, hm, rfl⟩

/-- In a decode call no row of ENCODE is selected. -/
theorem decode_selects_no_encode_row {s : State} (h : s.op ≠ .encode) :
    s.encAtOpen = false ∧ s.encAtClose = false ∧ ∀ b, s.encReads b = false := by
  simp [State.encAtOpen, State.encAtClose, State.encReads, State.encScanning, h]

/-- In an ENCODE call no row of a decoder is selected. -/
theorem encode_selects_no_decode_row {s : State} (h : s.op = .encode) :
    ∀ st b, s.decReads st b = false := by
  simp [State.decReads, State.decScanning, h]

theorem takeRequest_busy {s : State} (h : s.status = .busy) : s.takeRequest = s := by
  simp [State.takeRequest, h]

/-- What a byte step of a decode call runs. -/
theorem fetch_decode_byte {s : State} {b : Byte} (hb : s.status = .busy) (hp : s.phase = .scan) (ho : s.op ≠ .encode)
    (hl : s.level ≠ .symbol) (hc : s.currentByte = some b) : s.fetch = .run (decRow s.cfg s.st s.last b) := by
  simp [State.fetch, hb, State.fetchRow, hp, currentByte_lt hc, hc, State.rowAt, hl, State.byteRow, State.byteContext,
    ho, decode]

/-- What a byte step of an ENCODE call runs. -/
theorem fetch_encode_byte {s : State} {b : Byte} (hb : s.status = .busy) (hp : s.phase = .scan) (ho : s.op = .encode)
    (hl : s.level ≠ .symbol) (hc : s.currentByte = some b) : s.fetch = .run (encRow s.cfg b) := by
  simp [State.fetch, hb, State.fetchRow, hp, currentByte_lt hc, hc, State.rowAt, hl, State.byteRow, State.byteContext,
    ho, decode]

/-- What a decode operation can do with an action, field by field. -/
theorem perform_cases {s t : State} {a : FsmAction} (h : s.perform a = .next t) :
    (∃ nx, a = .drop nx ∧ t = { s with rem := s.rem + 1, st := nx, i := s.i + 1 }) ∨
    (∃ v nx, a = .emit v nx ∧ s.op = .decodeInPlace ∧ s.rem ≤ s.i ∧ ∃ m, s.buf.write (s.i - s.rem) v = some m ∧
      t = { s with buf := m, st := nx, i := s.i + 1 }) ∨
    (∃ v nx, a = .emit v nx ∧ s.op ≠ .decodeInPlace ∧ ∃ m, s.out.append s.olen v = some m ∧
      t = { s with out := m, olen := s.olen + 1, st := nx, i := s.i + 1 }) ∨
    (a = .accept ∧ s.op = .decodeInPlace ∧ s.rem ≤ s.i ∧ t = s.returnView (s.i - s.rem)) ∨
    (a = .accept ∧ s.op ≠ .decodeInPlace ∧ t = s.returnOut) ∨
    (∃ k, a = .fail k ∧ t = s.raise k) := by
  cases a with
  | drop nx => cases h; simp
  | emit v nx =>
    rcases emit_effect h with ⟨a, b, m, c, d⟩ | ⟨a, m, c, d⟩
    · right; left; exact ⟨v, nx, rfl, a, b, m, c, d⟩
    · right; right; left; exact ⟨v, nx, rfl, a, m, c, d⟩
  | accept =>
    rcases accept_cases h with ⟨a, b, c⟩ | ⟨a, b⟩ <;> simp [*]
  | fail k => cases h; simp

/-- What an escape pair can do in a decode call, field by field. -/
theorem consumePair_cases {s t : State} {v : Byte} (h : s.consumePair v = .next t) :
    (s.op = .decodeInPlace ∧ s.rem ≤ s.i ∧ ∃ m, s.buf.write (s.i - s.rem) v = some m ∧
      t = { s with buf := m, rem := s.rem + 1, st := .normal, i := s.i + 2 }) ∨
    (s.op ≠ .decodeInPlace ∧ ∃ m, s.out.append s.olen v = some m ∧
      t = { s with out := m, olen := s.olen + 1, rem := s.rem + 1, st := .normal, i := s.i + 2 }) := by
  simp only [State.consumePair, State.drop, andThen_next] at h
  rcases emit_effect h with ⟨a, b, m, c, d⟩ | ⟨a, m, c, d⟩
  · left; simp only at a b c; refine ⟨a, by omega, m, ?_, by simpa using d⟩
    rwa [show s.i + 1 - (s.rem + 1) = s.i - s.rem by omega] at c
  · right; exact ⟨a, m, c, d⟩

/-- Which kind `fsm_step` can raise, by state. -/
theorem fsmStep_fail {c : SpecialChars} {st : FsmState} {b : Byte} {last : Bool} {k : ErrKind}
    (h : fsmStep c st b last = .fail k) :
    (st = .expectOpeningFend ∧ k = .missingFirstFend) ∨
    (st = .normal ∧ last = false ∧ k = .fendCharInData) ∨
    (st = .afterEscape ∧ k = .missingTradeChar) := by
  cases st <;> simp only [fsmStep] at h
  · split at h <;> simp_all
  · split at h; simp at h; split at h; split at h <;> simp_all; simp at h
  · split at h; simp at h; split at h <;> simp_all

end Sys2Proof.Machine
end

