-- ==== Sys2Proof/Laws/Step.lean ====
section
/-! SUPPORT. What one step of a call can do, said once: the transition of the byte at I, an escape pair, the check, the two
flags of ENCODE, the end-of-input check. -/

namespace Sys2Proof.Machine

/-- A byte row of a decoder does what `fsm_step` says. -/
theorem exec_decRow {s : State} {b : Byte} (hb : s.status = .busy) (hp : s.phase = .scan) (ho : s.op ≠ .encode)
    (hc : s.currentByte = some b) : exec (decRow s.cfg s.st s.last b) s = s.perform (fsmStep s.cfg s.st b s.last) := by
  have hr : ∀ st, s.st = st → s.decReads st b = true := fun st h => (decReads_iff _ _ _).2 ⟨hb, hp, ho, h, hc⟩
  cases hst : s.st <;> simp only [decRow, fsmStep]
  · split
    · subst b; simp [exec, execDecOpen, hr _ hst, State.perform]
    · simp [exec, execDecNoopen, hr _ hst, State.perform, whenSelected, *]
  · split
    · subst b; simp [exec, execDecEsc, hr _ hst, State.perform]
    · split
      · subst b
        cases hl : s.last <;> simp [exec, execDecClose, execDecStray, hr _ hst, State.perform, hl]
      · simp [exec, execDecLit, hr _ hst, State.perform, whenSelected, *]
  · split
    · subst b; simp [exec, execDecTfend, hr _ hst, State.perform]
    · split
      · subst b; simp [exec, execDecTfesc, hr _ hst, State.perform]
      · simp [exec, execDecBadtrade, hr _ hst, State.perform, whenSelected, *]

/-- What an ENCODE byte step does with the byte at I. -/
theorem exec_encRow {s : State} {b : Byte} (hb : s.status = .busy) (hp : s.phase = .scan) (ho : s.op = .encode)
    (hc : s.currentByte = some b) : exec (encRow s.cfg b) s =
      if b = s.cfg.fesc then s.emitPair s.cfg.tfesc
      else if b = s.cfg.fend then s.emitPair s.cfg.tfend else s.emitByte b := by
  have hr : s.encReads b = true := (encReads_iff _ _).2 ⟨hb, hp, ho, hc⟩
  simp only [encRow]
  split
  · subst b; simp [exec, execEncFesc, hr]
  · split
    · subst b; simp [exec, execEncFend, whenSelected, *]
    · simp [exec, execEncLit, whenSelected, *]

/-- The same at the symbol level. -/
theorem exec_payloadSymbol {s : State} {b : Byte} (hb : s.status = .busy) (hp : s.phase = .scan) (ho : s.op = .encode)
    (hc : s.currentByte = some b) : exec (payloadSymbol s.cfg b) s =
      if b = s.cfg.fesc then s.emitPair s.cfg.tfesc
      else if b = s.cfg.fend then s.emitPair s.cfg.tfend else s.emitByte b := by
  have hr : s.encReads b = true := (encReads_iff _ _).2 ⟨hb, hp, ho, hc⟩
  simp only [payloadSymbol]
  split
  · subst b; simp [exec, execEscFesc, hr]
  · split
    · subst b; simp [exec, execEscFend, *]
    · simp [exec, execLit, *]

/-- The end-of-input row raises the kind of `fsm_eof`. -/
theorem exec_eofRow {s : State} (hb : s.status = .busy) (hp : s.phase = .scan) (ho : s.op ≠ .encode)
    (hi : s.i = s.n) : exec (eofRow s.st) s = .next (s.raise (fsmEof s.params s.st)) := by
  have hr : ∀ st, s.st = st → s.decAtEnd st = true := fun st h => (decAtEnd_iff _ _).2 ⟨hb, hp, ho, h, hi⟩
  cases hst : s.st <;> simp [eofRow, exec, execDecEofE, execDecEofN, execDecEofA, hr _ hst, State.fail, fsmEof]

/-- What a symbol step of a decode call does, under a valid configuration: the transition of the byte at I, or at an escape
pair both of its transitions. -/
theorem step_decode_symbol {s : State} {b : Byte} (hd : distinct4 s.cfg = true) (hb : s.status = .busy)
    (hp : s.phase = .scan) (ho : s.op ≠ .encode) (hl : s.level = .symbol) (hc : s.currentByte = some b) :
    step s = s.perform (fsmStep s.cfg s.st b s.last) ∨
    ∃ v, s.st = .normal ∧ b = s.cfg.fesc ∧
      (s.followingByte = some s.cfg.tfend ∧ v = s.cfg.fend ∨ s.followingByte = some s.cfg.tfesc ∧ v = s.cfg.fesc) ∧
      step s = s.consumePair v := by
  obtain ⟨h1, h2, h3, h4, h5, h6⟩ := (distinct4_iff _).1 hd
  obtain ⟨ha, hcl, hen⟩ := decode_selects_no_encode_row ho
  have hr : ∀ st, s.st = st → s.decReads st b = true := fun st h => (decReads_iff _ _ _).2 ⟨hb, hp, ho, h, hc⟩
  have hbyte : s.symbolAt b = none → step s = s.perform (fsmStep s.cfg s.st b s.last) := by
    intro hs
    have : s.fetch = .run (decRow s.cfg s.st s.last b) := by
      simp [State.fetch, hb, State.fetchRow, hp, currentByte_lt hc, hc, State.rowAt, hl, ho, hs, State.byteRow,
        State.byteContext, decode]
    rw [step_run this, takeRequest_busy hb, exec_decRow hb hp ho hc]
  have hsym : ∀ i, s.symbolAt b = some i → step s = exec i s := by
    intro i hs
    have : s.fetch = .run i := by
      simp [State.fetch, hb, State.fetchRow, hp, currentByte_lt hc, hc, State.rowAt, hl, ho, hs]
    rw [step_run this, takeRequest_busy hb]
  cases hst : s.st with
  | expectOpeningFend =>
    left
    by_cases hf : b = s.cfg.fend
    · rw [hsym .flag (by simp [State.symbolAt, hst, decodeSymbol, hf])]
      have := hr _ hst
      rw [hf] at this
      simp [exec, execFlag, ha, hcl, this, fsmStep, hf, State.perform]
    · rw [← hst]; apply hbyte
      by_cases he : b = s.cfg.fesc
      · cases hfo : s.followingByte with
        | none => simp [State.symbolAt, hst, decodeSymbol, he, h1.symm, hfo]
        | some t =>
          simp only [State.symbolAt, hst, decodeSymbol, he, h1.symm, hfo, Option.toList, if_false, if_true]
          by_cases ht : t = s.cfg.tfend
          · simp [ht]
          · by_cases ht' : t = s.cfg.tfesc <;> simp [ht, ht', h6.symm]
      · simp [State.symbolAt, hst, decodeSymbol, hf, he]
  | afterEscape => left; rw [← hst]; apply hbyte; simp [State.symbolAt, hst]
  | normal =>
    by_cases hf : b = s.cfg.fend
    · left
      cases hla : s.last with
      | true =>
        rw [hsym .flag (by simp [State.symbolAt, hst, decodeSymbol, hf, hla])]
        have := hr _ hst
        rw [hf] at this
        have hno : s.decReads .expectOpeningFend s.cfg.fend = false := by simp [State.decReads, hst]
        simp [exec, execFlag, ha, hcl, this, hno, fsmStep, hf, State.perform, hla, h1]
      | false => rw [← hst, ← hla]; apply hbyte; simp [State.symbolAt, hst, decodeSymbol, hf, hla]
    · by_cases he : b = s.cfg.fesc
      · have hre := hr _ hst
        rw [he] at hre
        cases hfo : s.followingByte with
        | none => left; rw [← hst]; apply hbyte; simp [State.symbolAt, hst, decodeSymbol, he, h1.symm, hfo]
        | some t =>
          by_cases ht : t = s.cfg.tfend
          · right; refine ⟨s.cfg.fend, rfl, he, .inl ⟨by rw [ht], rfl⟩, ?_⟩
            rw [hsym .escFend (by simp [State.symbolAt, hst, decodeSymbol, he, h1.symm, hfo, ht])]
            simp [exec, execEscFend, hen, State.decReadsPair, hre, hfo, ht]
          · by_cases ht' : t = s.cfg.tfesc
            · right; refine ⟨s.cfg.fesc, rfl, he, .inr ⟨by rw [ht'], rfl⟩, ?_⟩
              rw [hsym .escFesc (by simp [State.symbolAt, hst, decodeSymbol, he, h1.symm, hfo, ht', h6.symm])]
              simp [exec, execEscFesc, hen, State.decReadsPair, hre, hfo, ht']
            · left; rw [← hst]; apply hbyte
              simp [State.symbolAt, hst, decodeSymbol, he, h1.symm, hfo, ht, ht']
      · left
        rw [hsym (.lit b) (by simp [State.symbolAt, hst, decodeSymbol, he, hf])]
        simp [exec, execLit, hen, hr _ hst, fsmStep, hf, he, State.perform, whenSelected]

/-- What a step of a call does, under the configuration its check passed. -/
theorem step_busy_cases {s t : State} (hb : s.status = .busy) (hd : s.phase ≠ .check → distinct4 s.cfg = true)
    (h : step s = .next t) :
    (s.phase = .check ∧ distinct4 s.cfg = true ∧ t = { s with phase := if s.op = .encode then .opening else .scan }) ∨
    (s.phase = .check ∧ distinct4 s.cfg = false ∧ t = s.raise .duplicateSpecialChar) ∨
    (s.phase = .opening ∧ s.op = .encode ∧ s.openFrame = .next t) ∨
    (s.phase = .scan ∧ s.op = .encode ∧ s.i = s.n ∧ s.closeFrame = .next t) ∨
    (∃ b, s.phase = .scan ∧ s.op = .encode ∧ s.currentByte = some b ∧
      (if b = s.cfg.fesc then s.emitPair s.cfg.tfesc
        else if b = s.cfg.fend then s.emitPair s.cfg.tfend else s.emitByte b) = .next t) ∨
    (∃ b, s.phase = .scan ∧ s.op ≠ .encode ∧ s.currentByte = some b ∧
      s.perform (fsmStep s.cfg s.st b s.last) = .next t) ∨
    (∃ v, s.phase = .scan ∧ s.op ≠ .encode ∧ s.level = .symbol ∧ s.st = .normal ∧ s.currentByte = some s.cfg.fesc ∧
      (s.followingByte = some s.cfg.tfend ∧ v = s.cfg.fend ∨ s.followingByte = some s.cfg.tfesc ∧ v = s.cfg.fesc) ∧
      s.consumePair v = .next t) ∨
    (s.phase = .scan ∧ s.op ≠ .encode ∧ s.i = s.n ∧ t = s.raise (fsmEof s.params s.st)) := by
  cases hp : s.phase with
  | check =>
    have : step s = execCheckConfig s := by
      rw [step_run (i := .checkConfig) (by simp [State.fetch, hb, State.fetchRow, hp]), takeRequest_busy hb]; rfl
    rw [this] at h
    have h := (whenSelected_eq_next h).2
    split at h
    · cases h; simp [*]
    · cases h; simp_all
  | opening =>
    have : step s = execFlag s := by
      rw [step_run (i := .flag) (by simp [State.fetch, hb, State.fetchRow, hp]), takeRequest_busy hb]; rfl
    rw [this] at h
    simp [execFlag, State.encAtOpen, hb, hp, State.encAtClose, State.encScanning, State.scanning, State.decReads, State.decScanning] at h
    split at h
    · simp [*]
    · cases h
  | scan =>
    have hd := hd (by simp [hp])
    by_cases hi : s.i < s.n
    · cases hc : s.currentByte with
      | none => simp [step, State.fetch, hb, State.fetchRow, hp, hi, hc] at h
      | some b =>
        by_cases ho : s.op = .encode
        · by_cases hl : s.level = .symbol
          · rw [step_run (i := payloadSymbol s.cfg b) (by simp [State.fetch, hb, State.fetchRow, hp, hi, hc, State.rowAt, hl, ho]), takeRequest_busy hb, exec_payloadSymbol hb hp ho hc] at h
            simp [ho, h]
          · rw [step_run (fetch_encode_byte hb hp ho hl hc), takeRequest_busy hb, exec_encRow hb hp ho hc] at h
            simp [ho, h]
        · by_cases hl : s.level = .symbol
          · rcases step_decode_symbol hd hb hp ho hl hc with h' | ⟨v, hst, hbe, hf, h'⟩
            · rw [h'] at h; simp [ho, h]
            · rw [h'] at h
              right; right; right; right; right; right; left
              exact ⟨v, rfl, ho, hl, hst, by rw [hbe], hf, h⟩
          · rw [step_run (fetch_decode_byte hb hp ho hl hc), takeRequest_busy hb, exec_decRow hb hp ho hc] at h
            simp [ho, h]
    · by_cases ho : s.op = .encode
      · have : step s = execFlag s := by
          rw [step_run (i := .flag) (by simp [State.fetch, hb, State.fetchRow, hp, hi, ho]), takeRequest_busy hb]; rfl
        rw [this] at h
        simp [execFlag, State.encAtOpen, hb, hp, State.encAtClose, State.encScanning, State.scanning, State.decReads, State.decScanning, ho] at h
        split at h
        · simp [*]
        · cases h
      · rw [step_run (i := eofRow s.st) (by simp [State.fetch, hb, State.fetchRow, hp, hi, ho]), takeRequest_busy hb] at h
        have hin : s.i = s.n := by
          cases hst : s.st <;> rw [hst] at h <;> exact ((decAtEnd_iff _ _).1 (whenSelected_eq_next h).1).2.2.2.2
        rw [exec_eofRow hb hp ho hin] at h
        cases h
        simp [ho, hin]

/-- The check, as a step. -/
theorem step_check {s : State} (hb : s.status = .busy) (hp : s.phase = .check) : step s = if distinct4 s.cfg then
    .next { s with phase := if s.op = .encode then .opening else .scan } else .next (s.raise .duplicateSpecialChar)
        := by
  rw [step_run (i := .checkConfig) (by simp [State.fetch, hb, State.fetchRow, hp]), takeRequest_busy hb]
  simp [exec, execCheckConfig, hb, hp]

/-- ENCODE's open step. -/
theorem step_encode_open {s : State} (hb : s.status = .busy) (hp : s.phase = .opening) (ho : s.op = .encode) : step
    s = s.openFrame := by
  rw [step_run (i := .flag) (by simp [State.fetch, hb, State.fetchRow, hp]), takeRequest_busy hb]
  simp [exec, execFlag, State.encAtOpen, hb, hp, ho]

/-- ENCODE's close step. -/
theorem step_encode_close {s : State} (hb : s.status = .busy) (hp : s.phase = .scan) (ho : s.op = .encode) (hi :
    s.i = s.n) : step s = s.closeFrame := by
  rw [step_run (i := .flag) (by simp [State.fetch, hb, State.fetchRow, hp, hi, ho]), takeRequest_busy hb]
  simp [exec, execFlag, State.encAtOpen, hb, hp, State.encAtClose, State.encScanning, State.scanning, ho, hi]

/-- The step of a payload byte, at the byte level and at the symbol level. -/
theorem step_encode_byte {s : State} {b : Byte} (hb : s.status = .busy) (hp : s.phase = .scan) (ho : s.op = .encode)
    (hc : s.currentByte = some b) : step s = if b = s.cfg.fesc then s.emitPair s.cfg.tfesc
      else if b = s.cfg.fend then s.emitPair s.cfg.tfend else s.emitByte b := by
  by_cases hl : s.level = .symbol
  · rw [step_run (i := payloadSymbol s.cfg b) (by simp [State.fetch, hb, State.fetchRow, hp, currentByte_lt hc, hc,
      State.rowAt, hl, ho]), takeRequest_busy hb, exec_payloadSymbol hb hp ho hc]
  · rw [step_run (fetch_encode_byte hb hp ho hl hc), takeRequest_busy hb, exec_encRow hb hp ho hc]

/-- The step of a frame byte, but for an escape byte in state Normal at the symbol level. -/
theorem step_decode_byte {s : State} {b : Byte} (hd : distinct4 s.cfg = true) (hb : s.status = .busy) (hp : s.phase
    = .scan) (ho : s.op ≠ .encode)
    (hc : s.currentByte = some b) (hno : s.level = .symbol → s.st = .normal → b ≠ s.cfg.fesc) : step s = s.perform
        (fsmStep s.cfg s.st b s.last) := by
  by_cases hl : s.level = .symbol
  · rcases step_decode_symbol hd hb hp ho hl hc with h | ⟨v, h1, h2, _⟩
    · exact h
    · exact absurd h2 (hno hl h1)
  · rw [step_run (fetch_decode_byte hb hp ho hl hc), takeRequest_busy hb, exec_decRow hb hp ho hc]

/-- The end-of-input check, as a step. -/
theorem step_decode_eof {s : State} (hb : s.status = .busy) (hp : s.phase = .scan) (ho : s.op ≠ .encode) (hi : s.i
    = s.n) : step s = .next (s.raise (fsmEof s.params s.st)) := by
  rw [step_run (i := eofRow s.st) (by simp [State.fetch, hb, State.fetchRow, hp, hi, ho]), takeRequest_busy hb,
      exec_eofRow hb hp ho hi]


end Sys2Proof.Machine
end

