-- ==== Sys2Proof/Laws/Invariant.lean ====
section
/-! SUPPORT. The invariant's relations as propositions, and that the start and the ends of a call keep it. -/

namespace Sys2Proof.Machine

/-- The relations of Safety.lean as propositions. -/
theorem atStart_iff (s : State) : s.atStart = true ↔
    s.st = .expectOpeningFend ∧ s.i = 0 ∧ s.rem = 0 ∧ s.olen = 0 ∧ s.out = [] := by simp [State.atStart]

theorem encScan_iff (s : State) : s.encScan = true ↔ s.rem = 0 ∧ s.out.length = s.olen ∧
    s.olen = 1 + s.i + (s.inp.bytes.take s.i).count s.cfg.fend + (s.inp.bytes.take s.i).count s.cfg.fesc := by
  simp [State.encScan]

theorem decScan_iff (s : State) : s.decScan = true ↔
    (s.st = .expectOpeningFend ↔ s.i = 0) ∧
    (s.st = .expectOpeningFend → s.rem = 0) ∧
    (s.st ≠ .expectOpeningFend → 1 ≤ s.rem ∧ s.rem ≤ s.i) ∧
    (s.op = .decode → s.olen = s.i - s.rem ∧ s.out.length = s.olen) ∧
    (s.op = .decodeInPlace → s.olen = 0 ∧ s.out = []) ∧
    (s.op = .decode → s.st ≠ .expectOpeningFend →
      s.rem = 1 + (s.inp.bytes.take s.i).count s.cfg.fesc) ∧
    (s.st = .afterEscape → 2 ≤ s.rem ∧ s.source.read (s.i - 1) = some s.cfg.fesc) := by
  simp only [State.decScan, decide_eq_true_eq]

/-- The ends of a call keep the invariant. -/
theorem raise_inv {s : State} (h1 : s.inp.wf = true) (h2 : s.out.wf = true) (h3 : s.buf.wf = true) (k : ErrKind) :
    (s.raise k).Inv := by
  obtain ⟨a, b, c⟩ := raise_wf s k h1 h2 h3
  exact ⟨a, b, c, by simp, by simp⟩

theorem returnOut_inv {s : State} (h1 : s.inp.wf = true) (h2 : s.out.wf = true) (h3 : s.buf.wf = true)
    (hl : s.op = .encode → 2 ≤ s.olen ∧ s.olen ≤ s.out.length) (ho : s.op ≠ .decodeInPlace) : s.returnOut.Inv :=
  ⟨h1, Memory.front_wf _ h2 _, h3, by simp, fun _ => ⟨fun h => by have := hl h; simp; omega, fun h => absurd h ho⟩⟩

theorem returnView_inv {s : State} {e : Nat} (h1 : s.inp.wf = true) (h2 : s.out.wf = true) (h3 : s.buf.wf = true)
    (ho : s.op = .decodeInPlace) (he : e + 2 ≤ s.buf.length) : (s.returnView e).Inv :=
  ⟨h1, h2, by simpa using h3, by simp, fun _ => ⟨fun h => by simp [ho] at h, fun _ => by simpa using he⟩⟩

/-- The start of a call keeps every space canonical. -/
theorem startCall_wf (s : State) (op : Op) (c : SpecialChars) (d : List Byte) (h1 : s.inp.wf = true) (h3 : s.buf.wf = true) :
    (s.startCall op c d).inp.wf = true ∧ (s.startCall op c d).out.wf = true ∧ (s.startCall op c d).buf.wf = true := by
  refine ⟨?_, rfl, ?_⟩ <;> simp only [State.startCall_inp, State.startCall_buf] <;> split <;> simp [*]

theorem deliverOut_inv {s : State} (h1 : s.inp.wf = true) (h2 : s.out.wf = true) (h3 : s.buf.wf = true)
    (ho : s.op ≠ .decodeInPlace) (r : CallResult) (hr : ∀ bs, r = .ok bs → s.op = .encode → 2 ≤ bs.length) :
    (s.deliverOut r).Inv := by
  cases r with
  | err k => exact raise_inv h1 h2 h3 k
  | ok bs => exact returnOut_inv h1 (by simp) h3 (fun h => ⟨hr bs rfl h, by simp⟩) ho

/-- An escape pair is the two transitions of its bytes. -/
theorem consumePair_eq {s : State} {v tr : Byte} (hd : distinct4 s.cfg = true) (hst : s.st = .normal)
    (hv : tr = s.cfg.tfend ∧ v = s.cfg.fend ∨ tr = s.cfg.tfesc ∧ v = s.cfg.fesc) :
    s.consumePair v = andThen (s.perform (fsmStep s.cfg s.st s.cfg.fesc s.last)) fun u =>
      u.perform (fsmStep u.cfg u.st tr u.last) := by
  obtain ⟨n1, n2, n3, n4, n5, n6⟩ := (distinct4_iff _).1 hd
  rcases hv with ⟨rfl, rfl⟩ | ⟨rfl, rfl⟩ <;>
    simp [State.consumePair, fsmStep, hst, State.perform, State.drop, n6.symm]

end Sys2Proof.Machine
end

