-- ==== Sys2Proof/Laws/PerInstr.lean ====
section
/-! SUPPORT. The family `EncodingLength`: how many bytes each instruction's words take, per constructor (R81, R85, R98,
R100; the request's layout is log 4). -/

namespace Sys2Proof.Laws

/-- The bytes of an instruction: a request its OP, four configuration bytes and its data; a byte row one; a wire symbol one,
an escape pair two; CHECK_CONFIG and the end-of-input rows none. -/
def EncodingLength.bytes : Instr → Nat
  | .encode _ data | .decode _ data | .decodeInPlace _ data => 5 + data.length
  | .checkConfig | .decEofE | .decEofN | .decEofA => 0
  | .encFesc | .encFend | .encLit _ => 1
  | .decOpen | .decNoopen _ | .decEsc | .decClose | .decStray | .decLit _ | .decTfend | .decTfesc | .decBadtrade _ => 1
  | .flag | .lit _ => 1
  | .escFend | .escFesc => 2

/-- The encoding has that length under every configuration. -/
def EncodingLength.Statement (i : Instr) : Prop :=
  ∀ c : SpecialChars, (encode c i).length = EncodingLength.bytes i

theorem EncodingLength.encode (cfg : SpecialChars) (data : List Byte) :
    EncodingLength.Statement (.encode cfg data) := by
  intro c
  simp [Sys2Proof.encode, encodeRequest, EncodingLength.bytes]
  omega
theorem EncodingLength.decode (cfg : SpecialChars) (data : List Byte) :
    EncodingLength.Statement (.decode cfg data) := by
  intro c
  simp [Sys2Proof.encode, encodeRequest, EncodingLength.bytes]
  omega
theorem EncodingLength.decodeInPlace (cfg : SpecialChars) (data : List Byte) :
    EncodingLength.Statement (.decodeInPlace cfg data) := by
  intro c
  simp [Sys2Proof.encode, encodeRequest, EncodingLength.bytes]
  omega
theorem EncodingLength.checkConfig : EncodingLength.Statement .checkConfig := fun _ => rfl
theorem EncodingLength.encFesc : EncodingLength.Statement .encFesc := fun _ => rfl
theorem EncodingLength.encFend : EncodingLength.Statement .encFend := fun _ => rfl
theorem EncodingLength.encLit (b : Byte) : EncodingLength.Statement (.encLit b) := fun _ => rfl
theorem EncodingLength.decOpen : EncodingLength.Statement .decOpen := fun _ => rfl
theorem EncodingLength.decNoopen (b : Byte) : EncodingLength.Statement (.decNoopen b) := fun _ => rfl
theorem EncodingLength.decEsc : EncodingLength.Statement .decEsc := fun _ => rfl
theorem EncodingLength.decClose : EncodingLength.Statement .decClose := fun _ => rfl
theorem EncodingLength.decStray : EncodingLength.Statement .decStray := fun _ => rfl
theorem EncodingLength.decLit (b : Byte) : EncodingLength.Statement (.decLit b) := fun _ => rfl
theorem EncodingLength.decTfend : EncodingLength.Statement .decTfend := fun _ => rfl
theorem EncodingLength.decTfesc : EncodingLength.Statement .decTfesc := fun _ => rfl
theorem EncodingLength.decBadtrade (b : Byte) : EncodingLength.Statement (.decBadtrade b) := fun _ => rfl
theorem EncodingLength.decEofE : EncodingLength.Statement .decEofE := fun _ => rfl
theorem EncodingLength.decEofN : EncodingLength.Statement .decEofN := fun _ => rfl
theorem EncodingLength.decEofA : EncodingLength.Statement .decEofA := fun _ => rfl
theorem EncodingLength.flag : EncodingLength.Statement .flag := fun _ => rfl
theorem EncodingLength.escFend : EncodingLength.Statement .escFend := fun _ => rfl
theorem EncodingLength.escFesc : EncodingLength.Statement .escFesc := fun _ => rfl
theorem EncodingLength.lit (b : Byte) : EncodingLength.Statement (.lit b) := fun _ => rfl

end Sys2Proof.Laws
end

