-- ==== Sys2Proof/Laws/Run.lean ====
section
/-! SUPPORT. Runs: an idle block stays as it is, and a run goes on after its first step. -/

namespace Sys2Proof.Machine

theorem run_idle {s : State} (hb : s.status ≠ .busy) (hr : s.req = none) (k : Nat) : run k s = .next s := by
  induction k with
  | zero => rfl
  | succ k ih =>
    have : step s = .next s := step_idle (by simp [State.fetch, hb, State.fetchRequest, hr])
    simp [run, this, ih]

theorem run_step {s u : State} (h : step s = .next u) (k : Nat) : run (k+1) s = run k u := by simp [run, h]

theorem run_one {s u : State} (hu : step s = .next u) (hb : u.status ≠ .busy) (hr : u.req = none) (k) (hk : 1 ≤ k)
    : run k s = .next u := by
  obtain ⟨k, rfl⟩ : ∃ j, k = j + 1 := ⟨k - 1, by omega⟩
  rw [run_step hu, run_idle hb hr]

end Sys2Proof.Machine
end

