-- ==== Sys2Proof/Tests/Slice0.lean ====
section
/-! SUPPORT. Tests on fixed values. Expected values come from spec/: the encodings of 30_encoding, the vectors S1 to S7,
V-C, V-E, V-D, V-P and the traces of programs 1 to 6 of 95_test_vectors. -/

namespace Sys2Proof.Tests
open Sys2Proof.Machine

/-! ## Helpers -/

/-- The state of a next outcome. -/
def after : Result → Option State
  | .next s => some s
  | .fault _ => none
  | .refused _ => none

/-- The refusal of an outcome. -/
def refusal : Result → Option Refusal
  | .next _ => none
  | .fault _ => none
  | .refused r => some r

/-- A request presented to the block after power-on. -/
def asked (level : Level) (op : Op) (c : SpecialChars) (data : List Byte) : State :=
  { State.reset with level := level, req := some ⟨op.code, c, data, false⟩ }

/-- An ENCODE call of the default configuration, its scan at index `i` with this output. -/
def encoding (data : List Byte) (i : Nat) (out : List Byte) : State :=
  { State.reset with
    level := .byte
    status := .busy
    phase := .scan
    op := .encode
    inp := Memory.ofBytes data
    n := data.length
    i := i
    out := Memory.ofBytes out
    olen := out.length }

/-- A DECODE call of the default configuration, its scan at index `i` with this output. -/
def decoding (data : List Byte) (st : FsmState) (i rem : Nat) (out : List Byte) : State :=
  { State.reset with
    level := .byte
    status := .busy
    phase := .scan
    op := .decode
    inp := Memory.ofBytes data
    n := data.length
    st := st
    i := i
    rem := rem
    out := Memory.ofBytes out
    olen := out.length }

/-- A DECODE_IN_PLACE call of the default configuration, its scan at index `i`. -/
def decodingInPlace (buf : List Byte) (st : FsmState) (i rem : Nat) : State :=
  { State.reset with
    level := .byte
    status := .busy
    phase := .scan
    op := .decodeInPlace
    buf := Memory.ofBytes buf
    n := buf.length
    st := st
    i := i
    rem := rem }

/-- A call before its check. -/
def checking (op : Op) (c : SpecialChars) : State :=
  { State.reset with level := .byte, status := .busy, op := op, cfg := c }

/-- The same state at the symbol level. -/
def atSymbols (s : State) : State := { s with level := .symbol }

/-- A custom configuration (V-C02). -/
def custom : SpecialChars := ⟨0x00#8, 0xFF#8, 0x01#8, 0x02#8⟩

/-- The configuration of S7. -/
def invalid : SpecialChars := ⟨0x7E#8, 0x7D#8, 0x5D#8, 0x5D#8⟩

/-- Finite parameters: CAP_IN = 6, CAP_OUT = 14, IDX_W = 4; 2 * 6 + 2 < 16 (R11). -/
def small : Params := { Params.default with capIn := some 6, capOut := some 14, idxW := some 4 }

/-! ## WellFormed refuses each ill-formed operand -/

theorem test_illformed_encLit :
    (Instr.encLit 0x7E#8).WellFormed .default = false ∧ (Instr.encLit 0x7D#8).WellFormed .default = false := by decide
theorem test_illformed_decNoopen : (Instr.decNoopen 0x7E#8).WellFormed .default = false := by decide
theorem test_illformed_decLit :
    (Instr.decLit 0x7E#8).WellFormed .default = false ∧ (Instr.decLit 0x7D#8).WellFormed .default = false := by decide
theorem test_illformed_decBadtrade :
    (Instr.decBadtrade 0x5E#8).WellFormed .default = false ∧
      (Instr.decBadtrade 0x5D#8).WellFormed .default = false := by decide
theorem test_illformed_lit :
    (Instr.lit 0x7E#8).WellFormed .default = false ∧ (Instr.lit 0x7D#8).WellFormed .default = false := by decide
theorem test_wellformed :
    (Instr.encLit 0x5E#8).WellFormed .default = true ∧ (Instr.decBadtrade 0x7E#8).WellFormed .default = true ∧
      (Instr.encode invalid [0x7E#8]).WellFormed .default = true := by decide

/-! ## One word per constructor, written out from the spec's encoding -/

theorem test_decode_encode :
    decode .request [0b00000000#8, 0b01111110#8, 0b01111101#8, 0b01011110#8, 0b01011101#8, 0x01#8, 0x7E#8] =
      .ok (.encode .default [0x01#8, 0x7E#8], []) := by decide
theorem test_decode_decode :
    decode .request [0b00000001#8, 0b00000000#8, 0b11111111#8, 0b00000001#8, 0b00000010#8] =
      .ok (.decode custom [], []) := by decide
theorem test_decode_decodeInPlace :
    decode .request [0b00000010#8, 0b01111110#8, 0b01111101#8, 0b01011110#8, 0b01011101#8, 0x7E#8, 0x7E#8] =
      .ok (.decodeInPlace .default [0x7E#8, 0x7E#8], []) := by decide
theorem test_decode_checkConfig : decode .check [0xAA#8] = .ok (.checkConfig, [0xAA#8]) := by decide
theorem test_decode_encFesc : decode (.encSym .default) [0b01111101#8] = .ok (.encFesc, []) := by decide
theorem test_decode_encFend : decode (.encSym .default) [0b01111110#8] = .ok (.encFend, []) := by decide
theorem test_decode_encLit : decode (.encSym .default) [0b01011110#8] = .ok (.encLit 0x5E#8, []) := by decide
theorem test_decode_decOpen :
    decode (.decSym .default .expectOpeningFend false) [0b01111110#8] = .ok (.decOpen, []) := by decide
theorem test_decode_decNoopen :
    decode (.decSym .default .expectOpeningFend true) [0b01111101#8] = .ok (.decNoopen 0x7D#8, []) := by decide
theorem test_decode_decEsc : decode (.decSym .default .normal true) [0b01111101#8] = .ok (.decEsc, []) := by decide
theorem test_decode_decClose : decode (.decSym .default .normal true) [0b01111110#8] = .ok (.decClose, []) := by decide
theorem test_decode_decStray : decode (.decSym .default .normal false) [0b01111110#8] = .ok (.decStray, []) := by decide
theorem test_decode_decLit :
    decode (.decSym .default .normal false) [0b01011110#8] = .ok (.decLit 0x5E#8, []) := by decide
theorem test_decode_decTfend :
    decode (.decSym .default .afterEscape false) [0b01011110#8] = .ok (.decTfend, []) := by decide
theorem test_decode_decTfesc :
    decode (.decSym .default .afterEscape false) [0b01011101#8] = .ok (.decTfesc, []) := by decide
theorem test_decode_decBadtrade :
    decode (.decSym .default .afterEscape true) [0b01111110#8] = .ok (.decBadtrade 0x7E#8, []) := by decide
theorem test_decode_decEofE : decode (.decEof .expectOpeningFend) [] = .ok (.decEofE, []) := by decide
theorem test_decode_decEofN : decode (.decEof .normal) [] = .ok (.decEofN, []) := by decide
theorem test_decode_decEofA : decode (.decEof .afterEscape) [] = .ok (.decEofA, []) := by decide
theorem test_decode_flag : decode (.frame .default) [0b01111110#8, 0x01#8] = .ok (.flag, [0x01#8]) := by decide
theorem test_decode_escFend :
    decode (.frame .default) [0b01111101#8, 0b01011110#8, 0x01#8] = .ok (.escFend, [0x01#8]) := by decide
theorem test_decode_escFesc :
    decode (.frame .default) [0b01111101#8, 0b01011101#8] = .ok (.escFesc, []) := by decide
theorem test_decode_lit : decode (.frame .default) [0b01011110#8] = .ok (.lit 0x5E#8, []) := by decide

/-! ## What the decoder rejects, by name -/

theorem test_reject :
    decode .request [0x03#8, 0x7E#8, 0x7D#8, 0x5E#8, 0x5D#8] = .error .reservedOp ∧
      decode .request [0x04#8, 0x7E#8, 0x7D#8, 0x5E#8, 0x5D#8] = .error .reservedOp ∧
      decode .request [0x00#8, 0x7E#8, 0x7D#8, 0x5E#8] = .error .truncated ∧
      decode (.decEof .normal) [0x01#8] = .error .byteLeft ∧
      decode (.frame .default) [0x7D#8, 0x00#8] = .error .brokenPair ∧
      decode (.frame .default) [0x7D#8] = .error .truncated := by decide

/-! ## Codes (R30, R82, R247, D20) -/

theorem test_codes :
    [Op.encode.code, Op.decode.code, Op.decodeInPlace.code] = [0b00#2, 0b01#2, 0b10#2] ∧
      [fsmCode .expectOpeningFend, fsmCode .normal, fsmCode .afterEscape] = [0#2, 1#2, 2#2] ∧
      [statusCode .ok, statusCode (.err .duplicateSpecialChar), statusCode (.err .missingFirstFend),
        statusCode (.err .missingFinalFend), statusCode (.err .fendCharInData), statusCode (.err .missingTradeChar)] =
          [some 0#3, some 1#3, some 2#3, some 3#3, some 4#3, some 5#3] ∧
      statusCode .busy = none := by decide
theorem test_pack :
    SpecialChars.default.pack = 0x5D5E7D7E#32 ∧ custom.pack = 0x0201FF00#32 ∧ invalid.pack = 0x5D5D7D7E#32 := by decide

/-! ## Table words and their placing (log 15) -/

theorem test_tableWord :
    decodeTableWord 8 0x00 = some (.encode ⟨0#8, 0#8, 0#8, 0#8⟩ []) ∧
      decodeTableWord 8 0x01 = some (.decode ⟨0#8, 0#8, 0#8, 0#8⟩ []) ∧
      decodeTableWord 8 0x02 = some (.decodeInPlace ⟨0#8, 0#8, 0#8, 0#8⟩ []) ∧
      decodeTableWord 8 0x03 = none ∧ decodeTableWord 8 0x7E = some .decOpen ∧ decodeTableWord 8 0x7D = some .decEsc ∧
      decodeTableWord 8 0x5E = some .decTfend ∧ decodeTableWord 8 0x5D = some .decTfesc ∧
      decodeTableWord 8 0x41 = some (.decLit 0x41#8) ∧ decodeTableWord 16 0x7D5E = some .escFend ∧
      decodeTableWord 16 0x7D5D = some .escFesc := by decide
theorem test_withFetchWord :
    (State.reset.withFetchWord 8 0x7E).fetch = .run .decOpen ∧
      (State.reset.withFetchWord 8 0x5E).fetch = .run .decTfend ∧
      (State.reset.withFetchWord 8 0x41).fetch = .run (.decLit 0x41#8) ∧
      (State.reset.withFetchWord 16 0x7D5E).fetch = .run .escFend ∧
      (State.reset.withFetchWord 8 0x01).fetch = .run (.decode ⟨0#8, 0#8, 0#8, 0#8⟩ []) := by decide
theorem test_withFetchWord_step :
    ((after (step (State.reset.withFetchWord 16 0x7D5D))).map fun t => (t.out.bytes, t.i)) = some ([0x7D#8], 3) := by
  decide

/-! ## The calls -/

theorem test_encode_S2 :
    (after (exec (.encode .default [0x01#8, 0x7E#8, 0x00#8, 0x7D#8, 0x00#8, 0x05#8, 0x80#8, 0x09#8]) .reset)).bind
        State.response =
      some (.bytes [0x7E#8, 0x01#8, 0x7D#8, 0x5E#8, 0x00#8, 0x7D#8, 0x5D#8, 0x00#8, 0x05#8, 0x80#8, 0x09#8, 0x7E#8]) := by
  decide
theorem test_encode_empty :
    ((after (exec (.encode .default []) .reset)).map fun t =>
      (t.status, t.response, t.response.bind Response.olen)) =
        some (.ok, some (.bytes [0x7E#8, 0x7E#8]), some 2) := by decide
theorem test_decode_VD23 :
    (after (exec (.decode .default [0x7E#8, 0x01#8, 0x7D#8, 0x5E#8, 0x00#8, 0x7D#8, 0x5D#8, 0x7E#8]) .reset)).bind
        State.response =
      some (.bytes [0x01#8, 0x7E#8, 0x00#8, 0x7D#8]) := by decide
theorem test_decode_VD20 :
    (after (exec (.decode .default [0x7E#8, 0x7D#8, 0x00#8, 0x7E#8, 0x7E#8]) .reset)).bind State.response =
      some (.error .missingTradeChar) := by decide
theorem test_decodeInPlace_VP11 :
    ((after (exec (.decodeInPlace invalid [0x7E#8, 0x01#8, 0x7E#8]) .reset)).map fun t => (t.status, t.buf.bytes)) =
      some (.err .duplicateSpecialChar, [0x7E#8, 0x01#8, 0x7E#8]) := by decide
theorem test_decodeInPlace_VP04 :
    ((after (exec (.decodeInPlace .default
        [0x7E#8, 0x01#8, 0x7D#8, 0x5E#8, 0x00#8, 0x7D#8, 0x5D#8, 0x7E#8]) .reset)).map
          fun t => (t.viewEnd, t.buf.length, t.buf.read 0, t.buf.read 3)) =
      some (4, 8, some 0x01#8, some 0x7D#8) := by decide
theorem test_checkConfig_VC08 :
    ((after (exec .checkConfig (checking .decode ⟨0x7E#8, 0x7D#8, 0x5E#8, 0x7D#8⟩))).map (·.status)) =
      some (.err .duplicateSpecialChar) := by decide
theorem test_checkConfig_VC02 :
    ((after (exec .checkConfig (checking .encode custom))).map fun t => (t.status, t.phase)) =
      some (.busy, .opening) := by decide

/-! ## The byte steps of ENCODE (program 1, call 1) -/

theorem test_encFend :
    ((after (exec .encFend (encoding [0x7E#8, 0x7D#8, 0x5E#8, 0x5D#8, 0x00#8] 0 [0x7E#8]))).map
        fun t => (t.out.bytes, t.olen, t.i)) = some ([0x7E#8, 0x7D#8, 0x5E#8], 3, 1) := by decide
theorem test_encFesc :
    ((after (exec .encFesc (encoding [0x7E#8, 0x7D#8, 0x5E#8, 0x5D#8, 0x00#8] 1 [0x7E#8, 0x7D#8, 0x5E#8]))).map
        fun t => (t.out.bytes, t.olen, t.i)) = some ([0x7E#8, 0x7D#8, 0x5E#8, 0x7D#8, 0x5D#8], 5, 2) := by decide
theorem test_encLit :
    ((after (exec (.encLit 0x5E#8) (encoding [0x5E#8] 0 [0x7E#8]))).map fun t => (t.out.bytes, t.olen, t.i)) =
      some ([0x7E#8, 0x5E#8], 2, 1) := by decide
theorem test_encLit_not_selected :
    refusal (exec (.encLit 0x7E#8) (encoding [0x7E#8] 0 [0x7E#8])) = some .rowNotSelected := by decide

/-! ## The byte steps of the decoders (program 2, and the vectors named) -/

theorem test_decOpen :
    ((after (exec .decOpen (decodingInPlace [0x7E#8, 0x01#8, 0x7E#8] .expectOpeningFend 0 0))).map
        fun t => (t.st, t.i, t.rem)) = some (.normal, 1, 1) := by decide
theorem test_decNoopen_VD13 :
    (after (exec (.decNoopen 0x7D#8) (decoding [0x7D#8, 0x5E#8, 0x7E#8] .expectOpeningFend 0 0 []))).bind
        State.response = some (.error .missingFirstFend) := by decide
theorem test_decEsc :
    ((after (exec .decEsc (decodingInPlace [0x01#8, 0x01#8, 0x7D#8, 0x5E#8, 0x7E#8] .normal 2 1))).map
        fun t => (t.st, t.i, t.rem)) = some (.afterEscape, 3, 2) := by decide
theorem test_decClose_VP02 :
    ((after (exec .decClose (decodingInPlace [0x01#8, 0x01#8, 0x7E#8] .normal 2 1))).map
        fun t => (t.status, t.viewEnd, t.response)) = some (.ok, 1, some (.view 1 [0x01#8])) := by decide
theorem test_decClose_VD03 :
    (after (exec .decClose (decoding [0x7E#8, 0x7E#8] .normal 1 1 []))).bind State.response = some (.bytes []) := by
  decide
theorem test_decStray_VD04 :
    (after (exec .decStray (decoding [0x7E#8, 0x7E#8, 0x7E#8] .normal 1 1 []))).bind State.response =
      some (.error .fendCharInData) := by decide
theorem test_decLit_in_place :
    ((after (exec (.decLit 0x01#8) (decodingInPlace [0x7E#8, 0x01#8, 0x7D#8] .normal 1 1))).map
        fun t => (t.buf.bytes, t.i, t.rem)) = some ([0x01#8, 0x01#8, 0x7D#8], 2, 1) := by decide
theorem test_decLit_VD06 :
    ((after (exec (.decLit 0x5E#8) (decoding [0x7E#8, 0x5E#8, 0x5D#8, 0x7E#8] .normal 1 1 []))).map
        fun t => (t.out.bytes, t.olen)) = some ([0x5E#8], 1) := by decide
theorem test_decTfend_in_place :
    ((after (exec .decTfend
        (decodingInPlace [0x01#8, 0x01#8, 0x7D#8, 0x5E#8, 0x00#8, 0x7D#8, 0x5D#8, 0x7E#8] .afterEscape 3 2))).map
          fun t => (t.buf.read 1, t.st, t.i)) = some (some 0x7E#8, .normal, 4) := by decide
theorem test_decTfesc :
    ((after (exec .decTfesc (decoding [0x7E#8, 0x7D#8, 0x5D#8, 0x7E#8] .afterEscape 2 2 []))).map
        fun t => (t.out.bytes, t.st, t.i)) = some ([0x7D#8], .normal, 3) := by decide
theorem test_decBadtrade_VD08 :
    (after (exec (.decBadtrade 0x7E#8) (decoding [0x7E#8, 0x7D#8, 0x7E#8] .afterEscape 2 2 []))).bind State.response =
      some (.error .missingTradeChar) := by decide
theorem test_decEofE_VD01 :
    (after (exec .decEofE (decoding [] .expectOpeningFend 0 0 []))).bind State.response =
      some (.error .missingFirstFend) := by decide
theorem test_decEofN_VD02 :
    (after (exec .decEofN (decoding [0x7E#8] .normal 1 1 []))).bind State.response =
      some (.error .missingFinalFend) := by decide
theorem test_decEofA_VD07 :
    (after (exec .decEofA (decoding [0x7E#8, 0x7D#8] .afterEscape 2 2 []))).bind State.response =
      some (.error .missingFinalFend) := by decide

/-! ## Wire symbols -/

theorem test_flag_close_encode :
    (after (exec .flag (encoding [0x01#8] 1 [0x7E#8, 0x01#8]))).bind State.response =
      some (.bytes [0x7E#8, 0x01#8, 0x7E#8]) := by decide
theorem test_flag_open_decode :
    ((after (exec .flag (decoding [0x7E#8, 0x7E#8] .expectOpeningFend 0 0 []))).map fun t => (t.st, t.i, t.rem)) =
      some (.normal, 1, 1) := by decide
theorem test_escFend_encode :
    ((after (exec .escFend (encoding [0x7E#8] 0 [0x7E#8]))).map fun t => t.out.bytes) =
      some [0x7E#8, 0x7D#8, 0x5E#8] := by decide
theorem test_escFend_in_place :
    ((after (exec .escFend (decodingInPlace [0x7E#8, 0x7D#8, 0x5E#8, 0x7E#8] .normal 1 1))).map
        fun t => (t.buf.read 0, t.i, t.rem, t.st)) = some (some 0x7E#8, 3, 2, .normal) := by decide
theorem test_escFesc_encode :
    ((after (exec .escFesc (encoding [0x7D#8] 0 [0x7E#8]))).map fun t => t.out.bytes) =
      some [0x7E#8, 0x7D#8, 0x5D#8] := by decide
theorem test_escFesc_decode :
    ((after (exec .escFesc (decoding [0x7E#8, 0x7D#8, 0x5D#8, 0x7E#8] .normal 1 1 []))).map
        fun t => (t.out.bytes, t.i, t.rem, t.st)) = some ([0x7D#8], 3, 2, .normal) := by decide
theorem test_lit_encode :
    ((after (exec (.lit 0x01#8) (encoding [0x01#8] 0 [0x7E#8]))).map fun t => t.out.bytes) =
      some [0x7E#8, 0x01#8] := by decide
theorem test_lit_decode :
    ((after (exec (.lit 0x01#8) (decoding [0x7E#8, 0x01#8, 0x7E#8] .normal 1 1 []))).map fun t => (t.out.bytes, t.i)) =
      some ([0x01#8], 2) := by decide

/-! ## Witnesses: for each obligation with hypotheses, values that meet them, for each clause -/

/-- The invariant, decided. -/
def meetsInv (s : State) : Bool := decide s.Inv
theorem meetsInv_iff (s : State) : meetsInv s = true ↔ s.Inv := by simp only [meetsInv, decide_eq_true_eq]

/-- StartOfCallLoadsRegisters: an ENCODE call below the level of the call, and a DECODE_IN_PLACE call whose length is the
largest the instance takes. -/
theorem witness_StartOfCallLoadsRegisters :
    ((asked .byte .encode .default [0x7E#8]).status ≠ .busy ∧ (asked .byte .encode .default [0x7E#8]).level ≠ .call ∧
      (asked .byte .encode .default [0x7E#8]).req = some ⟨Op.encode.code, .default, [0x7E#8], false⟩ ∧
      admits (asked .byte .encode .default [0x7E#8]).params .encode 1 = true) ∧
    ((asked .symbol .decodeInPlace invalid []).level ≠ .call ∧
      (asked .symbol .decodeInPlace invalid []).req = some ⟨Op.decodeInPlace.code, invalid, [], false⟩ ∧
      admits small .decodeInPlace 6 = true ∧ admits small .decodeInPlace 7 = false) := by decide

/-- StepRunsRequestedCall: both ways to meet the premise about OUT over IN. -/
theorem witness_StepRunsRequestedCall :
    (asked .call .encode .default []).status ≠ .busy ∧ (asked .call .encode .default []).level = .call ∧
      decodeOp Op.encode.code = some .encode ∧
      decodeOp (⟨2#2, .default, [0x7E#8], true⟩ : Request).opCode = some .decodeInPlace := by decide

/-- ByteStepRunsDecodedRow: an ENCODE byte, and a decoder byte that is the last one. -/
theorem witness_ByteStepRunsDecodedRow :
    ((encoding [0x7D#8] 0 [0x7E#8]).currentByte = some 0x7D#8 ∧ (encoding [0x7D#8] 0 [0x7E#8]).level ≠ .symbol ∧
      decode (.encSym .default) [0x7D#8] = .ok (.encFesc, [])) ∧
    ((decoding [0x7E#8, 0x7E#8] .normal 1 1 []).currentByte = some 0x7E#8 ∧
      decode (.decSym .default .normal (decide (1 = 2 - 1))) [0x7E#8] = .ok (.decClose, [])) := by decide

/-- SymbolStepRunsDecodedSymbol: the opening flag, the closing flag, a pair, and the three symbols of ENCODE. -/
theorem witness_SymbolStepRunsDecodedSymbol :
    ((atSymbols (decoding [0x7E#8, 0x7E#8] .expectOpeningFend 0 0 [])).currentByte = some 0x7E#8 ∧
      decode (.frame .default) [0x7E#8, 0x7E#8] = .ok (.flag, [0x7E#8])) ∧
    ((atSymbols (decoding [0x7E#8, 0x7E#8] .normal 1 1 [])).currentByte = some 0x7E#8 ∧
      (atSymbols (decoding [0x7E#8, 0x7E#8] .normal 1 1 [])).followingByte = none ∧
      decode (.frame .default) [0x7E#8] = .ok (.flag, []) ∧ (1 : Nat) = 2 - 1) ∧
    ((atSymbols (decoding [0x7E#8, 0x7D#8, 0x5E#8] .normal 1 1 [])).currentByte = some 0x7D#8 ∧
      (atSymbols (decoding [0x7E#8, 0x7D#8, 0x5E#8] .normal 1 1 [])).followingByte = some 0x5E#8 ∧
      decode (.frame .default) [0x7D#8, 0x5E#8] = .ok (.escFend, [])) ∧
    ((atSymbols (encoding [0x7D#8, 0x7E#8, 0x5E#8] 0 [0x7E#8])).currentByte = some 0x7D#8 ∧
      (atSymbols (encoding [0x7D#8, 0x7E#8, 0x5E#8] 1 [0x7E#8])).currentByte = some 0x7E#8 ∧
      (atSymbols (encoding [0x7D#8, 0x7E#8, 0x5E#8] 2 [0x7E#8])).currentByte = some 0x5E#8) := by decide

/-- StepsWithoutByteRunTheirRow: the check, the open step, the close step and the three end-of-input rows. -/
theorem witness_StepsWithoutByteRunTheirRow :
    ((checking .decode .default).status = .busy ∧ (checking .decode .default).phase = .check) ∧
    ({ checking .encode .default with phase := .opening } : State).phase = .opening ∧
    ((encoding [] 0 [0x7E#8]).i = (encoding [] 0 [0x7E#8]).n ∧ (encoding [] 0 [0x7E#8]).op = .encode) ∧
    ((decoding [] .expectOpeningFend 0 0 []).i = (decoding [] .expectOpeningFend 0 0 []).n ∧
      decode (.decEof .expectOpeningFend) [] = .ok (.decEofE, [])) ∧
    ((decoding [0x7E#8] .normal 1 1 []).i = (decoding [0x7E#8] .normal 1 1 []).n ∧
      decode (.decEof .normal) [] = .ok (.decEofN, [])) ∧
    ((decoding [0x7E#8, 0x7D#8] .afterEscape 2 2 []).i = (decoding [0x7E#8, 0x7D#8] .afterEscape 2 2 []).n ∧
      decode (.decEof .afterEscape) [] = .ok (.decEofA, [])) := by decide

/-- RequestsWithoutMeaningAreRefused: each of the three clauses. -/
theorem witness_RequestsWithoutMeaningAreRefused :
    refusal (step { State.reset with req := some ⟨3#2, .default, [], false⟩ }) = some .reservedOp ∧
    refusal (step { State.reset with req := some ⟨Op.decode.code, .default, [], true⟩ }) = some .outOverIn ∧
    (admits small .encode 7 = false ∧
      refusal (step { State.reset with
        params := small
        req := some ⟨Op.encode.code, .default, [0#8, 0#8, 0#8, 0#8, 0#8, 0#8, 0#8], false⟩ }) =
          some .overCapacity) := by decide

/-- BusyBlockIgnoresRequest: a busy block that takes a step. -/
theorem witness_BusyBlockIgnoresRequest :
    (encoding [0x01#8] 0 [0x7E#8]).status = .busy ∧
      (after (step (encoding [0x01#8] 0 [0x7E#8]))).isSome = true := by decide

/-- DecodeUndoesEncode: a request without bytes after it, a wire symbol with bytes after it. -/
theorem witness_DecodeUndoesEncode :
    distinct4 .default = true ∧
    ((Instr.decode invalid [0x7E#8]).WellFormed .default = true ∧
      (Instr.decode invalid [0x7E#8]).context .default = .request) ∧
    ((Instr.lit 0x5E#8).WellFormed .default = true ∧ (Instr.lit 0x5E#8).context .default = .frame .default) ∧
    ((Instr.decEofA).WellFormed .default = true ∧ (Instr.decEofA).context .default = .decEof .afterEscape) := by decide

/-- EncodeUndoesDecode: one word of each format. -/
theorem witness_EncodeUndoesDecode :
    (Context.under .default .request = true ∧
      decode .request [2#8, 0#8, 1#8, 2#8, 3#8] = .ok (.decodeInPlace ⟨0#8, 1#8, 2#8, 3#8⟩ [], [])) ∧
    (Context.under .default (.encSym .default) = true ∧
      decode (.encSym .default) [0x7E#8, 0x01#8] = .ok (.encFend, [0x01#8])) ∧
    (Context.under .default (.decSym .default .normal true) = true ∧
      decode (.decSym .default .normal true) [0x7E#8] = .ok (.decClose, [])) ∧
    (Context.under .default (.frame .default) = true ∧
      decode (.frame .default) [0x7D#8, 0x5D#8] = .ok (.escFesc, [])) := by decide

/-- DecoderRowsAreExclusive: a row with an effect, in its own context. -/
theorem witness_DecoderRowsAreExclusive :
    distinct4 (decoding [0x7E#8] .expectOpeningFend 0 0 []).cfg = true ∧
      (after (exec .decOpen (decoding [0x7E#8] .expectOpeningFend 0 0 []))).isSome = true ∧
      Instr.context .default .decOpen = .decSym .default .expectOpeningFend false := by decide

/-- CheckConfigTestsAllSixPairs: V-C02, and one configuration for each equal pair (V-C04 to V-C09). -/
theorem witness_CheckConfigTestsAllSixPairs :
    (checking .encode custom).status = .busy ∧ (checking .encode custom).phase = .check ∧ distinct4 custom = true ∧
    ([⟨0x7E#8, 0x7E#8, 0x5E#8, 0x5D#8⟩, ⟨0x7E#8, 0x7D#8, 0x7E#8, 0x5D#8⟩, ⟨0x7E#8, 0x7D#8, 0x5E#8, 0x7E#8⟩,
      ⟨0x7E#8, 0x7D#8, 0x7D#8, 0x5D#8⟩, ⟨0x7E#8, 0x7D#8, 0x5E#8, 0x7D#8⟩, invalid] : List SpecialChars).map distinct4 =
        [false, false, false, false, false, false] := by decide

/-- EncodeCallGivesFrame: an idle block, a payload at the instance's capacity, a valid configuration. -/
theorem witness_EncodeCallGivesFrame :
    State.reset.status ≠ .busy ∧ admits small .encode 6 = true ∧ admits Params.default .encode 8 = true ∧
      distinct4 .default = true := by decide

/-- DecodeCallGivesParseResult: an accepted frame and a failing one. -/
theorem witness_DecodeCallGivesParseResult :
    State.reset.status ≠ .busy ∧ admits State.reset.params .decode 3 = true ∧
      decodeFn State.reset.params .default [0x7E#8, 0x01#8, 0x7E#8] = .ok [0x01#8] ∧
      decodeFn State.reset.params .default [] = .err .missingFirstFend := by decide

/-- DecodeInPlaceCallGivesView: the same two. -/
theorem witness_DecodeInPlaceCallGivesView :
    State.reset.status ≠ .busy ∧ admits State.reset.params .decodeInPlace 3 = true ∧
      decodeFn State.reset.params .default [0x7E#8, 0x7E#8] = .ok [] ∧
      decodeFn State.reset.params .default [0x7E#8] = .err .missingFinalFend := by decide

/-- DuplicateConfigurationIsRejected: the configuration of S7, for every operation. -/
theorem witness_DuplicateConfigurationIsRejected :
    State.reset.status ≠ .busy ∧ invalid.tfend = invalid.tfesc ∧ admits State.reset.params .encode 0 = true ∧
      admits State.reset.params .decode 3 = true ∧ admits State.reset.params .decodeInPlace 3 = true := by decide

/-- NoSecondCallInFlight: a call in progress. -/
theorem witness_NoSecondCallInFlight : (encoding [] 0 [0x7E#8]).status = .busy := by decide

/-- EncFescAppendsPair, EncFendAppendsPair, EncLitAppendsByte: a byte of each class. -/
theorem witness_EncFescAppendsPair :
    (encoding [0x7D#8] 0 [0x7E#8]).encReads 0x7D#8 = true ∧ (encoding [0x7D#8] 0 [0x7E#8]).out.wf = true ∧
      (encoding [0x7D#8] 0 [0x7E#8]).out.length = (encoding [0x7D#8] 0 [0x7E#8]).olen := by decide
theorem witness_EncFendAppendsPair :
    (encoding [0x7E#8] 0 [0x7E#8]).encReads 0x7E#8 = true ∧ SpecialChars.default.fend ≠ SpecialChars.default.fesc ∧
      (encoding [0x7E#8] 0 [0x7E#8]).out.wf = true ∧
      (encoding [0x7E#8] 0 [0x7E#8]).out.length = (encoding [0x7E#8] 0 [0x7E#8]).olen := by decide
theorem witness_EncLitAppendsByte :
    (encoding [0x5E#8] 0 [0x7E#8]).encReads 0x5E#8 = true ∧ (0x5E#8 : Byte) ≠ SpecialChars.default.fesc ∧
      (0x5E#8 : Byte) ≠ SpecialChars.default.fend ∧ (encoding [0x5E#8] 0 [0x7E#8]).out.wf = true ∧
      (encoding [0x5E#8] 0 [0x7E#8]).out.length = (encoding [0x5E#8] 0 [0x7E#8]).olen := by decide

/-- FlagOpensAndClosesFrame: the open step and the close step. -/
theorem witness_FlagOpensAndClosesFrame :
    (({ checking .encode .default with phase := .opening } : State).encAtOpen = true ∧
      ({ checking .encode .default with phase := .opening } : State).out.wf = true ∧
      ({ checking .encode .default with phase := .opening } : State).out.length = 0) ∧
    ((encoding [] 0 [0x7E#8]).encAtClose = true ∧ (encoding [] 0 [0x7E#8]).out.wf = true ∧
      (encoding [] 0 [0x7E#8]).out.length = (encoding [] 0 [0x7E#8]).olen) := by decide

/-- EncodeStepsFrame: each of the six instructions has an effect somewhere. -/
theorem witness_EncodeStepsFrame :
    (after (exec .encFesc (encoding [0x7D#8] 0 [0x7E#8]))).isSome = true ∧
    (after (exec .encFend (encoding [0x7E#8] 0 [0x7E#8]))).isSome = true ∧
    (after (exec (.encLit 0x01#8) (encoding [0x01#8] 0 [0x7E#8]))).isSome = true ∧
    (after (exec .escFesc (encoding [0x7D#8] 0 [0x7E#8]))).isSome = true ∧
    (after (exec .escFend (encoding [0x7E#8] 0 [0x7E#8]))).isSome = true ∧
    (after (exec (.lit 0x01#8) (encoding [0x01#8] 0 [0x7E#8]))).isSome = true := by decide

/-- DecOpenDropsFlag and DecEscDropsEscape. -/
theorem witness_DecOpenDropsFlag :
    (decoding [0x7E#8] .expectOpeningFend 0 0 []).decReads .expectOpeningFend 0x7E#8 = true := by decide
theorem witness_DecEscDropsEscape :
    (decodingInPlace [0x7E#8, 0x7D#8] .normal 1 1).decReads .normal 0x7D#8 = true := by decide

/-- DecodeEmitsAppend: each of the three rows. -/
theorem witness_DecodeEmitsAppend :
    ((decoding [0x7E#8, 0x01#8] .normal 1 1 []).op = .decode ∧
      (decoding [0x7E#8, 0x01#8] .normal 1 1 []).out.wf = true ∧
      (decoding [0x7E#8, 0x01#8] .normal 1 1 []).out.length = 0 ∧
      (decoding [0x7E#8, 0x01#8] .normal 1 1 []).decReads .normal 0x01#8 = true) ∧
    (decoding [0x7E#8, 0x7D#8, 0x5E#8] .afterEscape 2 2 []).decReads .afterEscape 0x5E#8 = true ∧
    (decoding [0x7E#8, 0x7D#8, 0x5D#8] .afterEscape 2 2 []).decReads .afterEscape 0x5D#8 = true := by decide

/-- DecodeInPlaceEmitsBelowRead: each of the three rows, at the least REM and at REM = I. -/
theorem witness_DecodeInPlaceEmitsBelowRead :
    ((decodingInPlace [0x7E#8, 0x01#8] .normal 1 1).decReads .normal 0x01#8 = true ∧
      (decodingInPlace [0x7E#8, 0x01#8] .normal 1 1).buf.wf = true ∧
      (decodingInPlace [0x7E#8, 0x01#8] .normal 1 1).buf.length = (decodingInPlace [0x7E#8, 0x01#8] .normal 1 1).n) ∧
    ((decodingInPlace [0x7E#8, 0x7D#8, 0x5E#8] .afterEscape 2 2).decReads .afterEscape 0x5E#8 = true ∧
      (decodingInPlace [0x7E#8, 0x7D#8, 0x5E#8] .afterEscape 2 2).rem =
        (decodingInPlace [0x7E#8, 0x7D#8, 0x5E#8] .afterEscape 2 2).i) ∧
    (decodingInPlace [0x01#8, 0x01#8, 0x7D#8, 0x5D#8] .afterEscape 3 2).decReads .afterEscape 0x5D#8 = true := by decide

/-- DecCloseAccepts: DECODE and DECODE_IN_PLACE, the shortest frame. -/
theorem witness_DecCloseAccepts :
    ((decoding [0x7E#8, 0x7E#8] .normal 1 1 []).decReads .normal 0x7E#8 = true ∧ (1 : Nat) = 2 - 1) ∧
    ((decodingInPlace [0x7E#8, 0x7E#8] .normal 1 1).decReads .normal 0x7E#8 = true ∧
      (decodingInPlace [0x7E#8, 0x7E#8] .normal 1 1).i = (decodingInPlace [0x7E#8, 0x7E#8] .normal 1 1).n - 1 ∧
      (decodingInPlace [0x7E#8, 0x7E#8] .normal 1 1).rem ≤ (decodingInPlace [0x7E#8, 0x7E#8] .normal 1 1).i) := by decide

/-- FailRowsRaiseTheirKind: each of the four rows. -/
theorem witness_FailRowsRaiseTheirKind :
    (decoding [0x00#8] .expectOpeningFend 0 0 []).decReads .expectOpeningFend 0x00#8 = true ∧
    ((decoding [0x7E#8, 0x7E#8, 0x7E#8] .normal 1 1 []).decReads .normal 0x7E#8 = true ∧ (1 : Nat) ≠ 3 - 1) ∧
    (decodingInPlace [0x7E#8, 0x7D#8, 0x7E#8] .afterEscape 2 2).decReads .afterEscape 0x7E#8 = true ∧
    (decoding [0x7E#8] .normal 1 1 []).decAtEnd .normal = true := by decide

/-- EndOfInputRowsRaiseConfiguredKind: both rows. -/
theorem witness_EndOfInputRowsRaiseConfiguredKind :
    (decodingInPlace [] .expectOpeningFend 0 0).decAtEnd .expectOpeningFend = true ∧
    (decoding [0x7E#8, 0x7D#8] .afterEscape 2 2 []).decAtEnd .afterEscape = true := by decide

/-- DecodeStepsFrame: each of the five rows, in both operations where the store differs. -/
theorem witness_DecodeStepsFrame :
    (after (exec .decOpen (decoding [0x7E#8] .expectOpeningFend 0 0 []))).isSome = true ∧
    (after (exec .decEsc (decoding [0x7E#8, 0x7D#8] .normal 1 1 []))).isSome = true ∧
    (after (exec (.decLit 0x01#8) (decodingInPlace [0x7E#8, 0x01#8] .normal 1 1))).isSome = true ∧
    (after (exec .decTfend (decoding [0x7E#8, 0x7D#8, 0x5E#8] .afterEscape 2 2 []))).isSome = true ∧
    (after (exec .decTfesc (decodingInPlace [0x7E#8, 0x7D#8, 0x5D#8] .afterEscape 2 2))).isSome = true ∧
    (decodingInPlace [0x7E#8, 0x7D#8, 0x5D#8] .afterEscape 2 2).writeIndex = some 0 := by decide

/-- ByteStepPerformsFsmStep: a byte in each operation. -/
theorem witness_ByteStepPerformsFsmStep :
    ((decoding [0x7E#8] .expectOpeningFend 0 0 []).currentByte = some 0x7E#8 ∧
      (decoding [0x7E#8] .expectOpeningFend 0 0 []).op ≠ .encode ∧
      (decoding [0x7E#8] .expectOpeningFend 0 0 []).level ≠ .symbol) ∧
    (decodingInPlace [0x7E#8, 0x7D#8] .normal 1 1).currentByte = some 0x7D#8 := by decide

/-- SymbolsInDecodeAreTheirByteSteps: each of the five clauses. -/
theorem witness_SymbolsInDecodeAreTheirByteSteps :
    (decoding [0x7E#8] .expectOpeningFend 0 0 []).decReads .expectOpeningFend 0x7E#8 = true ∧
    ((decoding [0x7E#8, 0x7E#8] .normal 1 1 []).decReads .normal 0x7E#8 = true ∧
      (decoding [0x7E#8, 0x7E#8] .normal 1 1 []).i = (decoding [0x7E#8, 0x7E#8] .normal 1 1 []).n - 1) ∧
    (decodingInPlace [0x7E#8, 0x01#8] .normal 1 1).decReads .normal 0x01#8 = true ∧
    ((decodingInPlace [0x7E#8, 0x7D#8, 0x5E#8] .normal 1 1).decReads .normal 0x7D#8 = true ∧
      (decodingInPlace [0x7E#8, 0x7D#8, 0x5E#8] .normal 1 1).followingByte = some 0x5E#8) ∧
    (decodingInPlace [0x7E#8, 0x7D#8, 0x5D#8] .normal 1 1).followingByte = some 0x5D#8 := by decide

/-- EscapePairSymbols: each pair in each direction. -/
theorem witness_EscapePairSymbols :
    ((decoding [0x7E#8, 0x7D#8, 0x5E#8] .normal 1 1 []).decReads .normal 0x7D#8 = true ∧
      (decoding [0x7E#8, 0x7D#8, 0x5E#8] .normal 1 1 []).followingByte = some 0x5E#8 ∧
      (decoding [0x7E#8, 0x7D#8, 0x5E#8] .normal 1 1 []).out.wf = true ∧
      (decoding [0x7E#8, 0x7D#8, 0x5E#8] .normal 1 1 []).out.length = 0) ∧
    (decoding [0x7E#8, 0x7D#8, 0x5D#8] .normal 1 1 []).followingByte = some 0x5D#8 ∧
    (encoding [0x7E#8] 0 [0x7E#8]).encReads 0x7E#8 = true ∧
    (encoding [0x7D#8] 0 [0x7E#8]).encReads 0x7D#8 = true := by decide

/-- FlagAndLiteralSymbols: each clause. -/
theorem witness_FlagAndLiteralSymbols :
    (decodingInPlace [0x7E#8] .expectOpeningFend 0 0).decReads .expectOpeningFend 0x7E#8 = true ∧
    ((decoding [0x7E#8, 0x7E#8] .normal 1 1 []).decReads .normal 0x7E#8 = true ∧
      (decoding [0x7E#8, 0x7E#8] .normal 1 1 []).i = (decoding [0x7E#8, 0x7E#8] .normal 1 1 []).n - 1) ∧
    (encoding [0x01#8] 0 [0x7E#8]).encReads 0x01#8 = true ∧
    ((decoding [0x7E#8, 0x01#8] .normal 1 1 []).decReads .normal 0x01#8 = true ∧
      (decoding [0x7E#8, 0x01#8] .normal 1 1 []).op = .decode) := by decide

/-- EveryStepKeepsInvariant and CallInProgressNeverStops: states in the middle of each call that meet the invariant and
take a step. -/
theorem witness_EveryStepKeepsInvariant :
    (meetsInv (encoding [0x7E#8, 0x01#8] 1 [0x7E#8, 0x7D#8, 0x5E#8]) = true ∧
      (after (step (encoding [0x7E#8, 0x01#8] 1 [0x7E#8, 0x7D#8, 0x5E#8]))).isSome = true) ∧
    (meetsInv (decoding [0x7E#8, 0x7D#8, 0x5E#8, 0x7E#8] .afterEscape 2 2 []) = true ∧
      (after (step (decoding [0x7E#8, 0x7D#8, 0x5E#8, 0x7E#8] .afterEscape 2 2 []))).isSome = true) ∧
    (meetsInv (decodingInPlace [0x01#8, 0x01#8, 0x7D#8, 0x5E#8, 0x7E#8] .afterEscape 3 2) = true ∧
      (after (step (decodingInPlace [0x01#8, 0x01#8, 0x7D#8, 0x5E#8, 0x7E#8] .afterEscape 3 2))).isSome = true) ∧
    meetsInv (asked .byte .encode .default [0x7E#8]) = true := by decide
theorem witness_CallInProgressNeverStops :
    (meetsInv (encoding [0x7E#8] 1 [0x7E#8, 0x7D#8, 0x5E#8]) = true ∧ (encoding [0x7E#8] 1 [0x7E#8, 0x7D#8, 0x5E#8]).status = .busy) ∧
    meetsInv (atSymbols (decodingInPlace [0x7E#8, 0x7D#8, 0x00#8] .normal 1 1)) = true ∧
    meetsInv (checking .decode invalid) = true := by decide

/-- RegistersNeverExceedTheirWidth: finite parameters, the longest call the instance takes, just before its longest frame
is complete. -/
theorem witness_RegistersNeverExceedTheirWidth :
    let s : State := { encoding [0x7E#8, 0x7D#8] 1 [0x7E#8, 0x7D#8, 0x5E#8] with params := small }
    meetsInv s = true ∧ paramsOk s.params = true ∧ s.registersFit = true ∧ s.accepted = true ∧
      (after (step s)).isSome = true := by decide

/-- CallKeepsInCfgOperationAndBufLength: a step of each kind of call. -/
theorem witness_CallKeepsInCfgOperationAndBufLength :
    (after (step (decoding [0x7E#8, 0x01#8] .normal 1 1 []))).isSome = true ∧
    (after (step (decodingInPlace [0x7E#8, 0x01#8] .normal 1 1))).isSome = true := by decide

/-- InPlaceWritesStayBelowReadIndex: a step that writes, in a call that goes on. -/
theorem witness_InPlaceWritesStayBelowReadIndex :
    meetsInv (decodingInPlace [0x7E#8, 0x01#8, 0x7E#8] .normal 1 1) = true ∧
      ((after (step (decodingInPlace [0x7E#8, 0x01#8, 0x7E#8] .normal 1 1))).map fun t => (t.status, t.buf.read 0)) =
        some (.busy, some 0x01#8) := by decide

/-- OutputOnlyGrowsAtItsEnd: a step that appends two bytes, and one that appends none. -/
theorem witness_OutputOnlyGrowsAtItsEnd :
    (meetsInv (encoding [0x7E#8] 0 [0x7E#8]) = true ∧
      ((after (step (encoding [0x7E#8] 0 [0x7E#8]))).map fun t => (t.status, t.olen)) = some (.busy, 3)) ∧
    (meetsInv (decoding [0x7E#8, 0x7D#8] .normal 1 1 []) = true ∧
      ((after (step (decoding [0x7E#8, 0x7D#8] .normal 1 1 []))).map fun t => (t.status, t.olen)) =
        some (.busy, 0)) := by decide

/-- ReadIndexMovesByOne: the last byte of an input, in a call that goes on. -/
theorem witness_ReadIndexMovesByOne :
    meetsInv (decoding [0x7E#8, 0x01#8] .normal 1 1 []) = true ∧ (decoding [0x7E#8, 0x01#8] .normal 1 1 []).level ≠ .symbol ∧
      ((after (step (decoding [0x7E#8, 0x01#8] .normal 1 1 []))).map fun t => (t.status, t.i)) = some (.busy, 2) := by
  decide

/-- ErrorsOccurWhereTheTableSays: each kind, at the edge of its index range; a finite instance meets the premises on the
two kinds. -/
theorem witness_ErrorsOccurWhereTheTableSays :
    (small.errEmptyInput = .missingFirstFend ∧ small.errEofAfterEscape = .missingFinalFend) ∧
    (meetsInv (checking .encode invalid) = true ∧
      ((after (step (checking .encode invalid))).map (·.status)) = some (.err .duplicateSpecialChar)) ∧
    (meetsInv (decoding [] .expectOpeningFend 0 0 []) = true ∧
      ((after (step (decoding [] .expectOpeningFend 0 0 []))).map (·.status)) = some (.err .missingFirstFend)) ∧
    (meetsInv (decoding [0x7E#8] .normal 1 1 []) = true ∧
      ((after (step (decoding [0x7E#8] .normal 1 1 []))).map (·.status)) = some (.err .missingFinalFend)) ∧
    (meetsInv (decoding [0x7E#8, 0x7E#8, 0x7E#8] .normal 1 1 []) = true ∧
      ((after (step (decoding [0x7E#8, 0x7E#8, 0x7E#8] .normal 1 1 []))).map (·.status)) =
        some (.err .fendCharInData)) ∧
    (meetsInv (decoding [0x7E#8, 0x7D#8, 0x7E#8] .afterEscape 2 2 []) = true ∧
      ((after (step (decoding [0x7E#8, 0x7D#8, 0x7E#8] .afterEscape 2 2 []))).map (·.status)) =
        some (.err .missingTradeChar)) := by decide

/-- StepMachineAgreesWithCall: a request below the level of the call that the call answers. -/
theorem witness_StepMachineAgreesWithCall :
    paramsOk (asked .symbol .decode .default [0x7E#8, 0x7E#8]).params = true ∧
      (asked .symbol .decode .default [0x7E#8, 0x7E#8]).level ≠ .call ∧
      (after (exec (.decode .default [0x7E#8, 0x7E#8])
        { asked .symbol .decode .default [0x7E#8, 0x7E#8] with req := none })).isSome = true := by decide

/-- EveryCallEnds: a finite instance with the largest call it takes. -/
theorem witness_EveryCallEnds :
    let s : State := { asked .byte .decode .default [0x7E#8, 0x7E#8, 0#8, 0#8, 0#8, 0#8] with params := small }
    paramsOk s.params = true ∧ s.status ≠ .busy ∧ admits s.params .decode 6 = true := by decide

/-- ResponseDependsOnRequestOnly: two blocks at different levels with different pasts whose runs end. -/
theorem witness_ResponseDependsOnRequestOnly :
    let s₁ : State := asked .call .decode .default []
    let s₂ : State := { asked .byte .decode .default [] with st := .afterEscape, i := 7, status := .err .missingTradeChar }
    s₁.status ≠ .busy ∧ s₂.status ≠ .busy ∧ s₁.params = s₂.params ∧ paramsOk s₁.params = true ∧ s₁.req = s₂.req ∧
      (after (run 4 s₁)).isSome = true ∧ (after (run 4 s₂)).isSome = true := by decide

/-- DecodersAgree: a frame both decoders accept, and one both refuse. -/
theorem witness_DecodersAgree :
    let run' (op : Op) (f : List Byte) : Option Status :=
      (after (run (f.length + 4) { State.reset with req := some ⟨op.code, .default, f, false⟩ })).map (·.status)
    paramsOk State.reset.params = true ∧
      run' .decode [0x7E#8, 0x01#8, 0x7E#8] = some .ok ∧ run' .decodeInPlace [0x7E#8, 0x01#8, 0x7E#8] = some .ok ∧
      run' .decode [0x01#8] = some (.err .missingFirstFend) := by decide

/-- RoundTrip, RoundTripInPlace: an encoded payload that the decoders accept. -/
theorem witness_RoundTrip :
    distinct4 .default = true ∧ State.reset.status ≠ .busy ∧
      ((after (exec (.encode .default [0x7E#8]) .reset)).map fun t => admits t.params .decode t.out.length) =
        some true := by decide
theorem witness_RoundTripInPlace :
    distinct4 custom = true ∧ State.reset.status ≠ .busy ∧
      ((after (exec (.encode custom []) .reset)).map fun t => admits t.params .decodeInPlace t.out.length) =
        some true := by decide

/-- DecodeIsExactInverse: a pair that stands in the relation, and one that does not. -/
theorem witness_DecodeIsExactInverse :
    (((after (exec (.decode .default [0x7E#8, 0x01#8, 0x7E#8]) .reset)).bind State.response) = some (.bytes [0x01#8]) ∧
      ((after (exec (.encode .default [0x01#8]) .reset)).bind State.response) =
        some (.bytes [0x7E#8, 0x01#8, 0x7E#8])) ∧
    ((after (exec (.decode .default [0x7E#8]) .reset)).bind State.response) = some (.error .missingFinalFend) := by decide

/-- EncodedLength: no special byte, every byte special, and the empty payload. -/
theorem witness_EncodedLength :
    ((after (exec (.encode .default [0x00#8, 0xFF#8]) .reset)).map (·.out.length)) = some 4 ∧
    ((after (exec (.encode .default [0x7E#8, 0x7E#8, 0x7E#8]) .reset)).map (·.out.length)) = some 8 ∧
    ((after (exec (.encode .default []) .reset)).map (·.out.length)) = some 2 := by decide

/-- FrameHasFlagsOnlyAtItsEnds. -/
theorem witness_FrameHasFlagsOnlyAtItsEnds :
    distinct4 custom = true ∧ (after (exec (.encode custom [0x00#8]) .reset)).isSome = true := by decide

/-- DecodedLength: a frame with an escape pair. -/
theorem witness_DecodedLength :
    ((after (exec (.decode .default [0x7E#8, 0x7D#8, 0x5E#8, 0x7E#8]) .reset)).bind State.response) =
      some (.bytes [0x7E#8]) := by decide

/-- RenamingBytesRenamesResult: a one-to-one renaming under which both calls run. -/
theorem witness_RenamingBytesRenamesResult :
    Function.Injective (fun b : Byte => b ^^^ 0x55#8) ∧
      (after (exec (.decode .default [0x7E#8, 0x7E#8]) .reset)).isSome = true ∧
      (after (exec (.decode ⟨0x2B#8, 0x28#8, 0x0B#8, 0x08#8⟩ [0x2B#8, 0x2B#8]) .reset)).isSome = true := by
  refine ⟨fun a b h => ?_, by decide, by decide⟩
  simpa using h

/-- ErrorIsDecidedByPrefix: each kind but MissingFinalFend, in both decoders and at the edge of a finite instance. `j` steps
lead to the failing one, which leaves the input at index `i`; the other input agrees up to `i` and is admitted. -/
theorem witness_ErrorIsDecidedByPrefix :
    let fails (op : Op) (c : SpecialChars) (f f' : List Byte) (j i : Nat) : Option Status :=
      let s : State := { asked .byte op c f with params := small }
      if s.status ≠ .busy ∧ f'.take (i + 1) = f.take (i + 1) ∧ admits small op f'.length = true ∧ i < f.length ∧
          (after (run j s)).map (fun u => (u.status, u.i)) = some (.busy, i) then
        ((after (run j s)).bind fun u => after (step u)).map (·.status)
      else none
    fails .decode .default [0x7E#8, 0x7D#8, 0x00#8] [0x7E#8, 0x7D#8, 0x00#8, 0x7E#8, 0x01#8, 0x7E#8] 4 2 =
      some (.err .missingTradeChar) ∧
    fails .decodeInPlace .default [0x7E#8, 0x7E#8, 0x01#8, 0x01#8] [0x7E#8, 0x7E#8, 0x00#8] 3 1 =
      some (.err .fendCharInData) ∧
    fails .decodeInPlace .default [0x01#8, 0x7E#8] [0x01#8] 2 0 = some (.err .missingFirstFend) ∧
    fails .decode invalid [0x7E#8] [0x7E#8, 0x7E#8] 1 0 = some (.err .duplicateSpecialChar) := by decide

/-- IdleRegistersAreNotRead: a block that has a result and a request. -/
theorem witness_IdleRegistersAreNotRead :
    let s : State := { asked .call .encode .default [] with status := .ok }
    s.status ≠ .busy ∧ s.req ≠ none ∧ s.response ≠ none := by decide

end Sys2Proof.Tests
end

section
/-! SUPPORT. What the step of a block without a call in progress finds, and the call it runs (R7, R81, R82). -/

namespace Sys2Proof.Machine

theorem takeRequest_of_not_busy {s : State} (h : s.status ≠ .busy) : s.takeRequest = { s with req := none } := by
  simp [State.takeRequest, h]

theorem fetch_of_not_busy {s : State} (h : s.status ≠ .busy) : s.fetch = s.fetchRequest := by
  simp [State.fetch, h]

/-- R67 stops a decoded request only when its OUT lies over its IN and its operation reaches both. -/
theorem fetchRequest_of_decoded {s : State} {r : Request} {op : Op} (hr : s.req = some r)
    (hop : decodeOp r.opCode = some op) (hover : op = .decodeInPlace ∨ r.outOverIn = false) :
    s.fetchRequest =
      if s.level = .call then .run (op.instr r.cfg r.data) else .start op r.cfg r.data := by
  have hpass : ¬ (r.outOverIn && decide (op ≠ .decodeInPlace)) = true := by
    rcases hover with hop | hout
    · simp [hop]
    · simp [hout]
  simp only [State.fetchRequest, hr, hop, if_neg hpass]

/-- Settles O4: the fetch finds the instruction of the request, and the step takes the request as it runs it. -/
theorem stepRunsRequestedCall : Obligations.StepRunsRequestedCall := by
  intro s r op hidle hlevel hr hop hover
  have hfetch : s.fetch = .run (op.instr r.cfg r.data) := by
    rw [fetch_of_not_busy hidle, fetchRequest_of_decoded hr hop hover, if_pos hlevel]
  rw [step_run hfetch, takeRequest_of_not_busy hidle]

end Sys2Proof.Machine
end

section
/-! SUPPORT. The step of a block without a call in progress, once: nothing, the start of a call, or a whole call (R7,
R36, R37, R81). -/

namespace Sys2Proof.Machine

/-- What a block without a call in progress can find to run is a request, as one call. -/
theorem fetchRequest_run {s : State} {i : Instr} (h : s.fetchRequest = .run i) :
    ∃ op cfg data, i = Op.instr op cfg data := by
  simp only [State.fetchRequest] at h
  split at h
  · cases h
  · split at h
    · cases h
    · split at h
      · cases h
      · split at h
        · cases h
          exact ⟨_, _, _, rfl⟩
        · cases h

/-- A presented request is found to be something to do or to refuse. -/
theorem fetchRequest_ne_idle {s : State} (h : s.req ≠ none) : s.fetchRequest ≠ .idle := by
  obtain ⟨r, hr⟩ := Option.ne_none_iff_exists'.1 h
  simp only [State.fetchRequest, hr]
  split
  · simp
  · split
    · simp
    · split <;> simp

/-- What the step of a block without a call in progress does: nothing, the start of a call, or a whole call. -/
theorem step_not_busy_cases {s t : State} (hb : s.status ≠ .busy) (h : step s = .next t) :
    t = s ∨ ∃ op cfg data, t = ({ s with req := none } : State).startCall op cfg data ∨
      exec (op.instr cfg data) { s with req := none } = .next t := by
  rw [step, fetch_of_not_busy hb, takeRequest_of_not_busy hb] at h
  cases hf : s.fetchRequest with
  | idle =>
    rw [hf] at h
    cases h
    exact .inl rfl
  | start op cfg data =>
    rw [hf] at h
    obtain ⟨-, -, rfl⟩ := begin_cases h
    exact .inr ⟨op, cfg, data, .inl rfl⟩
  | run i =>
    rw [hf] at h
    obtain ⟨op, cfg, data, rfl⟩ := fetchRequest_run hf
    exact .inr ⟨op, cfg, data, .inr h⟩
  | refuse r => rw [hf] at h; cases h
  | stop f => rw [hf] at h; cases h

/-- The code of an operation selects it (R82). -/
@[simp] theorem decodeOp_code (op : Op) : decodeOp op.code = some op := by
  cases op <;> rfl

/-- Below the level of the call, an acceptable request is taken and started. -/
theorem step_start_of_request {s : State} {op : Op} {cfg : SpecialChars} {data : List Byte} (hb : s.status ≠ .busy)
    (hl : s.level ≠ .call) (hr : s.req = some ⟨op.code, cfg, data, false⟩)
    (ha : admits s.params op data.length = true) :
    step s = .next (({ s with req := none } : State).startCall op cfg data) := by
  have hfetch : s.fetch = .start op cfg data := by
    rw [fetch_of_not_busy hb, fetchRequest_of_decoded hr (decodeOp_code op) (.inr rfl), if_neg hl]
  rw [step_start hfetch, takeRequest_of_not_busy hb]
  exact begin_next hb ha

end Sys2Proof.Machine
end

section
/-! SUPPORT. The invariant in the scan of a call, byte by byte: what `fsm_step` answers under a valid configuration, how
the counted bytes grow with I, and the invariant after a transition, an escape pair and an emission of ENCODE. -/

namespace Sys2Proof.Machine

/-! ## The invariant, by the place of the call -/

theorem inv_encode_scan_iff {s : State} (hb : s.status = .busy) (hp : s.phase = .scan) (ho : s.op = .encode) :
    s.Inv ↔ (s.inp.wf = true ∧ s.out.wf = true ∧ s.buf.wf = true) ∧
      s.inp.length = s.n ∧ s.i ≤ s.n ∧ distinct4 s.cfg = true ∧ s.encScan = true := by
  simp [State.Inv, State.Running, State.source, hb, hp, ho, and_assoc]

theorem inv_decode_scan_iff {s : State} (hb : s.status = .busy) (hp : s.phase = .scan) (ho : s.op ≠ .encode) :
    s.Inv ↔ (s.inp.wf = true ∧ s.out.wf = true ∧ s.buf.wf = true) ∧
      s.source.length = s.n ∧ s.i ≤ s.n ∧ distinct4 s.cfg = true ∧ s.decScan = true := by
  simp [State.Inv, State.Running, hb, hp, ho, and_assoc]

/-- Before the scan the invariant asks for the start-of-call values (R36). -/
theorem inv_before_scan_iff {s : State} (hb : s.status = .busy) (hp : s.phase ≠ .scan) :
    s.Inv ↔ (s.inp.wf = true ∧ s.out.wf = true ∧ s.buf.wf = true) ∧ s.source.length = s.n ∧ s.atStart = true ∧
      (s.phase = .opening → s.op = .encode) ∧ (s.phase ≠ .check → distinct4 s.cfg = true) := by
  constructor
  · rintro ⟨hwi, hwo, hwb, hrun, -⟩
    obtain ⟨hlen, -, hstart, hop, hd, -, -⟩ := hrun hb
    exact ⟨⟨hwi, hwo, hwb⟩, hlen, hstart hp, hop, hd⟩
  · rintro ⟨⟨hwi, hwo, hwb⟩, hlen, hstart, hop, hd⟩
    obtain ⟨-, hi, -⟩ := (atStart_iff s).1 hstart
    exact ⟨hwi, hwo, hwb, fun _ => ⟨hlen, by omega, fun _ => hstart, hop, hd, fun h => absurd h hp,
      fun h => absurd h hp⟩, by simp [hb]⟩

/-- Once the check has passed the four bytes differ. -/
theorem distinct4_of_inv {s : State} (h : s.Inv) (hb : s.status = .busy) (hp : s.phase ≠ .check) :
    distinct4 s.cfg = true := by
  obtain ⟨-, -, -, hrun, -⟩ := h
  obtain ⟨-, -, -, -, hd, -⟩ := hrun hb
  exact hd hp

/-- The three spaces are canonical. -/
theorem wf_of_inv {s : State} (h : s.Inv) : s.inp.wf = true ∧ s.out.wf = true ∧ s.buf.wf = true :=
  have ⟨hwi, hwo, hwb, _⟩ := h
  ⟨hwi, hwo, hwb⟩

/-! ## The space a call reads -/

theorem source_of_inPlace {s : State} (ho : s.op = .decodeInPlace) : s.source = s.buf := by
  simp [State.source, ho]

theorem source_of_not_inPlace {s : State} (ho : s.op ≠ .decodeInPlace) : s.source = s.inp := by
  simp [State.source, ho]

theorem source_read_of_currentByte {s : State} {b : Byte} (h : s.currentByte = some b) :
    s.source.read s.i = some b := by
  simpa [State.currentByte, currentByte_lt h] using h

/-- A decode call that does not work in place is DECODE. -/
theorem op_eq_decode {s : State} (ho : s.op ≠ .encode) (hip : s.op ≠ .decodeInPlace) : s.op = .decode := by
  cases h : s.op <;> simp_all

theorem source_read_of_decode {s : State} {b : Byte} (ho : s.op = .decode) (h : s.currentByte = some b) :
    s.inp.read s.i = some b := by
  rw [← source_of_not_inPlace (by simp [ho])]
  exact source_read_of_currentByte h

/-- An append at the end of a space makes it one longer. -/
theorem Memory.append_length_at_end {m m' : Memory} {a : Nat} {v : Byte} (h : m.append a v = some m')
    (ha : a = m.length) : m'.length = m.length + 1 := by
  rw [Memory.append_at_end _ _ _ ha] at h
  cases h
  simp

/-- The count of a byte among those consumed, one byte on. -/
theorem count_take_succ {m : Memory} {k : Nat} {b : Byte} (hw : m.wf = true) (hr : m.read k = some b) (x : Byte) :
    (m.bytes.take (k + 1)).count x = (m.bytes.take k).count x + if b = x then 1 else 0 := by
  rw [Memory.read_eq m hw] at hr
  simp [List.take_add_one, hr, List.count_singleton]

/-! ## The transitions of a decode call -/

/-- What `fsm_step` can answer to a byte, under a valid configuration: only an escape byte in state Normal leads to
AfterEscape, and a byte that is emitted, or stands for one, is no escape byte. -/
theorem fsmStep_cases {c : SpecialChars} (hd : distinct4 c = true) (st : FsmState) (b : Byte) (last : Bool) :
    (st = .expectOpeningFend ∧ b = c.fend ∧ fsmStep c st b last = .drop .normal) ∨
    (st = .normal ∧ b = c.fesc ∧ fsmStep c st b last = .drop .afterEscape) ∨
    (st ≠ .expectOpeningFend ∧ b ≠ c.fesc ∧ ∃ v, fsmStep c st b last = .emit v .normal) ∨
    (st = .normal ∧ last = true ∧ fsmStep c st b last = .accept) ∨
    (∃ k, fsmStep c st b last = .fail k) := by
  obtain ⟨-, -, -, hfescTfend, hfescTfesc, -⟩ := (distinct4_iff c).1 hd
  cases st with
  | expectOpeningFend => by_cases h : b = c.fend <;> simp [fsmStep, h]
  | normal =>
    by_cases he : b = c.fesc
    · simp [fsmStep, he]
    · by_cases hf : b = c.fend
      · cases last <;> simp [fsmStep, hf, hf ▸ he]
      · simp [fsmStep, he, hf]
  | afterEscape =>
    by_cases h : b = c.tfend
    · simp [fsmStep, h, hfescTfend.symm]
    · by_cases h' : b = c.tfesc
      · simp [fsmStep, h', hfescTfesc.symm, h' ▸ h]
      · simp [fsmStep, h, h']

/-- DEC.OPEN: the opening flag is the one byte consumed, and it is no escape byte. -/
theorem decScan_open {s : State} (hd : distinct4 s.cfg = true) (hw : s.inp.wf = true)
    (hc : s.currentByte = some s.cfg.fend) (hs : s.decScan = true) (hst : s.st = .expectOpeningFend) :
    ({ s with rem := s.rem + 1, st := .normal, i := s.i + 1 } : State).decScan = true := by
  obtain ⟨hne, -⟩ := (distinct4_iff s.cfg).1 hd
  obtain ⟨hstart, hremStart, -, hdecode, hinPlace, -, -⟩ := (decScan_iff s).1 hs
  have hi := hstart.1 hst
  have hrem := hremStart hst
  have hcount : s.op = .decode → (s.inp.bytes.take 1).count s.cfg.fesc = 0 := fun ho => by
    have := count_take_succ hw (source_read_of_decode ho hc) s.cfg.fesc
    simpa [hi, hne] using this
  refine (decScan_iff _).2 ⟨by simp, by simp, by simp [hrem], ?_, hinPlace, ?_, by simp⟩
  · intro ho
    obtain ⟨holen, hout⟩ := hdecode ho
    exact ⟨by simp [holen, hi], hout⟩
  · intro ho _
    simp [hi, hrem, hcount ho]

/-- DEC.ESC: REM and the escape bytes consumed grow together. -/
theorem decScan_escape {s : State} (hw : s.inp.wf = true) (hc : s.currentByte = some s.cfg.fesc)
    (hs : s.decScan = true) (hst : s.st = .normal) :
    ({ s with rem := s.rem + 1, st := .afterEscape, i := s.i + 1 } : State).decScan = true := by
  obtain ⟨-, -, hremBound, hdecode, hinPlace, hremCount, -⟩ := (decScan_iff s).1 hs
  obtain ⟨hremPos, hremi⟩ := hremBound (by simp [hst])
  refine (decScan_iff _).2 ⟨by simp, by simp, fun _ => ⟨by simp, by simpa using hremi⟩, ?_, hinPlace, ?_, ?_⟩
  · intro ho
    obtain ⟨holen, hout⟩ := hdecode ho
    exact ⟨by simp [holen], hout⟩
  · intro ho _
    simp [count_take_succ hw (source_read_of_decode ho hc), hremCount ho (by simp [hst]), Nat.add_assoc]
  · exact fun _ => ⟨by simpa using hremPos, source_read_of_currentByte hc⟩

/-- An emission of DECODE: OUT grows with I, and the byte consumed is no escape byte. -/
theorem decScan_emit {s : State} {b : Byte} {m : Memory} (hw : s.inp.wf = true) (hc : s.currentByte = some b)
    (hb : b ≠ s.cfg.fesc) (hs : s.decScan = true) (hst : s.st ≠ .expectOpeningFend) (ho : s.op = .decode)
    (hm : m.length = s.olen + 1) :
    ({ s with out := m, olen := s.olen + 1, st := .normal, i := s.i + 1 } : State).decScan = true := by
  obtain ⟨-, -, hremBound, hdecode, -, hremCount, -⟩ := (decScan_iff s).1 hs
  obtain ⟨hremPos, hremi⟩ := hremBound hst
  obtain ⟨holen, -⟩ := hdecode ho
  refine (decScan_iff _).2 ⟨by simp, by simp, fun _ => ⟨hremPos, Nat.le_succ_of_le hremi⟩, ?_, by simp [ho],
    ?_, by simp⟩
  · exact fun _ => ⟨by simp; omega, hm⟩
  · intro _ _
    simp [count_take_succ hw (source_read_of_decode ho hc), hb, hremCount ho hst]

/-- An emission of DECODE_IN_PLACE: the bytes of BUF are no part of the relation in state Normal. -/
theorem decScan_emit_inPlace {s : State} {m : Memory} (hs : s.decScan = true) (hst : s.st ≠ .expectOpeningFend)
    (ho : s.op = .decodeInPlace) : ({ s with buf := m, st := .normal, i := s.i + 1 } : State).decScan = true := by
  obtain ⟨-, -, hremBound, -, hinPlace, -, -⟩ := (decScan_iff s).1 hs
  obtain ⟨hremPos, hremi⟩ := hremBound hst
  exact (decScan_iff _).2 ⟨by simp, by simp, fun _ => ⟨hremPos, Nat.le_succ_of_le hremi⟩, by simp [ho],
    hinPlace, by simp [ho], by simp⟩

/-- A transition of a decode call keeps the invariant. -/
theorem perform_fsmStep_inv {s t : State} {b : Byte} (hinv : s.Inv) (hb : s.status = .busy) (hp : s.phase = .scan)
    (ho : s.op ≠ .encode) (hc : s.currentByte = some b) (h : s.perform (fsmStep s.cfg s.st b s.last) = .next t) :
    t.Inv := by
  obtain ⟨⟨hwi, hwo, hwb⟩, hlen, -, hd, hs⟩ := (inv_decode_scan_iff hb hp ho).1 hinv
  have hlt := currentByte_lt hc
  obtain ⟨-, -, hremBound, hdecode, -, -, -⟩ := (decScan_iff s).1 hs
  rcases fsmStep_cases hd s.st b s.last with
    ⟨hst, rfl, ha⟩ | ⟨hst, rfl, ha⟩ | ⟨hst, hne, v, ha⟩ | ⟨hst, hlast, ha⟩ | ⟨k, ha⟩ <;> rw [ha] at h
  · cases h
    exact Iff.mpr (inv_decode_scan_iff hb hp ho) ⟨⟨hwi, hwo, hwb⟩, hlen, hlt, hd, decScan_open hd hwi hc hs hst⟩
  · cases h
    exact Iff.mpr (inv_decode_scan_iff hb hp ho) ⟨⟨hwi, hwo, hwb⟩, hlen, hlt, hd, decScan_escape hwi hc hs hst⟩
  · rcases emit_effect h with ⟨hip, -, m, hm, rfl⟩ | ⟨hip, m, hm, rfl⟩
    · refine Iff.mpr (inv_decode_scan_iff hb hp ho) ⟨⟨hwi, hwo, Memory.write_wf _ _ hwb _ _ hm⟩, ?_, hlt, hd,
        decScan_emit_inPlace hs hst hip⟩
      rw [source_of_inPlace hip] at hlen
      rw [source_of_inPlace (by exact hip)]
      exact (Memory.write_length hm).trans hlen
    · have hdec := op_eq_decode ho hip
      obtain ⟨-, hout⟩ := hdecode hdec
      refine Iff.mpr (inv_decode_scan_iff hb hp ho) ⟨⟨hwi, Memory.append_wf _ _ hwo _ _ hm, hwb⟩, hlen, hlt, hd,
        decScan_emit hwi hc hne hs hst hdec ?_⟩
      rw [Memory.append_length_at_end hm hout.symm, hout]
  · rcases accept_cases h with ⟨hip, hremi, rfl⟩ | ⟨hip, rfl⟩
    · obtain ⟨hremPos, -⟩ := hremBound (by simp [hst])
      have hi : s.i = s.n - 1 := by simpa [State.last] using hlast
      rw [source_of_inPlace hip] at hlen
      exact returnView_inv hwi hwo hwb hip (by omega)
    · exact returnOut_inv hwi hwo hwb (fun h => absurd h ho) hip
  · cases h
    exact raise_inv hwi hwo hwb k

/-- An escape pair keeps the invariant, for each of its two transitions does. -/
theorem consumePair_inv {s t : State} {v tr : Byte} (hinv : s.Inv) (hb : s.status = .busy) (hp : s.phase = .scan)
    (ho : s.op ≠ .encode) (hst : s.st = .normal) (hc : s.currentByte = some s.cfg.fesc)
    (hf : s.followingByte = some tr) (hv : tr = s.cfg.tfend ∧ v = s.cfg.fend ∨ tr = s.cfg.tfesc ∧ v = s.cfg.fesc)
    (h : s.consumePair v = .next t) : t.Inv := by
  have hd := distinct4_of_inv hinv hb (by simp [hp])
  rw [consumePair_eq hd hst hv] at h
  obtain ⟨u, hu, h⟩ := andThen_eq_next h
  have huinv := perform_fsmStep_inv hinv hb hp ho hc hu
  obtain rfl : { s with rem := s.rem + 1, st := .afterEscape, i := s.i + 1 } = u := by
    simpa [hst, fsmStep, State.perform, State.drop] using hu
  exact perform_fsmStep_inv huinv hb hp ho hf h

/-! ## The steps of an ENCODE call -/

/-- ENCODE's emission of `k` bytes for the payload byte at I keeps the invariant when `k` is the length of its
symbol. -/
theorem encode_emission_inv {s : State} {b : Byte} {m : Memory} {k : Nat} (hinv : s.Inv) (hb : s.status = .busy)
    (hp : s.phase = .scan) (ho : s.op = .encode) (hc : s.currentByte = some b) (hm : m.wf = true)
    (hk : m.length = s.olen + k) (hsym : k = (esc s.cfg b).length) :
    ({ s with out := m, olen := s.olen + k, i := s.i + 1 } : State).Inv := by
  obtain ⟨⟨hwi, -, hwb⟩, hlen, -, hd, hs⟩ := (inv_encode_scan_iff hb hp ho).1 hinv
  obtain ⟨hrem, -, holen⟩ := (encScan_iff s).1 hs
  have hread : s.inp.read s.i = some b := by
    rw [← source_of_not_inPlace (by simp [ho])]
    exact source_read_of_currentByte hc
  refine Iff.mpr (inv_encode_scan_iff hb hp ho) ⟨⟨hwi, hm, hwb⟩, hlen, currentByte_lt hc, hd,
    (encScan_iff _).2 ⟨hrem, hk, ?_⟩⟩
  obtain ⟨hne, -⟩ := (distinct4_iff s.cfg).1 hd
  have hsymbol := escAll_length s.cfg hne [b]
  simp only [escAll, List.append_nil, List.length_singleton, List.count_singleton, beq_iff_eq] at hsymbol
  simp only [count_take_succ hwi hread]
  omega

/-- A byte step of ENCODE keeps the invariant. -/
theorem encode_byte_inv {s t : State} {b : Byte} (hinv : s.Inv) (hb : s.status = .busy)
    (hp : s.phase = .scan) (ho : s.op = .encode) (hc : s.currentByte = some b)
    (h : (if b = s.cfg.fesc then s.emitPair s.cfg.tfesc
      else if b = s.cfg.fend then s.emitPair s.cfg.tfend else s.emitByte b) = .next t) : t.Inv := by
  obtain ⟨⟨-, hwo, -⟩, -, -, -, hs⟩ := (inv_encode_scan_iff hb hp ho).1 hinv
  obtain ⟨-, hout, -⟩ := (encScan_iff s).1 hs
  have hpair : ∀ v, s.emitPair v = .next t → 2 = (esc s.cfg b).length → t.Inv := by
    intro v hv hsym
    obtain ⟨m, m', hm, hm', rfl⟩ := emitPair_effect hv
    have hw' := Memory.append_wf _ _ (Memory.append_wf _ _ hwo _ _ hm) _ _ hm'
    refine encode_emission_inv hinv hb hp ho hc hw' ?_ hsym
    rw [Memory.append_length_at_end hm' (by rw [Memory.append_length_at_end hm hout.symm, hout]),
      Memory.append_length_at_end hm hout.symm, hout]
  by_cases he : b = s.cfg.fesc
  · rw [if_pos he] at h
    exact hpair _ h (by simp [esc, he])
  · by_cases hf : b = s.cfg.fend
    · rw [if_neg he, if_pos hf] at h
      exact hpair _ h (by simp [esc, if_neg he, if_pos hf])
    · rw [if_neg he, if_neg hf] at h
      obtain ⟨m, hm, rfl⟩ := emitByte_effect h
      exact encode_emission_inv hinv hb hp ho hc (Memory.append_wf _ _ hwo _ _ hm)
        (by rw [Memory.append_length_at_end hm hout.symm, hout]) (by simp [esc, he, hf])

/-- ENCODE's open step: the flag is the one byte of OUT. -/
theorem openFrame_inv {s t : State} (hinv : s.Inv) (hb : s.status = .busy) (hp : s.phase = .opening)
    (h : s.openFrame = .next t) : t.Inv := by
  obtain ⟨⟨hwi, hwo, hwb⟩, hlen, hstart, hop, hd⟩ := (inv_before_scan_iff hb (by simp [hp])).1 hinv
  obtain ⟨-, hi, hrem, holen, hout⟩ := (atStart_iff s).1 hstart
  have ho := hop hp
  obtain ⟨u, hu, h⟩ := andThen_eq_next h
  obtain ⟨m, hm, rfl⟩ := appendOut_cases hu
  cases h
  have hml := Memory.append_length_at_end hm (by simp [holen, hout])
  refine Iff.mpr (inv_encode_scan_iff hb rfl ho) ⟨⟨hwi, Memory.append_wf _ _ hwo _ _ hm, hwb⟩, ?_, ?_,
    hd (by simp [hp]), (encScan_iff _).2 ⟨hrem, ?_, ?_⟩⟩
  · rwa [source_of_not_inPlace (by simp [ho])] at hlen
  · simp [hi]
  · simp [hml, hout, holen]
  · simp [hi, holen]

/-- ENCODE's close step: the two flags are in the output. -/
theorem closeFrame_inv {s t : State} (hinv : s.Inv) (hb : s.status = .busy) (hp : s.phase = .scan)
    (ho : s.op = .encode) (h : s.closeFrame = .next t) : t.Inv := by
  obtain ⟨⟨hwi, hwo, hwb⟩, -, -, -, hs⟩ := (inv_encode_scan_iff hb hp ho).1 hinv
  obtain ⟨-, hout, holen⟩ := (encScan_iff s).1 hs
  obtain ⟨u, hu, h⟩ := andThen_eq_next h
  obtain ⟨m, hm, rfl⟩ := appendOut_cases hu
  cases h
  have hml := Memory.append_length_at_end hm hout.symm
  exact returnOut_inv hwi (Memory.append_wf _ _ hwo _ _ hm) hwb (fun _ => ⟨by simp; omega, by simp; omega⟩)
    (by simp [ho])

/-! ## The check, and the call as a whole -/

/-- A check that passes leaves the start-of-call values, which are those of the first byte of the scan. -/
theorem check_passed_inv {s : State} (hinv : s.Inv) (hb : s.status = .busy) (hp : s.phase = .check)
    (hd : distinct4 s.cfg = true) :
    ({ s with phase := if s.op = .encode then .opening else .scan } : State).Inv := by
  obtain ⟨hw, hlen, hstart, -, -⟩ := (inv_before_scan_iff hb (by simp [hp])).1 hinv
  obtain ⟨hst, hi, hrem, holen, hout⟩ := (atStart_iff s).1 hstart
  by_cases ho : s.op = .encode
  · exact Iff.mpr (inv_before_scan_iff hb (by simp [ho])) ⟨hw, hlen, hstart, fun _ => ho, fun _ => hd⟩
  · refine Iff.mpr (inv_decode_scan_iff hb (by simp [ho]) ho) ⟨hw, hlen, by simp [hi], hd, (decScan_iff _).2 ?_⟩
    simp [hst, hi, hrem, holen, hout]

theorem startCall_inv {s : State} (hinv : s.Inv) (op : Op) (cfg : SpecialChars) (data : List Byte) :
    (s.startCall op cfg data).Inv := by
  obtain ⟨hwi, -, hwb⟩ := wf_of_inv hinv
  refine Iff.mpr (inv_before_scan_iff rfl (by simp)) ⟨startCall_wf s op cfg data hwi hwb, ?_, ?_, by simp, by simp⟩
  · by_cases ho : op = .decodeInPlace <;> simp [State.source, ho]
  · simp [atStart_iff]

/-- The end of a DECODE_IN_PLACE call keeps the invariant: the view is shorter than the frame by its two flags. -/
theorem deliverView_inv {s : State} (hinv : s.Inv) (ho : s.op = .decodeInPlace) (r : CallResult)
    (hr : ∀ bs, r = .ok bs → bs.length + 2 ≤ s.buf.length) : (s.deliverView r).Inv := by
  obtain ⟨hwi, hwo, hwb⟩ := wf_of_inv hinv
  cases r with
  | err k => exact raise_inv hwi hwo hwb k
  | ok bs =>
    refine returnView_inv hwi hwo (by simp) ho ?_
    have := hr bs rfl
    simp [Memory.overwrite]
    omega

/-- A frame holds its two flags. -/
theorem encodeFn_length {c : SpecialChars} {p bs : List Byte} (h : encodeFn c p = .ok bs) : 2 ≤ bs.length := by
  simp only [encodeFn] at h
  split at h
  · cases h
    simp [frameOf]
  · cases h

theorem exec_call_inv {s t : State} {op : Op} {cfg : SpecialChars} {data : List Byte} (hinv : s.Inv)
    (h : exec (op.instr cfg data) s = .next t) : t.Inv := by
  have hstart := startCall_inv hinv op cfg data
  obtain ⟨hwi, hwo, hwb⟩ := wf_of_inv hstart
  cases op with
  | encode =>
    obtain ⟨-, -, rfl⟩ := exec_encode_cases h
    exact deliverOut_inv hwi hwo hwb (by simp) _ fun _ hok _ => encodeFn_length hok
  | decode =>
    obtain ⟨-, -, rfl⟩ := exec_decode_cases h
    exact deliverOut_inv hwi hwo hwb (by simp) _ fun _ _ hop => by simp at hop
  | decodeInPlace =>
    obtain ⟨-, -, rfl⟩ := exec_decodeInPlace_cases h
    exact deliverView_inv hstart rfl _ fun _ hok => by simpa using decodeFn_length hok

/-- A presented request is no part of the invariant. -/
theorem inv_withoutRequest {s : State} (h : s.Inv) : ({ s with req := none } : State).Inv := h

/-- Settles O38: by what the step finds; a running call by the cases of `step_busy_cases`, each with its own lemma. -/
theorem everyStepKeepsInvariant : Obligations.EveryStepKeepsInvariant := by
  intro s t hinv h
  obtain ⟨hwi, hwo, hwb⟩ := wf_of_inv hinv
  by_cases hb : s.status = .busy
  · rcases step_busy_cases hb (distinct4_of_inv hinv hb) h with
      ⟨hp, hd, rfl⟩ | ⟨-, -, rfl⟩ | ⟨hp, -, h⟩ | ⟨hp, ho, -, h⟩ | ⟨b, hp, ho, hc, h⟩ | ⟨b, hp, ho, hc, h⟩ |
      ⟨v, hp, ho, -, hst, hc, hf, h⟩ | ⟨-, -, -, rfl⟩
    · exact check_passed_inv hinv hb hp hd
    · exact raise_inv hwi hwo hwb _
    · exact openFrame_inv hinv hb hp h
    · exact closeFrame_inv hinv hb hp ho h
    · exact encode_byte_inv hinv hb hp ho hc h
    · exact perform_fsmStep_inv hinv hb hp ho hc h
    · rcases hf with ⟨hf, hv⟩ | ⟨hf, hv⟩
      · exact consumePair_inv hinv hb hp ho hst hc hf (.inl ⟨rfl, hv⟩) h
      · exact consumePair_inv hinv hb hp ho hst hc hf (.inr ⟨rfl, hv⟩) h
    · exact raise_inv hwi hwo hwb _
  · rcases step_not_busy_cases hb h with rfl | ⟨op, cfg, data, rfl | h⟩
    · exact hinv
    · exact startCall_inv (inv_withoutRequest hinv) op cfg data
    · exact exec_call_inv (inv_withoutRequest hinv) h

end Sys2Proof.Machine
end

section
/-! SUPPORT. The read index through the steps of a call (R22). -/

namespace Sys2Proof.Machine

/-- A transition of a decode call either moves I by one and leaves N and STATUS, or ends the call. -/
theorem perform_index {s t : State} {a : FsmAction} (h : s.perform a = .next t) :
    (t.i = s.i + 1 ∧ t.n = s.n) ∨ t.status ≠ .busy := by
  rcases perform_cases h with
    ⟨nx, -, rfl⟩ | ⟨v, nx, -, -, -, m, -, rfl⟩ | ⟨v, nx, -, -, m, -, rfl⟩ | ⟨-, -, -, rfl⟩ | ⟨-, -, rfl⟩ | ⟨k, -, rfl⟩
  · exact .inl ⟨rfl, rfl⟩
  · exact .inl ⟨rfl, rfl⟩
  · exact .inl ⟨rfl, rfl⟩
  · exact .inr (by simp)
  · exact .inr (by simp)
  · exact .inr (by simp)

/-- A byte step of ENCODE moves I by one, whichever symbol it emits. -/
theorem encode_byte_index {s t : State} {b : Byte}
    (h : (if b = s.cfg.fesc then s.emitPair s.cfg.tfesc
      else if b = s.cfg.fend then s.emitPair s.cfg.tfend else s.emitByte b) = .next t) :
    t.i = s.i + 1 ∧ t.n = s.n := by
  have hpair : ∀ v, s.emitPair v = .next t → t.i = s.i + 1 ∧ t.n = s.n := by
    intro v hv
    obtain ⟨m, m', -, -, rfl⟩ := emitPair_effect hv
    exact ⟨rfl, rfl⟩
  split at h
  · exact hpair _ h
  · split at h
    · exact hpair _ h
    · obtain ⟨m, -, rfl⟩ := emitByte_effect h
      exact ⟨rfl, rfl⟩

/-- ENCODE's close step ends the call. -/
theorem closeFrame_status {s t : State} (h : s.closeFrame = .next t) : t.status = .ok := by
  obtain ⟨u, -, h⟩ := andThen_eq_next h
  cases h
  rfl

/-- Settles O44: of the steps of the scan, those that go on read a byte, and each of them moves I by one. -/
theorem readIndexMovesByOne : Obligations.ReadIndexMovesByOne := by
  intro s t hinv hb hp hl h ht
  have hread : ∀ b, s.currentByte = some b → t.i = s.i + 1 ∧ t.n = s.n → t.i = s.i + 1 ∧ t.i ≤ t.n ∧ t.n = s.n := by
    rintro b hc ⟨hi, hn⟩
    have := currentByte_lt hc
    exact ⟨hi, by omega, hn⟩
  rcases step_busy_cases hb (distinct4_of_inv hinv hb) h with
    ⟨hp', -⟩ | ⟨hp', -⟩ | ⟨hp', -⟩ | ⟨-, -, -, h⟩ | ⟨b, -, -, hc, h⟩ | ⟨b, -, -, hc, h⟩ | ⟨v, -, -, hl', -⟩ |
    ⟨-, -, -, rfl⟩
  · simp [hp] at hp'
  · simp [hp] at hp'
  · simp [hp] at hp'
  · simp [closeFrame_status h] at ht
  · exact hread b hc (encode_byte_index h)
  · exact hread b hc ((perform_index h).resolve_right (by simp [ht]))
  · exact absurd hl' hl
  · simp at ht

end Sys2Proof.Machine
end

section
/-! SUPPORT. The registers that are free between calls (R39), power-on and the start of a call (R36, R37). -/

namespace Sys2Proof.Machine

/-- The state with other values in the registers that are free between calls (R39). -/
def State.withRegisters (s : State) (st : FsmState) (i n rem olen : Nat) : State :=
  { s with st := st, i := i, n := n, rem := rem, olen := olen }

/-- A start of a call loads every register that is free between calls. -/
theorem begin_withRegisters (s : State) (st : FsmState) (i n rem olen : Nat) (op : Op) (cfg : SpecialChars)
    (data : List Byte) : (s.withRegisters st i n rem olen).begin op cfg data = s.begin op cfg data := rfl

/-- A call runs from its start, and so reads none of them. -/
theorem exec_call_withRegisters (s : State) (st : FsmState) (i n rem olen : Nat) (op : Op) (cfg : SpecialChars)
    (data : List Byte) :
    exec (op.instr cfg data) (s.withRegisters st i n rem olen) = exec (op.instr cfg data) s := by
  cases op <;> simp only [Op.instr, exec, execEncode, execDecode, execDecodeInPlace, begin_withRegisters]

theorem step_withRegisters {s : State} (hb : s.status ≠ .busy) (hr : s.req ≠ none) (st : FsmState)
    (i n rem olen : Nat) : step (s.withRegisters st i n rem olen) = step s := by
  have hb' : (s.withRegisters st i n rem olen).status ≠ .busy := hb
  have hfetch : (s.withRegisters st i n rem olen).fetchRequest = s.fetchRequest := rfl
  have htake : ({ s.withRegisters st i n rem olen with req := none } : State) =
      ({ s with req := none } : State).withRegisters st i n rem olen := rfl
  rw [step, step, fetch_of_not_busy hb, fetch_of_not_busy hb', takeRequest_of_not_busy hb,
    takeRequest_of_not_busy hb', hfetch, htake]
  cases hf : s.fetchRequest with
  | idle => exact absurd hf (fetchRequest_ne_idle hr)
  | start op cfg data => exact begin_withRegisters ..
  | run j =>
    obtain ⟨op, cfg, data, rfl⟩ := fetchRequest_run hf
    exact exec_call_withRegisters ..
  | refuse r => rfl
  | stop f => rfl

/-- Settles O58: the response reads none of these registers, and the step that takes a request loads or ignores them. -/
theorem idleRegistersAreNotRead : Obligations.IdleRegistersAreNotRead :=
  fun _ st i n rem olen hb => ⟨rfl, fun hr => step_withRegisters hb hr st i n rem olen⟩

/-- Settles O1: power-on presents no request, so the step is idle. -/
theorem powerOnIsIdleWithoutResult : Obligations.PowerOnIsIdleWithoutResult :=
  ⟨rfl, rfl, rfl, rfl, rfl, rfl, rfl, rfl, step_idle rfl⟩

/-- Settles O2: the spaces are empty, and no call runs or has ended. -/
theorem resetMeetsInvariant : Obligations.ResetMeetsInvariant :=
  ⟨Memory.wf_nil, Memory.wf_nil, Memory.wf_nil, nofun, nofun⟩

/-- Settles O3: the step is `startCall`, which gives each register its value. -/
theorem startOfCallLoadsRegisters : Obligations.StartOfCallLoadsRegisters := by
  intro s op cfg data hb hl hr ha
  exact ⟨_, step_start_of_request hb hl hr ha, by simp⟩

end Sys2Proof.Machine
end

section
/-! SUPPORT. The packed configuration by its number (R26, D20). -/

namespace Sys2Proof.Machine

/-- An appended word is the number of its low part plus its high part, shifted. -/
theorem toNat_append_eq_add {v w : Nat} (x : BitVec v) (y : BitVec w) :
    (x ++ y).toNat = y.toNat + 2 ^ w * x.toNat := by
  rw [BitVec.toNat_append, ← Nat.shiftLeft_add_eq_or_of_lt y.isLt, Nat.shiftLeft_eq]
  ring

theorem pack_toNat (c : SpecialChars) :
    c.pack.toNat = c.fend.toNat + 2 ^ 8 * c.fesc.toNat + 2 ^ 16 * c.tfend.toNat + 2 ^ 24 * c.tfesc.toNat := by
  simp only [SpecialChars.pack, toNat_append_eq_add]
  ring

/-- The byte at bit `k` of a word is the digit of its number there. -/
theorem extractByte_eq_iff (w : BitVec 32) (k : Nat) (b : Byte) :
    w.extractLsb' k 8 = b ↔ w.toNat / 2 ^ k % 2 ^ 8 = b.toNat := by
  rw [← BitVec.toNat_inj, BitVec.extractLsb'_toNat, Nat.shiftRight_eq_div_pow]

theorem unpack_pack (c : SpecialChars) : SpecialChars.unpack c.pack = c := by
  have hpack := pack_toNat c
  have hfend := c.fend.isLt
  have hfesc := c.fesc.isLt
  have htfend := c.tfend.isLt
  have htfesc := c.tfesc.isLt
  have hbyte : SpecialChars.unpack c.pack = ⟨c.fend, c.fesc, c.tfend, c.tfesc⟩ := by
    simp only [SpecialChars.unpack, SpecialChars.mk.injEq, extractByte_eq_iff, hpack]
    omega
  exact hbyte

/-- Settles O13: each byte is a digit of the word's number to the base 2 ^ 8. -/
theorem packedConfigurationGivesBackItsBytes : Obligations.PackedConfigurationGivesBackItsBytes :=
  fun c => ⟨unpack_pack c, pack_toNat c⟩

end Sys2Proof.Machine
end

section
/-! SUPPORT. What every step of a call leaves as it is (R29, R51, R53, R65), said once for each shared operation and
once for every instruction. No invariant is needed, nor a valid configuration. -/

namespace Sys2Proof.Machine

/-- What a step of a call from `s` to `t` keeps: IN, what was fixed before it, the presented request and the
length of BUF; all of BUF, unless the call works in place. -/
structure State.KeepsOperands (s t : State) : Prop where
  inp : t.inp = s.inp
  cfg : t.cfg = s.cfg
  op : t.op = s.op
  params : t.params = s.params
  level : t.level = s.level
  req : t.req = s.req
  bufLength : t.buf.length = s.buf.length
  buf : s.op ≠ .decodeInPlace → t.buf = s.buf

theorem State.KeepsOperands.refl (s : State) : s.KeepsOperands s :=
  ⟨rfl, rfl, rfl, rfl, rfl, rfl, rfl, fun _ => rfl⟩

theorem State.KeepsOperands.trans {s t u : State} (h : s.KeepsOperands t) (h' : t.KeepsOperands u) :
    s.KeepsOperands u where
  inp := h'.inp.trans h.inp
  cfg := h'.cfg.trans h.cfg
  op := h'.op.trans h.op
  params := h'.params.trans h.params
  level := h'.level.trans h.level
  req := h'.req.trans h.req
  bufLength := h'.bufLength.trans h.bufLength
  buf := fun ho => (h'.buf (by rwa [h.op])).trans (h.buf ho)

/-! ## The shared operations -/

theorem appendOut_keepsOperands {s t : State} {v : Byte} (h : s.appendOut v = .next t) : s.KeepsOperands t := by
  obtain ⟨m, -, rfl⟩ := appendOut_cases h
  exact ⟨rfl, rfl, rfl, rfl, rfl, rfl, rfl, fun _ => rfl⟩

theorem advance_keepsOperands (s : State) : s.KeepsOperands s.advance :=
  ⟨rfl, rfl, rfl, rfl, rfl, rfl, rfl, fun _ => rfl⟩

theorem returnOut_keepsOperands (s : State) : s.KeepsOperands s.returnOut :=
  ⟨rfl, rfl, rfl, rfl, rfl, rfl, rfl, fun _ => rfl⟩

/-- An error leaves BUF open in place only, and never its length (R199, R53). -/
theorem raise_keepsOperands (s : State) (k : ErrKind) : s.KeepsOperands (s.raise k) := by
  refine ⟨rfl, rfl, rfl, rfl, rfl, rfl, ?_, fun ho => ?_⟩
  · simp only [State.raise_buf, State.bufAfter]
    split
    · rfl
    · simp
  · simp [State.bufAfter, ho]

theorem drop_keepsOperands {s t : State} {next : FsmState} (h : s.drop next = .next t) : s.KeepsOperands t := by
  cases h
  exact ⟨rfl, rfl, rfl, rfl, rfl, rfl, rfl, fun _ => rfl⟩

/-- `Emit(v)` writes BUF in place only, and a write keeps the length. -/
theorem emit_keepsOperands {s t : State} {v : Byte} {next : FsmState} (h : s.emit v next = .next t) :
    s.KeepsOperands t := by
  rcases emit_effect h with ⟨hip, -, m, hm, rfl⟩ | ⟨-, m, -, rfl⟩
  · exact ⟨rfl, rfl, rfl, rfl, rfl, rfl, Memory.write_length hm, fun ho => absurd hip ho⟩
  · exact ⟨rfl, rfl, rfl, rfl, rfl, rfl, rfl, fun _ => rfl⟩

/-- `Accept` leaves BUF open from END on in place only, and never its length (R198, R53). -/
theorem accept_keepsOperands {s t : State} (h : s.accept = .next t) : s.KeepsOperands t := by
  rcases accept_cases h with ⟨hip, -, rfl⟩ | ⟨-, rfl⟩
  · exact ⟨rfl, rfl, rfl, rfl, rfl, rfl, by simp, fun ho => absurd hip ho⟩
  · exact returnOut_keepsOperands s

theorem fail_keepsOperands {s t : State} {k : ErrKind} (h : s.fail k = .next t) : s.KeepsOperands t := by
  cases h
  exact raise_keepsOperands s k

theorem consumePair_keepsOperands {s t : State} {v : Byte} (h : s.consumePair v = .next t) : s.KeepsOperands t := by
  obtain ⟨u, hu, ht⟩ := andThen_eq_next h
  exact (drop_keepsOperands hu).trans (emit_keepsOperands ht)

theorem emitByte_keepsOperands {s t : State} {v : Byte} (h : s.emitByte v = .next t) : s.KeepsOperands t := by
  obtain ⟨u, hu, ht⟩ := andThen_eq_next h
  cases ht
  exact (appendOut_keepsOperands hu).trans (advance_keepsOperands u)

theorem emitPair_keepsOperands {s t : State} {v : Byte} (h : s.emitPair v = .next t) : s.KeepsOperands t := by
  obtain ⟨u, hu, h⟩ := andThen_eq_next h
  exact (appendOut_keepsOperands hu).trans (emitByte_keepsOperands h)

theorem openFrame_keepsOperands {s t : State} (h : s.openFrame = .next t) : s.KeepsOperands t := by
  obtain ⟨u, hu, ht⟩ := andThen_eq_next h
  cases ht
  exact (appendOut_keepsOperands hu).trans ⟨rfl, rfl, rfl, rfl, rfl, rfl, rfl, fun _ => rfl⟩

theorem closeFrame_keepsOperands {s t : State} (h : s.closeFrame = .next t) : s.KeepsOperands t := by
  obtain ⟨u, hu, ht⟩ := andThen_eq_next h
  cases ht
  exact (appendOut_keepsOperands hu).trans (returnOut_keepsOperands u)

/-! ## The instructions -/

theorem execCheckConfig_keepsOperands {s t : State} (h : execCheckConfig s = .next t) : s.KeepsOperands t := by
  obtain ⟨-, h⟩ := whenSelected_eq_next h
  split at h
  · cases h
    exact ⟨rfl, rfl, rfl, rfl, rfl, rfl, rfl, fun _ => rfl⟩
  · cases h
    exact raise_keepsOperands s _

/-- Of two meanings of a wire symbol the second runs only where its row is selected (log 14). -/
theorem symbol_keepsOperands {s t : State} {first second : Bool} {r r' : Result}
    (h : (if first then r else whenSelected second r') = .next t) (hr : r = .next t → s.KeepsOperands t)
    (hr' : r' = .next t → s.KeepsOperands t) : s.KeepsOperands t := by
  split at h
  · exact hr h
  · exact hr' (whenSelected_eq_next h).2

theorem execFlag_keepsOperands {s t : State} (h : execFlag s = .next t) : s.KeepsOperands t := by
  simp only [execFlag] at h
  split at h
  · exact openFrame_keepsOperands h
  · split at h
    · exact closeFrame_keepsOperands h
    · exact symbol_keepsOperands h drop_keepsOperands accept_keepsOperands

/-- During a call every instruction keeps the operands: the three calls are refused (R260), and each row is one of the
shared operations. -/
theorem exec_keepsOperands {s t : State} {i : Instr} (hb : s.status = .busy) (h : exec i s = .next t) :
    s.KeepsOperands t := by
  cases i with
  | encode cfg data => exact absurd hb (exec_encode_cases h).1
  | decode cfg data => exact absurd hb (exec_decode_cases h).1
  | decodeInPlace cfg data => exact absurd hb (exec_decodeInPlace_cases h).1
  | checkConfig => exact execCheckConfig_keepsOperands h
  | encFesc => exact emitPair_keepsOperands (whenSelected_eq_next h).2
  | encFend => exact emitPair_keepsOperands (whenSelected_eq_next h).2
  | encLit b => exact emitByte_keepsOperands (whenSelected_eq_next h).2
  | decOpen => exact drop_keepsOperands (whenSelected_eq_next h).2
  | decNoopen b => exact fail_keepsOperands (whenSelected_eq_next h).2
  | decEsc => exact drop_keepsOperands (whenSelected_eq_next h).2
  | decClose => exact accept_keepsOperands (whenSelected_eq_next h).2
  | decStray => exact fail_keepsOperands (whenSelected_eq_next h).2
  | decLit b => exact emit_keepsOperands (whenSelected_eq_next h).2
  | decTfend => exact emit_keepsOperands (whenSelected_eq_next h).2
  | decTfesc => exact emit_keepsOperands (whenSelected_eq_next h).2
  | decBadtrade b => exact fail_keepsOperands (whenSelected_eq_next h).2
  | decEofE => exact fail_keepsOperands (whenSelected_eq_next h).2
  | decEofN => exact fail_keepsOperands (whenSelected_eq_next h).2
  | decEofA => exact fail_keepsOperands (whenSelected_eq_next h).2
  | flag => exact execFlag_keepsOperands h
  | escFend => exact symbol_keepsOperands h emitPair_keepsOperands consumePair_keepsOperands
  | escFesc => exact symbol_keepsOperands h emitPair_keepsOperands consumePair_keepsOperands
  | lit b => exact symbol_keepsOperands h emitByte_keepsOperands emit_keepsOperands

theorem step_keepsOperands {s t : State} (hb : s.status = .busy) (h : step s = .next t) : s.KeepsOperands t := by
  rw [step, takeRequest_busy hb] at h
  cases hf : s.fetch with
  | idle =>
    rw [hf] at h
    cases h
    exact .refl s
  | start op cfg data =>
    rw [hf] at h
    exact absurd hb (begin_cases h).1
  | run i =>
    rw [hf] at h
    exact exec_keepsOperands hb h
  | refuse r => rw [hf] at h; cases h
  | stop f => rw [hf] at h; cases h

/-- Settles O41: the step keeps IN and, out of place, BUF as whole spaces, so every byte of them. -/
theorem callKeepsInCfgOperationAndBufLength : Obligations.CallKeepsInCfgOperationAndBufLength := by
  intro s t hb h
  have hk := step_keepsOperands hb h
  exact ⟨fun a => by rw [hk.inp], hk.cfg, hk.op, hk.params, hk.level, hk.req, hk.bufLength,
    fun ho a => by rw [hk.buf ho]⟩

end Sys2Proof.Machine
end

section
/-! SUPPORT. OUT through the steps of a call that go on: it grows at its end, and OLEN with it (R52). -/

namespace Sys2Proof.Machine

/-- While a call runs, OLEN is the length of OUT. -/
theorem out_length_of_inv {s : State} (hinv : s.Inv) (hb : s.status = .busy) : s.out.length = s.olen := by
  by_cases hp : s.phase = .scan
  · by_cases ho : s.op = .encode
    · obtain ⟨-, -, -, -, hs⟩ := (inv_encode_scan_iff hb hp ho).1 hinv
      obtain ⟨-, hout, -⟩ := (encScan_iff s).1 hs
      exact hout
    · obtain ⟨-, -, -, -, hs⟩ := (inv_decode_scan_iff hb hp ho).1 hinv
      obtain ⟨-, -, -, hdecode, hinPlace, -, -⟩ := (decScan_iff s).1 hs
      by_cases hip : s.op = .decodeInPlace
      · obtain ⟨holen, hout⟩ := hinPlace hip
        simp [holen, hout]
      · exact (hdecode (op_eq_decode ho hip)).2
  · obtain ⟨-, -, hstart, -, -⟩ := (inv_before_scan_iff hb hp).1 hinv
    obtain ⟨-, -, -, holen, hout⟩ := (atStart_iff s).1 hstart
    simp [holen, hout]

/-- From `s` to `t` OUT grows at its end, by at most two bytes, and OLEN by their number. -/
def State.OutGrows (s t : State) : Prop :=
  ∃ bs, t.out.bytes = s.out.bytes ++ bs ∧ bs.length ≤ 2 ∧ t.olen = s.olen + bs.length

theorem outGrows_of_out_eq {s t : State} (hout : t.out = s.out) (holen : t.olen = s.olen) : s.OutGrows t :=
  ⟨[], by simp [hout], by simp, by simp [holen]⟩

/-- One append at OLEN, with OLEN at the end of OUT. -/
theorem outGrows_of_append {s t : State} {v : Byte} (hl : s.out.length = s.olen)
    (hout : s.out.append s.olen v = some t.out) (holen : t.olen = s.olen + 1) : s.OutGrows t :=
  ⟨[v], Memory.append_bytes (by rwa [hl]), by simp, holen⟩

/-- Two appends at OLEN and OLEN + 1, with OLEN at the end of OUT. -/
theorem outGrows_of_append_append {s t : State} {v w : Byte} {m : Memory} (hl : s.out.length = s.olen)
    (hm : s.out.append s.olen v = some m) (hout : m.append (s.olen + 1) w = some t.out)
    (holen : t.olen = s.olen + 2) : s.OutGrows t := by
  have hml : m.length = s.olen + 1 := by rw [Memory.append_length_at_end hm hl.symm, hl]
  refine ⟨[v, w], ?_, by simp, holen⟩
  calc t.out.bytes = m.bytes ++ [w] := Memory.append_bytes (by rwa [hml])
    _ = s.out.bytes ++ [v] ++ [w] := by rw [Memory.append_bytes (by rwa [hl])]
    _ = s.out.bytes ++ [v, w] := by simp

theorem openFrame_outGrows {s t : State} (hl : s.out.length = s.olen) (h : s.openFrame = .next t) :
    s.OutGrows t := by
  obtain ⟨u, hu, ht⟩ := andThen_eq_next h
  obtain ⟨m, hm, rfl⟩ := appendOut_cases hu
  cases ht
  exact outGrows_of_append hl hm rfl

theorem encode_byte_outGrows {s t : State} {b : Byte} (hl : s.out.length = s.olen)
    (h : (if b = s.cfg.fesc then s.emitPair s.cfg.tfesc
      else if b = s.cfg.fend then s.emitPair s.cfg.tfend else s.emitByte b) = .next t) : s.OutGrows t := by
  have hpair : ∀ v, s.emitPair v = .next t → s.OutGrows t := by
    intro v hv
    obtain ⟨m, m', hm, hm', rfl⟩ := emitPair_effect hv
    exact outGrows_of_append_append hl hm hm' rfl
  split at h
  · exact hpair _ h
  · split at h
    · exact hpair _ h
    · obtain ⟨m, hm, rfl⟩ := emitByte_effect h
      exact outGrows_of_append hl hm rfl

/-- A transition of a decode call appends a byte to OUT, leaves OUT, or ends the call. -/
theorem perform_outGrows {s t : State} {a : FsmAction} (hl : s.out.length = s.olen) (h : s.perform a = .next t)
    (ht : t.status = .busy) : s.OutGrows t := by
  rcases perform_cases h with
    ⟨nx, -, rfl⟩ | ⟨v, nx, -, -, -, m, -, rfl⟩ | ⟨v, nx, -, -, m, hm, rfl⟩ | ⟨-, -, -, rfl⟩ | ⟨-, -, rfl⟩ | ⟨k, -, rfl⟩
  · exact outGrows_of_out_eq rfl rfl
  · exact outGrows_of_out_eq rfl rfl
  · exact outGrows_of_append hl hm rfl
  · simp at ht
  · simp at ht
  · simp at ht

theorem consumePair_outGrows {s t : State} {v : Byte} (hl : s.out.length = s.olen) (h : s.consumePair v = .next t) :
    s.OutGrows t := by
  rcases consumePair_cases h with ⟨-, -, m, -, rfl⟩ | ⟨-, m, hm, rfl⟩
  · exact outGrows_of_out_eq rfl rfl
  · exact outGrows_of_append hl hm rfl

/-- Settles O43: OLEN is the length of OUT, so that each append is one at its end; the steps that end the call are
none of these. -/
theorem outputOnlyGrowsAtItsEnd : Obligations.OutputOnlyGrowsAtItsEnd := by
  intro s t hinv hb h ht
  have hl := out_length_of_inv hinv hb
  rcases step_busy_cases hb (distinct4_of_inv hinv hb) h with
    ⟨-, -, rfl⟩ | ⟨-, -, rfl⟩ | ⟨-, -, h⟩ | ⟨-, -, -, h⟩ | ⟨b, -, -, -, h⟩ | ⟨b, -, -, -, h⟩ |
    ⟨v, -, -, -, -, -, -, h⟩ | ⟨-, -, -, rfl⟩
  · exact outGrows_of_out_eq rfl rfl
  · simp at ht
  · exact openFrame_outGrows hl h
  · simp [closeFrame_status h] at ht
  · exact encode_byte_outGrows hl h
  · exact perform_outGrows hl h ht
  · exact consumePair_outGrows hl h
  · simp at ht

end Sys2Proof.Machine
end

section
/-! SUPPORT. The rows of the decoder table by the byte they are read from, the operation a request's code selects, and
that encoding and decoding undo each other (R82, R85, R87, R89, R94). -/

namespace Sys2Proof.Machine

/-! ## The row of a byte, case by case (R87, R89) -/

theorem encRow_fesc (c : SpecialChars) : encRow c c.fesc = .encFesc := by
  simp [encRow]

theorem encRow_fend {c : SpecialChars} (h : c.fend ≠ c.fesc) : encRow c c.fend = .encFend := by
  simp [encRow, h]

theorem encRow_lit {c : SpecialChars} {b : Byte} (he : b ≠ c.fesc) (hf : b ≠ c.fend) : encRow c b = .encLit b := by
  simp [encRow, he, hf]

theorem decRow_open (c : SpecialChars) (last : Bool) : decRow c .expectOpeningFend last c.fend = .decOpen := by
  simp [decRow]

theorem decRow_noopen {c : SpecialChars} {b : Byte} (last : Bool) (h : b ≠ c.fend) :
    decRow c .expectOpeningFend last b = .decNoopen b := by
  simp [decRow, h]

theorem decRow_esc (c : SpecialChars) (last : Bool) : decRow c .normal last c.fesc = .decEsc := by
  simp [decRow]

theorem decRow_close {c : SpecialChars} (h : c.fend ≠ c.fesc) : decRow c .normal true c.fend = .decClose := by
  simp [decRow, h]

theorem decRow_stray {c : SpecialChars} (h : c.fend ≠ c.fesc) : decRow c .normal false c.fend = .decStray := by
  simp [decRow, h]

theorem decRow_lit {c : SpecialChars} {b : Byte} (last : Bool) (he : b ≠ c.fesc) (hf : b ≠ c.fend) :
    decRow c .normal last b = .decLit b := by
  simp [decRow, he, hf]

theorem decRow_tfend (c : SpecialChars) (last : Bool) : decRow c .afterEscape last c.tfend = .decTfend := by
  simp [decRow]

theorem decRow_tfesc {c : SpecialChars} (last : Bool) (h : c.tfesc ≠ c.tfend) :
    decRow c .afterEscape last c.tfesc = .decTfesc := by
  simp [decRow, h]

theorem decRow_badtrade {c : SpecialChars} {b : Byte} (last : Bool) (hd : b ≠ c.tfend) (hs : b ≠ c.tfesc) :
    decRow c .afterEscape last b = .decBadtrade b := by
  simp [decRow, hd, hs]

/-! ## The wire symbol at the front, case by case (R85) -/

theorem decodeSymbol_flag (c : SpecialChars) (rest : List Byte) :
    decodeSymbol c (c.fend :: rest) = .ok (.flag, rest) := by
  simp [decodeSymbol]

theorem decodeSymbol_escFend {c : SpecialChars} (h : c.fesc ≠ c.fend) (rest : List Byte) :
    decodeSymbol c (c.fesc :: c.tfend :: rest) = .ok (.escFend, rest) := by
  simp [decodeSymbol, h]

theorem decodeSymbol_escFesc {c : SpecialChars} (h : c.fesc ≠ c.fend) (ht : c.tfesc ≠ c.tfend) (rest : List Byte) :
    decodeSymbol c (c.fesc :: c.tfesc :: rest) = .ok (.escFesc, rest) := by
  simp [decodeSymbol, h, ht]

theorem decodeSymbol_lit {c : SpecialChars} {b : Byte} (hf : b ≠ c.fend) (he : b ≠ c.fesc) (rest : List Byte) :
    decodeSymbol c (b :: rest) = .ok (.lit b, rest) := by
  simp [decodeSymbol, hf, he]

/-! ## Requests (R81, R82) -/

/-- An operation is selected by its own code alone (R82). -/
theorem decodeOp_eq_some_iff {code : BitVec 2} {op : Op} : decodeOp code = some op ↔ code = op.code := by
  constructor
  · intro h
    simp only [decodeOp] at h
    split at h
    · cases h; assumption
    · split at h
      · cases h; assumption
      · split at h
        · cases h; assumption
        · cases h
  · rintro rfl
    exact decodeOp_code op

theorem encode_instr (c : SpecialChars) (op : Op) (cfg : SpecialChars) (data : List Byte) :
    encode c (op.instr cfg data) = encodeRequest op cfg data := by
  cases op <;> rfl

theorem instr_wellFormed (c : SpecialChars) (op : Op) (cfg : SpecialChars) (data : List Byte) :
    (op.instr cfg data).WellFormed c = true := by
  cases op <;> rfl

theorem decode_encodeRequest (op : Op) (cfg : SpecialChars) (data : List Byte) :
    decode .request (encodeRequest op cfg data) = .ok (op.instr cfg data, []) := by
  cases op <;> rfl

/-- The OP byte is the code of the operation it selects. -/
theorem opByte_of_decodeOp {o : Byte} {op : Op} (ho : o.toNat < 4) (h : decodeOp (BitVec.ofNat 2 o.toNat) = some op) :
    BitVec.ofNat 8 op.code.toNat = o := by
  rw [← decodeOp_eq_some_iff.1 h, BitVec.toNat_ofNat, Nat.mod_eq_of_lt (by simpa using ho), BitVec.ofNat_toNat,
    BitVec.setWidth_eq]

theorem decodeRequestBytes_eq_ok {bs rest : List Byte} {i : Instr} (h : decodeRequestBytes bs = .ok (i, rest)) :
    ∃ op cfg data, i = Op.instr op cfg data ∧ rest = [] ∧ bs = encodeRequest op cfg data := by
  simp only [decodeRequestBytes] at h
  split at h
  · split at h
    · rename_i ho
      split at h
      · rename_i op hop
        cases h
        exact ⟨op, _, _, rfl, rfl, by rw [encodeRequest, opByte_of_decodeOp ho hop]⟩
      · cases h
    · cases h
  · cases h

/-! ## Decoding undoes encoding -/

theorem decode_encSym {c : SpecialChars} {b : Byte} {i : Instr} (h : encRow c b = i) (rest : List Byte) :
    decode (.encSym c) (b :: rest) = .ok (i, rest) := by
  rw [← h]; rfl

theorem decode_decSym {c : SpecialChars} {st : FsmState} {last : Bool} {b : Byte} {i : Instr}
    (h : decRow c st last b = i) (rest : List Byte) : decode (.decSym c st last) (b :: rest) = .ok (i, rest) := by
  rw [← h]; rfl

/-- A request or an end-of-input row ends its byte string. -/
theorem decode_encode_append_of_no_rest {ctx : Context} {bs rest : List Byte} {i : Instr} (hrest : rest = [])
    (h : decode ctx bs = .ok (i, [])) : decode ctx (bs ++ rest) = .ok (i, rest) := by
  rw [hrest, List.append_nil, h]

/-- Settles O11: each row is read back from its own byte, which under a valid configuration no earlier row takes. -/
theorem decodeUndoesEncode : Obligations.DecodeUndoesEncode := by
  intro c i rest hd hw hrest
  obtain ⟨hfendFesc, -, -, -, -, htrade⟩ := (distinct4_iff c).1 hd
  cases i with
  | encode cfg data =>
    exact decode_encode_append_of_no_rest (hrest (.inl rfl)) (decode_encodeRequest .encode cfg data)
  | decode cfg data =>
    exact decode_encode_append_of_no_rest (hrest (.inl rfl)) (decode_encodeRequest .decode cfg data)
  | decodeInPlace cfg data =>
    exact decode_encode_append_of_no_rest (hrest (.inl rfl)) (decode_encodeRequest .decodeInPlace cfg data)
  | checkConfig => rfl
  | encFesc => exact decode_encSym (encRow_fesc c) rest
  | encFend => exact decode_encSym (encRow_fend hfendFesc) rest
  | encLit b =>
    obtain ⟨he, hf⟩ : b ≠ c.fesc ∧ b ≠ c.fend := by simpa [Instr.WellFormed] using hw
    exact decode_encSym (encRow_lit he hf) rest
  | decOpen => exact decode_decSym (decRow_open c false) rest
  | decNoopen b =>
    have hf : b ≠ c.fend := by simpa [Instr.WellFormed] using hw
    exact decode_decSym (decRow_noopen false hf) rest
  | decEsc => exact decode_decSym (decRow_esc c false) rest
  | decClose => exact decode_decSym (decRow_close hfendFesc) rest
  | decStray => exact decode_decSym (decRow_stray hfendFesc) rest
  | decLit b =>
    obtain ⟨he, hf⟩ : b ≠ c.fesc ∧ b ≠ c.fend := by simpa [Instr.WellFormed] using hw
    exact decode_decSym (decRow_lit false he hf) rest
  | decTfend => exact decode_decSym (decRow_tfend c false) rest
  | decTfesc => exact decode_decSym (decRow_tfesc false htrade.symm) rest
  | decBadtrade b =>
    obtain ⟨htfend, htfesc⟩ : b ≠ c.tfend ∧ b ≠ c.tfesc := by simpa [Instr.WellFormed] using hw
    exact decode_decSym (decRow_badtrade false htfend htfesc) rest
  | decEofE => exact decode_encode_append_of_no_rest (hrest (.inr ⟨_, rfl⟩)) rfl
  | decEofN => exact decode_encode_append_of_no_rest (hrest (.inr ⟨_, rfl⟩)) rfl
  | decEofA => exact decode_encode_append_of_no_rest (hrest (.inr ⟨_, rfl⟩)) rfl
  | flag => exact decodeSymbol_flag c rest
  | escFend => exact decodeSymbol_escFend hfendFesc.symm rest
  | escFesc => exact decodeSymbol_escFesc hfendFesc.symm htrade.symm rest
  | lit b =>
    obtain ⟨hf, he⟩ : b ≠ c.fend ∧ b ≠ c.fesc := by simpa [Instr.WellFormed] using hw
    exact decodeSymbol_lit hf he rest

/-! ## Encoding undoes decoding -/

theorem encode_encRow (c : SpecialChars) (b : Byte) :
    encode c (encRow c b) = [b] ∧ (encRow c b).WellFormed c = true := by
  by_cases he : b = c.fesc
  · simp [he, encRow_fesc, encode, Instr.WellFormed]
  · by_cases hf : b = c.fend
    · subst hf
      simp [encRow_fend he, encode, Instr.WellFormed]
    · simp [encRow_lit he hf, encode, Instr.WellFormed, he, hf]

theorem encode_decRow (c : SpecialChars) (st : FsmState) (last : Bool) (b : Byte) :
    encode c (decRow c st last b) = [b] ∧ (decRow c st last b).WellFormed c = true := by
  cases st with
  | expectOpeningFend =>
    by_cases hf : b = c.fend
    · simp [hf, decRow_open, encode, Instr.WellFormed]
    · simp [decRow_noopen last hf, encode, Instr.WellFormed, hf]
  | normal =>
    by_cases he : b = c.fesc
    · simp [he, decRow_esc, encode, Instr.WellFormed]
    · by_cases hf : b = c.fend
      · subst hf
        cases last <;> simp [decRow_close he, decRow_stray he, encode, Instr.WellFormed]
      · simp [decRow_lit last he hf, encode, Instr.WellFormed, he, hf]
  | afterEscape =>
    by_cases hd : b = c.tfend
    · simp [hd, decRow_tfend, encode, Instr.WellFormed]
    · by_cases hs : b = c.tfesc
      · subst hs
        simp [decRow_tfesc last hd, encode, Instr.WellFormed]
      · simp [decRow_badtrade last hd hs, encode, Instr.WellFormed, hd, hs]

theorem encode_eofRow (c : SpecialChars) (st : FsmState) :
    encode c (eofRow st) = [] ∧ (eofRow st).WellFormed c = true := by
  cases st <;> exact ⟨rfl, rfl⟩

theorem encode_decodeSymbol {c : SpecialChars} {bs rest : List Byte} {i : Instr}
    (h : decodeSymbol c bs = .ok (i, rest)) : encode c i ++ rest = bs ∧ i.WellFormed c = true := by
  cases bs with
  | nil => cases h
  | cons b bs =>
    by_cases hf : b = c.fend
    · simp only [decodeSymbol, if_pos hf] at h
      cases h
      exact ⟨by rw [hf]; rfl, rfl⟩
    · by_cases he : b = c.fesc
      · cases bs with
        | nil =>
          simp only [decodeSymbol, if_neg hf, if_pos he] at h
          cases h
        | cons t bs =>
          simp only [decodeSymbol, if_neg hf, if_pos he] at h
          split at h
          · next htfend =>
            cases h
            exact ⟨by rw [he, htfend]; rfl, rfl⟩
          · split at h
            · next htfesc =>
              cases h
              exact ⟨by rw [he, htfesc]; rfl, rfl⟩
            · cases h
      · simp only [decodeSymbol, if_neg hf, if_neg he] at h
        cases h
        simp [encode, Instr.WellFormed, hf, he]

/-- Settles O12: by the context, in which the row answered encodes to the bytes it was read from. -/
theorem encodeUndoesDecode : Obligations.EncodeUndoesDecode := by
  intro ctx c bs rest i hctx h
  cases ctx with
  | request =>
    obtain ⟨op, cfg, data, rfl, rfl, rfl⟩ := decodeRequestBytes_eq_ok h
    exact ⟨by rw [encode_instr, List.append_nil], instr_wellFormed c op cfg data⟩
  | check => cases h; exact ⟨rfl, rfl⟩
  | encSym c' =>
    obtain rfl : c' = c := by simpa [Context.under] using hctx
    cases bs with
    | nil => cases h
    | cons b bs =>
      cases h
      obtain ⟨hbytes, hw⟩ := encode_encRow c' b
      exact ⟨by rw [hbytes]; rfl, hw⟩
  | decSym c' st last =>
    obtain rfl : c' = c := by simpa [Context.under] using hctx
    cases bs with
    | nil => cases h
    | cons b bs =>
      cases h
      obtain ⟨hbytes, hw⟩ := encode_decRow c' st last b
      exact ⟨by rw [hbytes]; rfl, hw⟩
  | decEof st =>
    cases bs with
    | nil =>
      cases h
      obtain ⟨hbytes, hw⟩ := encode_eofRow c st
      exact ⟨by rw [hbytes]; rfl, hw⟩
    | cons b bs => cases h
  | frame c' =>
    obtain rfl : c' = c := by simpa [Context.under] using hctx
    exact encode_decodeSymbol h

/-- Settles O10: the eight words are closed, and the decoder computes them. -/
theorem specWordsDecode : Obligations.SpecWordsDecode := by
  unfold Obligations.SpecWordsDecode
  decide

/-! ## Exclusive rows (R90) -/

/-- A selected row is the row of the byte at I. -/
theorem eq_decRow_of_decReads {s : State} {st : FsmState} {b : Byte} {i : Instr} (hr : s.decReads st b = true)
    (hrow : decRow s.cfg st s.last b = i) : ∃ b, s.currentByte = some b ∧ i = decRow s.cfg s.st s.last b := by
  obtain ⟨-, -, -, rfl, hc⟩ := (decReads_iff s st b).1 hr
  exact ⟨b, hc, hrow.symm⟩

/-- A byte row of the decoder that has an effect is the one the decoder reads from the byte at I. -/
theorem eq_decRow_of_exec {s t : State} {i : Instr} (hd : distinct4 s.cfg = true) (h : exec i s = .next t)
    (hctx : ∃ st last, i.context s.cfg = .decSym s.cfg st last) :
    ∃ b, s.currentByte = some b ∧ i = decRow s.cfg s.st s.last b := by
  obtain ⟨hfendFesc, -, -, -, -, htrade⟩ := (distinct4_iff s.cfg).1 hd
  obtain ⟨st, last, hctx⟩ := hctx
  cases i with
  | decOpen => exact eq_decRow_of_decReads (whenSelected_eq_next h).1 (decRow_open s.cfg s.last)
  | decNoopen b =>
    obtain ⟨hr, hf⟩ : s.decReads .expectOpeningFend b = true ∧ b ≠ s.cfg.fend := by
      simpa using (whenSelected_eq_next h).1
    exact eq_decRow_of_decReads hr (decRow_noopen s.last hf)
  | decEsc => exact eq_decRow_of_decReads (whenSelected_eq_next h).1 (decRow_esc s.cfg s.last)
  | decClose =>
    obtain ⟨hr, hlast⟩ : s.decReads .normal s.cfg.fend = true ∧ s.last = true := by
      simpa using (whenSelected_eq_next h).1
    exact eq_decRow_of_decReads hr (by rw [hlast, decRow_close hfendFesc])
  | decStray =>
    obtain ⟨hr, hlast⟩ : s.decReads .normal s.cfg.fend = true ∧ s.last = false := by
      simpa using (whenSelected_eq_next h).1
    exact eq_decRow_of_decReads hr (by rw [hlast, decRow_stray hfendFesc])
  | decLit b =>
    obtain ⟨⟨hr, he⟩, hf⟩ : (s.decReads .normal b = true ∧ b ≠ s.cfg.fesc) ∧ b ≠ s.cfg.fend := by
      simpa using (whenSelected_eq_next h).1
    exact eq_decRow_of_decReads hr (decRow_lit s.last he hf)
  | decTfend => exact eq_decRow_of_decReads (whenSelected_eq_next h).1 (decRow_tfend s.cfg s.last)
  | decTfesc => exact eq_decRow_of_decReads (whenSelected_eq_next h).1 (decRow_tfesc s.last htrade.symm)
  | decBadtrade b =>
    obtain ⟨⟨hr, htfend⟩, htfesc⟩ :
        (s.decReads .afterEscape b = true ∧ b ≠ s.cfg.tfend) ∧ b ≠ s.cfg.tfesc := by
      simpa using (whenSelected_eq_next h).1
    exact eq_decRow_of_decReads hr (decRow_badtrade s.last htfend htfesc)
  | _ => cases hctx

/-- Settles O14: both rows are the row of the byte at I. -/
theorem decoderRowsAreExclusive : Obligations.DecoderRowsAreExclusive := by
  intro s t u i j hd hi hj hictx hjctx
  obtain ⟨b, hb, rfl⟩ := eq_decRow_of_exec hd hi hictx
  obtain ⟨b', hb', rfl⟩ := eq_decRow_of_exec hd hj hjctx
  obtain rfl : b = b' := Option.some.inj (hb.symm.trans hb')
  rfl

end Sys2Proof.Machine
end

section
/-! SUPPORT. The wire symbols by the direction of the call (R85, R86, log 14): which shared operation each one runs. -/

namespace Sys2Proof.Machine

/-! ## The rows of the FRAME format -/

theorem op_of_decReads {s : State} {st : FsmState} {b : Byte} (h : s.decReads st b = true) : s.op ≠ .encode := by
  obtain ⟨-, -, ho, -⟩ := (decReads_iff s st b).1 h
  exact ho

theorem exec_flag_open {s : State} (h : s.decReads .expectOpeningFend s.cfg.fend = true) :
    exec .flag s = s.drop .normal := by
  obtain ⟨hopen, hclose, -⟩ := decode_selects_no_encode_row (op_of_decReads h)
  simp [exec, execFlag, hopen, hclose, h]

theorem exec_flag_close {s : State} (h : s.decReads .normal s.cfg.fend = true) (hl : s.i = s.n - 1) :
    exec .flag s = s.accept := by
  obtain ⟨hopen, hclose, -⟩ := decode_selects_no_encode_row (op_of_decReads h)
  obtain ⟨-, -, -, hst, -⟩ := (decReads_iff _ _ _).1 h
  have hno : s.decReads .expectOpeningFend s.cfg.fend = false := by simp [State.decReads, hst]
  have hlast : s.last = true := by simpa [State.last] using hl
  simp [exec, execFlag, hopen, hclose, hno, h, hlast]

theorem exec_lit_decode {s : State} {b : Byte} (h : s.decReads .normal b = true) (he : b ≠ s.cfg.fesc)
    (hf : b ≠ s.cfg.fend) : exec (.lit b) s = s.emit b .normal := by
  obtain ⟨-, -, henc⟩ := decode_selects_no_encode_row (op_of_decReads h)
  simp [exec, execLit, whenSelected, henc, h, he, hf]

theorem exec_escFend_decode {s : State} (h : s.decReads .normal s.cfg.fesc = true)
    (hf : s.followingByte = some s.cfg.tfend) : exec .escFend s = s.consumePair s.cfg.fend := by
  obtain ⟨-, -, henc⟩ := decode_selects_no_encode_row (op_of_decReads h)
  simp [exec, execEscFend, henc, State.decReadsPair, h, hf]

theorem exec_escFesc_decode {s : State} (h : s.decReads .normal s.cfg.fesc = true)
    (hf : s.followingByte = some s.cfg.tfesc) : exec .escFesc s = s.consumePair s.cfg.fesc := by
  obtain ⟨-, -, henc⟩ := decode_selects_no_encode_row (op_of_decReads h)
  simp [exec, execEscFesc, henc, State.decReadsPair, h, hf]

theorem exec_lit_encode {s : State} {b : Byte} (h : s.encReads b = true) (he : b ≠ s.cfg.fesc)
    (hf : b ≠ s.cfg.fend) : exec (.lit b) s = s.emitByte b := by
  simp [exec, execLit, h, he, hf]

theorem exec_escFend_encode {s : State} (h : s.encReads s.cfg.fend = true) (hne : s.cfg.fend ≠ s.cfg.fesc) :
    exec .escFend s = s.emitPair s.cfg.tfend := by
  simp [exec, execEscFend, h, hne]

theorem exec_escFesc_encode {s : State} (h : s.encReads s.cfg.fesc = true) :
    exec .escFesc s = s.emitPair s.cfg.tfesc := by
  simp [exec, execEscFesc, h]

/-! ## The byte steps of a symbol -/

/-- After the escape byte of a pair, the row of its second byte is selected (R145, R149, R150). -/
theorem decReads_after_escape {s : State} {b tr : Byte} (h : s.decReads .normal b = true)
    (hf : s.followingByte = some tr) :
    ({ s with rem := s.rem + 1, st := .afterEscape, i := s.i + 1 } : State).decReads .afterEscape tr = true := by
  obtain ⟨hb, hp, ho, -, -⟩ := (decReads_iff _ _ _).1 h
  exact (decReads_iff _ _ _).2 ⟨hb, hp, ho, rfl, hf⟩

theorem exec_decEsc {s : State} (h : s.decReads .normal s.cfg.fesc = true) :
    exec .decEsc s = s.drop .afterEscape :=
  whenSelected_pos h _

/-- The two byte steps of a pair are `consumePair`, when the second one is selected and emits `v`. -/
theorem andThen_decEsc {s : State} {i : Instr} {v : Byte} (h : s.decReads .normal s.cfg.fesc = true)
    (hi : ∀ t, s.drop .afterEscape = .next t → exec i t = t.emit v .normal) :
    andThen (exec .decEsc s) (exec i) = s.consumePair v := by
  rw [exec_decEsc h, State.consumePair]
  exact hi _ rfl

/-- Settles O35: both sides run the same shared operation; the second byte of a pair is at I once the escape byte is
dropped. -/
theorem symbolsInDecodeAreTheirByteSteps : Obligations.SymbolsInDecodeAreTheirByteSteps := by
  intro s b _
  refine ⟨fun h => ?_, fun h hl => ?_, fun h he hf => ?_, fun h hf => ?_, fun h hf => ?_⟩
  · rw [exec_flag_open h]
    exact (whenSelected_pos h _).symm
  · rw [exec_flag_close h hl]
    exact (whenSelected_pos (by simp [h, State.last, hl]) _).symm
  · rw [exec_lit_decode h he hf]
    exact (whenSelected_pos (by simp [h, he, hf]) _).symm
  · rw [exec_escFend_decode h hf]
    refine (andThen_decEsc h fun t ht => ?_).symm
    cases ht
    exact whenSelected_pos (decReads_after_escape h hf) _
  · rw [exec_escFesc_decode h hf]
    refine (andThen_decEsc h fun t ht => ?_).symm
    cases ht
    exact whenSelected_pos (decReads_after_escape h hf) _

/-! ## What a symbol consumes and emits -/

theorem not_inPlace_of_decode {s : State} (ho : s.op = .decode) : s.op ≠ .decodeInPlace := by
  simp [ho]

/-- An escape pair outside DECODE_IN_PLACE, with OLEN at the end of OUT. -/
theorem consumePair_cells {s : State} (v : Byte) (ho : s.op ≠ .decodeInPlace) (hl : s.out.length = s.olen) :
    s.consumePair v = .next { s with
      out := s.out ++ [(s.olen, v)], olen := s.olen + 1, rem := s.rem + 1, st := .normal, i := s.i + 2 } := by
  rw [State.consumePair, State.drop, andThen_next]
  exact emit_out v .normal ho hl

/-- Settles O36: a pair is consumed to one byte of OUT in a DECODE call, and emitted as two in an ENCODE call. -/
theorem escapePairSymbols : Obligations.EscapePairSymbols := by
  intro s _ hl
  refine ⟨fun ho h hf => ?_, fun ho h hf => ?_, fun h hne => ?_, fun h => ?_⟩
  · rw [exec_escFend_decode h hf, consumePair_cells _ (not_inPlace_of_decode ho) hl]
  · rw [exec_escFesc_decode h hf, consumePair_cells _ (not_inPlace_of_decode ho) hl]
  · rw [exec_escFend_encode h hne, emitPair_cells _ hl]
  · rw [exec_escFesc_encode h, emitPair_cells _ hl]

/-- `Accept` outside DECODE_IN_PLACE returns OUT. -/
theorem accept_out {s : State} (ho : s.op ≠ .decodeInPlace) : s.accept = .next s.returnOut := by
  simp [State.accept, ho]

theorem returnOut_response {s : State} (ho : s.op ≠ .decodeInPlace) :
    s.returnOut.response = some (.bytes (s.out.bytes.take s.olen)) := by
  simp [State.response, ho]

/-- Settles O37: the opening flag is dropped, the closing flag of a DECODE call returns OUT, and a literal is emitted as
itself. -/
theorem flagAndLiteralSymbols : Obligations.FlagAndLiteralSymbols := by
  intro s b
  refine ⟨fun h => exec_flag_open h, fun ho h hlast => ?_, fun _ hl he hf => ⟨fun h => ?_, fun ho h => ?_⟩⟩
  · refine ⟨s.returnOut, ?_, rfl, Memory.front_bytes _ _, returnOut_response (not_inPlace_of_decode ho), rfl, rfl⟩
    rw [exec_flag_close h hlast, accept_out (not_inPlace_of_decode ho)]
  · rw [exec_lit_encode h he hf, emitByte_cells _ hl]
  · rw [exec_lit_decode h he hf, emit_out _ _ (not_inPlace_of_decode ho) hl]

end Sys2Proof.Machine
end

section
/-! SUPPORT. What the step of a call finds at a byte, at the byte level and at the symbol level (R87, R89, R85), and
which requests the step refuses (R10, R67, R82). -/

namespace Sys2Proof.Machine

/-! ## The byte at I -/

/-- At a byte of its scan, a call finds the row of that byte. -/
theorem fetch_scan_byte {s : State} {b : Byte} (hb : s.status = .busy) (hp : s.phase = .scan)
    (hc : s.currentByte = some b) : s.fetch = s.rowAt b := by
  simp [State.fetch, hb, State.fetchRow, hp, currentByte_lt hc, hc]

theorem step_of_rowAt {s : State} {b : Byte} {i : Instr} (hb : s.status = .busy) (hp : s.phase = .scan)
    (hc : s.currentByte = some b) (hi : s.rowAt b = .run i) : step s = exec i s := by
  rw [step_run ((fetch_scan_byte hb hp hc).trans hi), takeRequest_busy hb]

theorem rowAt_of_decode {s : State} {b : Byte} {i : Instr} {rest : List Byte} (hl : s.level ≠ .symbol)
    (h : decode s.byteContext [b] = .ok (i, rest)) : s.rowAt b = .run i := by
  simp [State.rowAt, hl, State.byteRow, h]

/-- Settles O5: the context of the statement is the one the byte step decodes in. -/
theorem byteStepRunsDecodedRow : Obligations.ByteStepRunsDecodedRow :=
  fun _ _ _ hb hp hl hc h => step_of_rowAt hb hp hc (rowAt_of_decode hl h)

/-- A wire symbol of a decode call stands at I when it is between the flags, or a flag at an end (R85, R86). -/
theorem symbolAt_of_decode {s : State} {b : Byte} {i : Instr} {rest : List Byte}
    (h : decodeSymbol s.cfg (b :: s.followingByte.toList) = .ok (i, rest))
    (hat : s.st = .normal ∧ (i = .flag → s.i = s.n - 1) ∨ s.st = .expectOpeningFend ∧ i = .flag) :
    s.symbolAt b = some i := by
  rcases hat with ⟨hst, hlast⟩ | ⟨hst, rfl⟩
  · simp only [State.symbolAt, hst, h]
    cases i with
    | flag => simp [State.last, hlast rfl]
    | _ => rfl
  · simp only [State.symbolAt, hst, h]

theorem rowAt_decode_symbol {s : State} {b : Byte} {i : Instr} (hl : s.level = .symbol) (ho : s.op ≠ .encode)
    (h : s.symbolAt b = some i) : s.rowAt b = .run i := by
  simp [State.rowAt, hl, ho, h]

theorem rowAt_encode_symbol {s : State} (b : Byte) (hl : s.level = .symbol) (ho : s.op = .encode) :
    s.rowAt b = .run (payloadSymbol s.cfg b) := by
  simp [State.rowAt, hl, ho]

/-- Settles O6: a decode call runs the symbol at I, an ENCODE call the symbol of the payload byte. -/
theorem symbolStepRunsDecodedSymbol : Obligations.SymbolStepRunsDecodedSymbol := by
  intro s b hb hp hl hc
  refine ⟨fun i rest ho h hat => ?_, fun ho => ?_⟩
  · exact step_of_rowAt hb hp hc (rowAt_decode_symbol hl ho (symbolAt_of_decode h hat))
  · have hstep : ∀ i, payloadSymbol s.cfg b = i → step s = exec i s := by
      rintro i rfl
      exact step_of_rowAt hb hp hc (rowAt_encode_symbol b hl ho)
    exact ⟨fun he => hstep _ (if_pos he), fun he hf => hstep _ (by simp [payloadSymbol, if_neg he, if_pos hf]),
      fun he hf => hstep _ (by simp [payloadSymbol, if_neg he, if_neg hf])⟩

/-! ## Requests without a meaning -/

theorem step_refuse {s : State} {r : Refusal} (h : s.fetch = .refuse r) : step s = .refused r := by
  simp [step, h]

theorem begin_overCapacity {s : State} {op : Op} {data : List Byte} (hb : s.status ≠ .busy)
    (ha : admits s.params op data.length = false) (cfg : SpecialChars) :
    s.begin op cfg data = .refused .overCapacity := by
  simp [State.begin, hb, ha]

/-- A call whose start is refused is refused. -/
theorem exec_call_refused {s : State} {op : Op} {cfg : SpecialChars} {data : List Byte} {r : Refusal}
    (h : s.begin op cfg data = .refused r) : exec (op.instr cfg data) s = .refused r := by
  cases op <;> simp only [Op.instr, exec, execEncode, execDecode, execDecodeInPlace, h, andThen_refused]

/-- Settles O8: the first two are refused by the fetch, the third by the start of the call at whichever level. -/
theorem requestsWithoutMeaningAreRefused : Obligations.RequestsWithoutMeaningAreRefused := by
  intro s r hb hr
  refine ⟨fun hcode => ?_, fun op hcode hover hop => ?_, fun op hcode hover ha => ?_⟩
  · apply step_refuse
    rw [fetch_of_not_busy hb]
    simp [State.fetchRequest, hr, hcode, decodeOp]
  · apply step_refuse
    rw [fetch_of_not_busy hb]
    simp [State.fetchRequest, hr, hcode, hover, hop]
  · have hbegin : s.takeRequest.begin op r.cfg r.data = .refused .overCapacity := by
      rw [takeRequest_of_not_busy hb]
      exact begin_overCapacity (s := { s with req := none }) hb ha r.cfg
    have hfetch := fetchRequest_of_decoded hr (hcode ▸ decodeOp_code op) (.inr hover)
    rw [← fetch_of_not_busy hb] at hfetch
    by_cases hl : s.level = .call
    · rw [if_pos hl] at hfetch
      rw [step_run hfetch, exec_call_refused hbegin]
    · rw [if_neg hl] at hfetch
      rw [step_start hfetch, hbegin]

end Sys2Proof.Machine
end

section
/-! SUPPORT. The steps of a call that read no byte (R110, R122, R126, R142), and CHECK_CONFIG on a valid and on an
invalid configuration (R110). -/

namespace Sys2Proof.Machine

/-! ## The steps without a byte -/

theorem fetch_of_busy {s : State} (hb : s.status = .busy) : s.fetch = s.fetchRow := if_pos hb

/-- While a call is in progress, the step runs the row the call finds. -/
theorem step_of_fetchRow {s : State} {i : Instr} (hb : s.status = .busy) (h : s.fetchRow = .run i) :
    step s = exec i s := by
  rw [step_run ((fetch_of_busy hb).trans h), takeRequest_busy hb]

theorem fetchRow_check {s : State} (hp : s.phase = .check) : s.fetchRow = .run .checkConfig := by
  simp [State.fetchRow, hp]

theorem fetchRow_opening {s : State} (hp : s.phase = .opening) : s.fetchRow = .run .flag := by
  simp [State.fetchRow, hp]

/-- With no byte left, ENCODE closes the frame and a decoder runs its end-of-input row. -/
theorem fetchRow_end {s : State} (hp : s.phase = .scan) (hi : s.i = s.n) :
    s.fetchRow = .run (if s.op = .encode then .flag else eofRow s.st) := by
  simp only [State.fetchRow, hp, hi, lt_irrefl, if_false]
  split <;> rfl

/-- Settles O7: one clause per phase, and in the scan one per side of `fetchRow_end`. -/
theorem stepsWithoutByteRunTheirRow : Obligations.StepsWithoutByteRunTheirRow := by
  intro s hb
  refine ⟨fun hp => step_of_fetchRow hb (fetchRow_check hp), fun hp => step_of_fetchRow hb (fetchRow_opening hp),
    fun hp hi ho => ?_, fun i hp hi ho hdec => ?_⟩
  · exact step_of_fetchRow hb (by rw [fetchRow_end hp hi, if_pos ho])
  · obtain rfl : eofRow s.st = i := by simpa [decode] using hdec
    exact step_of_fetchRow hb (by rw [fetchRow_end hp hi, if_neg ho])

/-! ## CHECK_CONFIG -/

/-- `distinct4` fails exactly when one of the six pairs is equal. -/
theorem distinct4_eq_false_iff (c : SpecialChars) :
    distinct4 c = false ↔ c.fend = c.fesc ∨ c.fend = c.tfend ∨ c.fend = c.tfesc ∨
      c.fesc = c.tfend ∨ c.fesc = c.tfesc ∨ c.tfend = c.tfesc := by
  rw [← Bool.not_eq_true, distinct4_iff]
  tauto

/-- What CHECK_CONFIG does where it is selected. -/
theorem exec_checkConfig {s : State} (hb : s.status = .busy) (hp : s.phase = .check) :
    exec .checkConfig s = if distinct4 s.cfg then
      .next { s with phase := if s.op = .encode then .opening else .scan }
      else .next (s.raise .duplicateSpecialChar) :=
  whenSelected_pos (by simp [hb, hp]) _

/-- The check fails before any output: OUT and BUF stay as they are (R110, R200). -/
theorem raise_duplicate_keeps_spaces (s : State) :
    (s.raise .duplicateSpecialChar).out = s.out ∧ (s.raise .duplicateSpecialChar).buf = s.buf :=
  ⟨by simp [State.outAfter], by simp [State.bufAfter]⟩

/-- Settles O15: the two sides of `distinct4`, which tests the six pairs. -/
theorem checkConfigTestsAllSixPairs : Obligations.CheckConfigTestsAllSixPairs := by
  intro s hb hp
  rw [exec_checkConfig hb hp, ← distinct4_iff, ← distinct4_eq_false_iff]
  refine ⟨fun hd => if_pos hd, fun hd => ?_⟩
  obtain ⟨hout, hbuf⟩ := raise_duplicate_keeps_spaces s
  exact ⟨s.raise .duplicateSpecialChar, by simp [hd], rfl, rfl, rfl, hout, hbuf, rfl⟩

end Sys2Proof.Machine
end

section
/-! SUPPORT. ENCODE: the call as one function (R120, R121), its byte steps and its two flags (R122 to R126), and what
a byte step leaves unchanged. -/

namespace Sys2Proof.Machine

/-! ## The call -/

/-- The frame, with the escape function written out byte by byte (R84, R121). -/
theorem frameOf_eq (c : SpecialChars) (p : List Byte) :
    frameOf c p = [c.fend] ++ p.flatMap (fun b =>
      if b = c.fesc then [c.fesc, c.tfesc] else if b = c.fend then [c.fesc, c.tfend] else [b]) ++ [c.fend] := by
  rw [frameOf, escAll_eq_flatMap]
  rfl

/-- Under a valid configuration the call ends with the frame in OUT. -/
theorem exec_encode_valid {s : State} {c : SpecialChars} {p : List Byte} (hb : s.status ≠ .busy)
    (ha : admits s.params .encode p.length = true) (hd : distinct4 c = true) :
    exec (.encode c p) s = .next { (s.startCall .encode c p).release with
      status := .ok, out := Memory.ofBytes (frameOf c p) } := by
  rw [exec_encode_next hb ha, encodeFn, if_pos hd, deliverOut_ok]

/-- The response of an ended ENCODE or DECODE call is OUT (R83). -/
theorem response_of_ok {s : State} (hs : s.status = .ok) (ho : s.op ≠ .decodeInPlace) :
    s.response = some (.bytes s.out.bytes) := by
  simp [State.response, hs, ho]

/-- Settles O16: OUT is the frame, and the response is read from it. -/
theorem encodeCallGivesFrame : Obligations.EncodeCallGivesFrame := by
  intro s c p hb ha hd
  refine ⟨_, exec_encode_valid hb ha hd, rfl, ?_, ?_⟩
  · exact (Memory.bytes_ofBytes _).trans (frameOf_eq c p)
  · rw [response_of_ok rfl (by simp)]
    exact ⟨rfl, rfl, Memory.bytes_ofBytes p, fun _ => rfl, rfl, rfl, rfl, rfl⟩

/-! ## The byte steps -/

theorem exec_encFesc {s : State} (h : s.encReads s.cfg.fesc = true) : exec .encFesc s = s.emitPair s.cfg.tfesc :=
  whenSelected_pos h _

theorem exec_encFend {s : State} (h : s.encReads s.cfg.fend = true) (hne : s.cfg.fend ≠ s.cfg.fesc) :
    exec .encFend s = s.emitPair s.cfg.tfend :=
  whenSelected_pos (by simp [h, hne]) _

theorem exec_encLit {s : State} {b : Byte} (h : s.encReads b = true) (he : b ≠ s.cfg.fesc) (hf : b ≠ s.cfg.fend) :
    exec (.encLit b) s = s.emitByte b :=
  whenSelected_pos (by simp [h, he, hf]) _

/-- Settles O21: the pair of `fesc`, with OLEN at the end of OUT. -/
theorem encFescAppendsPair : Obligations.EncFescAppendsPair := by
  intro s h _ hl
  rw [exec_encFesc h, emitPair_cells _ hl]

/-- Settles O22: the pair of `fend`, with OLEN at the end of OUT. -/
theorem encFendAppendsPair : Obligations.EncFendAppendsPair := by
  intro s h hne _ hl
  rw [exec_encFend h hne, emitPair_cells _ hl]

/-- Settles O23: the byte itself, with OLEN at the end of OUT. -/
theorem encLitAppendsByte : Obligations.EncLitAppendsByte := by
  intro s b h he hf _ hl
  rw [exec_encLit h he hf, emitByte_cells _ hl]

/-! ## The two flags -/

theorem exec_flag_encAtOpen {s : State} (h : s.encAtOpen = true) : exec .flag s = s.openFrame :=
  if_pos h

theorem encAtClose_iff (s : State) :
    s.encAtClose = true ↔ s.status = .busy ∧ s.phase = .scan ∧ s.op = .encode ∧ s.i = s.n := by
  simp [State.encAtClose, State.encScanning, State.scanning, and_assoc]

/-- At the close step the open step is not selected: the call is in its scan (log 3). -/
theorem exec_flag_encAtClose {s : State} (h : s.encAtClose = true) : exec .flag s = s.closeFrame := by
  obtain ⟨-, hp, -, -⟩ := (encAtClose_iff s).1 h
  have hopen : s.encAtOpen = false := by simp [State.encAtOpen, hp]
  simp [exec, execFlag, hopen, h]

/-- The open step, with OLEN at the end of OUT. -/
theorem openFrame_cells {s : State} (hl : s.out.length = s.olen) :
    s.openFrame = .next { s with
      out := s.out ++ [(s.olen, s.cfg.fend)], olen := s.olen + 1, phase := .scan } := by
  rw [State.openFrame, appendOut_cells _ hl, andThen_next]

/-- The close step, with OLEN at the end of OUT: the call returns all of OUT. -/
theorem closeFrame_cells {s : State} (hl : s.out.length = s.olen) :
    s.closeFrame = .next { s.release with status := .ok, out := s.out ++ [(s.olen, s.cfg.fend)] } := by
  have hall : Memory.front (s.out ++ [(s.olen, s.cfg.fend)]) (s.olen + 1) = s.out ++ [(s.olen, s.cfg.fend)] :=
    Memory.front_all (by simp [hl])
  rw [State.closeFrame, appendOut_cells _ hl, andThen_next, State.returnOut, hall]
  rfl

/-- Settles O24: FLAG is the open step or the close step, each with OLEN at the end of OUT. -/
theorem flagOpensAndClosesFrame : Obligations.FlagOpensAndClosesFrame := by
  intro s _ hl
  refine ⟨fun h => ?_, fun h => ?_⟩
  · rw [exec_flag_encAtOpen h, openFrame_cells hl]
  · refine ⟨_, (exec_flag_encAtClose h).trans (closeFrame_cells hl), rfl, rfl, ?_, rfl, rfl, rfl, rfl, rfl, rfl, rfl,
      rfl⟩
    obtain ⟨-, -, ho, -⟩ := (encAtClose_iff s).1 h
    rw [response_of_ok rfl (by simp [ho])]
    simp [Memory.bytes]

/-! ## What a byte step leaves unchanged -/

/-- From `s` to `t` only OLEN, I and the `k` bytes of OUT from OLEN on can change. -/
def State.ChangesOutOnly (s t : State) (k : Nat) : Prop :=
  ∃ m, t = { s with out := m, olen := s.olen + k, i := s.i + 1 } ∧
    ∀ a, (a < s.olen ∨ s.olen + k ≤ a) → m.read a = s.out.read a

theorem emitByte_changesOutOnly {s t : State} {v : Byte} (h : s.emitByte v = .next t) : s.ChangesOutOnly t 1 := by
  obtain ⟨m, hm, rfl⟩ := emitByte_effect h
  exact ⟨m, rfl, fun a ha => Memory.read_append_other _ _ _ _ _ hm (by omega)⟩

theorem emitPair_changesOutOnly {s t : State} {v : Byte} (h : s.emitPair v = .next t) : s.ChangesOutOnly t 2 := by
  obtain ⟨m, m', hm, hm', rfl⟩ := emitPair_effect h
  refine ⟨m', rfl, fun a ha => ?_⟩
  calc m'.read a = m.read a := Memory.read_append_other _ _ _ _ _ hm' (by omega)
    _ = s.out.read a := Memory.read_append_other _ _ _ _ _ hm (by omega)

/-- Where its decode meaning is not selected, a wire symbol has its ENCODE meaning only (log 14). -/
theorem symbol_eq_next_of_not_selected {t : State} {first second : Bool} {r r' : Result} (hs : second = false)
    (h : (if first then r else whenSelected second r') = .next t) : r = .next t := by
  split at h
  · exact h
  · simp [hs] at h

/-- ENCODE's rows, and the same symbols in an ENCODE call, write one byte of OUT for a literal and two otherwise. -/
theorem encode_row_changesOutOnly {s t : State} {i : Instr} {b : Byte}
    (hi : i = .encFesc ∨ i = .encFend ∨ i = .encLit b ∨
      (s.op = .encode ∧ (i = .escFesc ∨ i = .escFend ∨ i = .lit b)))
    (h : exec i s = .next t) :
    s.ChangesOutOnly t 1 ∨ s.ChangesOutOnly t 2 ∧ i ≠ .encLit b ∧ i ≠ .lit b := by
  rcases hi with rfl | rfl | rfl | ⟨ho, hi⟩
  · exact .inr ⟨emitPair_changesOutOnly (whenSelected_eq_next h).2, by simp, by simp⟩
  · exact .inr ⟨emitPair_changesOutOnly (whenSelected_eq_next h).2, by simp, by simp⟩
  · exact .inl (emitByte_changesOutOnly (whenSelected_eq_next h).2)
  · have hno := encode_selects_no_decode_row ho
    have hnoPair : ∀ v, s.decReadsPair v = false := fun v => by simp [State.decReadsPair, hno]
    rcases hi with rfl | rfl | rfl
    · exact .inr ⟨emitPair_changesOutOnly (symbol_eq_next_of_not_selected (hnoPair _) h), by simp, by simp⟩
    · exact .inr ⟨emitPair_changesOutOnly (symbol_eq_next_of_not_selected (hnoPair _) h), by simp, by simp⟩
    · exact .inl (emitByte_changesOutOnly (symbol_eq_next_of_not_selected (by simp [hno]) h))

/-- Settles O25: a step that writes one byte of OUT writes it at OLEN, and one that writes two is no literal. -/
theorem encodeStepsFrame : Obligations.EncodeStepsFrame := by
  intro s t i b hi h
  rcases encode_row_changesOutOnly hi h with ⟨m, rfl, hm⟩ | ⟨⟨m, rfl, hm⟩, hencLit, hlit⟩
  · exact ⟨rfl, rfl, rfl, rfl, rfl, rfl, rfl, rfl, rfl, rfl, rfl, rfl, fun _ => rfl, fun _ => rfl,
      fun a _ _ => hm a (by omega), fun _ a _ => hm a (by omega)⟩
  · exact ⟨rfl, rfl, rfl, rfl, rfl, rfl, rfl, rfl, rfl, rfl, rfl, rfl, fun _ => rfl, fun _ => rfl,
      fun a _ _ => hm a (by omega), fun hi => absurd hi (not_or.2 ⟨hencLit, hlit⟩)⟩

end Sys2Proof.Machine
end

section
/-! SUPPORT. The decoder's rows by the shared operation each one runs (R143 to R154): which drop, emit, accept or raise,
and what each of these leaves unchanged (R171, R192 to R195). -/

namespace Sys2Proof.Machine

/-! ## The byte rows -/

theorem exec_decOpen {s : State} (h : s.decReads .expectOpeningFend s.cfg.fend = true) :
    exec .decOpen s = s.drop .normal :=
  whenSelected_pos h _

theorem exec_decNoopen {s : State} {b : Byte} (h : s.decReads .expectOpeningFend b = true) (hf : b ≠ s.cfg.fend) :
    exec (.decNoopen b) s = s.fail .missingFirstFend :=
  whenSelected_pos (by simp [h, hf]) _

theorem exec_decClose {s : State} (h : s.decReads .normal s.cfg.fend = true) (hl : s.i = s.n - 1) :
    exec .decClose s = s.accept :=
  whenSelected_pos (by simp [h, State.last, hl]) _

theorem exec_decStray {s : State} (h : s.decReads .normal s.cfg.fend = true) (hl : s.i ≠ s.n - 1) :
    exec .decStray s = s.fail .fendCharInData :=
  whenSelected_pos (by simp [h, State.last, hl]) _

theorem exec_decLit {s : State} {b : Byte} (h : s.decReads .normal b = true) (he : b ≠ s.cfg.fesc)
    (hf : b ≠ s.cfg.fend) : exec (.decLit b) s = s.emit b .normal :=
  whenSelected_pos (by simp [h, he, hf]) _

theorem exec_decTfend {s : State} (h : s.decReads .afterEscape s.cfg.tfend = true) :
    exec .decTfend s = s.emit s.cfg.fend .normal :=
  whenSelected_pos h _

theorem exec_decTfesc {s : State} (h : s.decReads .afterEscape s.cfg.tfesc = true) :
    exec .decTfesc s = s.emit s.cfg.fesc .normal :=
  whenSelected_pos h _

theorem exec_decBadtrade {s : State} {b : Byte} (h : s.decReads .afterEscape b = true) (hd : b ≠ s.cfg.tfend)
    (hs : b ≠ s.cfg.tfesc) : exec (.decBadtrade b) s = s.fail .missingTradeChar :=
  whenSelected_pos (by simp [h, hd, hs]) _

/-- With no byte left, the row of the state raises the kind of `fsm_eof` (R152 to R154). -/
theorem exec_eofRow_of_decAtEnd {s : State} {st : FsmState} (h : s.decAtEnd st = true) :
    exec (eofRow st) s = .next (s.raise (fsmEof s.params st)) := by
  obtain ⟨hb, hp, ho, rfl, hi⟩ := (decAtEnd_iff s st).1 h
  exact exec_eofRow hb hp ho hi

/-- Settles O34: the step runs the row of the byte, and the row performs what `fsm_step` answers. -/
theorem byteStepPerformsFsmStep : Obligations.ByteStepPerformsFsmStep := by
  intro s b hb hp ho hl hc
  rw [step_run (fetch_decode_byte hb hp ho hl hc), takeRequest_busy hb, exec_decRow hb hp ho hc]
  rfl

/-! ## Rows that drop or emit -/

/-- Settles O26: the row is the action `Drop`. -/
theorem decOpenDropsFlag : Obligations.DecOpenDropsFlag :=
  fun _ h => exec_decOpen h

/-- Settles O27: the row is the action `Drop`. -/
theorem decEscDropsEscape : Obligations.DecEscDropsEscape :=
  fun _ h => exec_decEsc h

/-- Settles O28: each row is the action `Emit`, which with OLEN at the end of OUT adds one cell. -/
theorem decodeEmitsAppend : Obligations.DecodeEmitsAppend := by
  intro s b ho _ hl
  have hemit := fun v => emit_out v .normal (not_inPlace_of_decode ho) hl
  exact ⟨fun h he hf => (exec_decLit h he hf).trans (hemit b),
    fun h => (exec_decTfend h).trans (hemit s.cfg.fend),
    fun h => (exec_decTfesc h).trans (hemit s.cfg.fesc)⟩

/-- DEC.OPEN and DEC.ESC drop their byte; DEC.LIT, DEC.TFEND and DEC.TFESC emit one. -/
theorem drop_or_emit_of_exec {s t : State} {i : Instr} {b : Byte}
    (hi : i = .decOpen ∨ i = .decEsc ∨ i = .decLit b ∨ i = .decTfend ∨ i = .decTfesc) (h : exec i s = .next t) :
    (∃ next, s.drop next = .next t) ∧ ¬(i = .decLit b ∨ i = .decTfend ∨ i = .decTfesc) ∨
    (∃ v next, s.emit v next = .next t) ∧ ¬(i = .decOpen ∨ i = .decEsc) := by
  rcases hi with rfl | rfl | rfl | rfl | rfl
  · exact .inl ⟨⟨_, (whenSelected_eq_next h).2⟩, by simp⟩
  · exact .inl ⟨⟨_, (whenSelected_eq_next h).2⟩, by simp⟩
  · exact .inr ⟨⟨_, _, (whenSelected_eq_next h).2⟩, by simp⟩
  · exact .inr ⟨⟨_, _, (whenSelected_eq_next h).2⟩, by simp⟩
  · exact .inr ⟨⟨_, _, (whenSelected_eq_next h).2⟩, by simp⟩

theorem writeIndex_of_le {s : State} (h : s.rem ≤ s.i) : s.writeIndex = some (s.i - s.rem) :=
  if_pos h

/-- Settles O33: a row that drops writes no space; one that emits writes BUF at I - REM or OUT at OLEN. -/
theorem decodeStepsFrame : Obligations.DecodeStepsFrame := by
  intro s t i b hi h
  rcases drop_or_emit_of_exec hi h with ⟨⟨next, hdrop⟩, hno⟩ | ⟨⟨v, next, hemit⟩, hno⟩
  · cases hdrop
    exact ⟨rfl, rfl, rfl, rfl, rfl, rfl, rfl, rfl, rfl, rfl, rfl, fun _ => rfl,
      fun _ => ⟨rfl, rfl, fun _ => rfl, fun _ => rfl⟩, fun hi => absurd hi hno⟩
  · rcases emit_effect hemit with ⟨hip, hr, m, hm, rfl⟩ | ⟨hip, m, hm, rfl⟩
    · refine ⟨rfl, rfl, rfl, rfl, rfl, rfl, rfl, rfl, rfl, rfl, rfl, fun _ => rfl, fun hi => absurd hi hno,
        fun _ => ⟨rfl, fun _ => ⟨rfl, fun _ => rfl, fun w hw a ha => ?_⟩, fun ho => absurd hip ho⟩⟩
      obtain rfl : s.i - s.rem = w := Option.some.inj ((writeIndex_of_le hr).symm.trans hw)
      exact Memory.read_write_other _ _ _ _ _ hm ha
    · exact ⟨rfl, rfl, rfl, rfl, rfl, rfl, rfl, rfl, rfl, rfl, rfl, fun _ => rfl, fun hi => absurd hi hno,
        fun _ => ⟨rfl, fun ho => absurd ho hip, fun _ => ⟨rfl, fun _ => rfl, fun a ha =>
          Memory.read_append_other _ _ _ _ _ hm ha⟩⟩⟩

/-! ## The row that accepts -/

/-- Freeing from `e` on changes no byte below `e` (R198). -/
theorem Memory.read_freeFrom_of_lt (m : Memory) {a e : Nat} (draw : Nat) (h : a < e) :
    (m.freeFrom e draw).read a = m.read a := by
  induction m with
  | nil => rfl
  | cons c m ih =>
    rw [Memory.freeFrom, List.map_cons, ← Memory.freeFrom]
    by_cases hc : c.1 < e
    · simp [Memory.read, hc, ih]
    · have hne : c.1 ≠ a := by omega
      simp [Memory.read, hc, hne, ih]

/-- `Accept` in DECODE_IN_PLACE returns the view of the first I - REM bytes. -/
theorem accept_inPlace {s : State} (ho : s.op = .decodeInPlace) (hr : s.rem ≤ s.i) :
    s.accept = .next (s.returnView (s.i - s.rem)) := by
  simp [State.accept, ho, writeIndex_of_le hr]

/-- Settles O30: the row is the action `Accept`, in place or not. -/
theorem decCloseAccepts : Obligations.DecCloseAccepts := by
  intro s h hl hr
  by_cases hip : s.op = .decodeInPlace
  · exact ⟨_, (exec_decClose h hl).trans (accept_inPlace hip hr), rfl, rfl, rfl, rfl, rfl, rfl, rfl,
      fun ho => absurd hip (not_inPlace_of_decode ho),
      fun _ => ⟨rfl, rfl, Memory.freeFrom_length _ _ _, fun _ _ ha => Memory.read_freeFrom_of_lt _ _ ha⟩⟩
  · exact ⟨_, (exec_decClose h hl).trans (accept_out hip), rfl, rfl, rfl, rfl, rfl, rfl, rfl,
      fun _ => ⟨Memory.front_bytes _ _, returnOut_response hip, rfl⟩, fun ho => absurd ho hip⟩

/-! ## The rows that raise -/

/-- An error in DECODE_IN_PLACE does not reach OUT (R52). -/
theorem raise_out_of_inPlace {s : State} (ho : s.op = .decodeInPlace) (k : ErrKind) : (s.raise k).out = s.out :=
  if_pos (.inr ho)

/-- Settles O31: each row raises its kind, and `raise` keeps the operands. -/
theorem failRowsRaiseTheirKind : Obligations.FailRowsRaiseTheirKind := by
  intro s b i k hi
  have hexec : exec i s = .next (s.raise k) := by
    rcases hi with ⟨rfl, rfl, h, hf⟩ | ⟨rfl, rfl, h, hl⟩ | ⟨rfl, rfl, h, hd, hs⟩ | ⟨rfl, rfl, h⟩
    · exact exec_decNoopen h hf
    · exact exec_decStray h hl
    · exact exec_decBadtrade h hd hs
    · exact exec_eofRow_of_decAtEnd h
  have hk := raise_keepsOperands s k
  exact ⟨_, hexec, rfl, rfl, hk.inp, hk.cfg, hk.op, hk.params, hk.level, hk.req, hk.bufLength,
    fun ho => hk.buf (not_inPlace_of_decode ho), fun ho => raise_out_of_inPlace ho k⟩

/-- Settles O32: the end-of-input rows raise the kinds `fsm_eof` reads from the parameters. -/
theorem endOfInputRowsRaiseConfiguredKind : Obligations.EndOfInputRowsRaiseConfiguredKind := by
  refine ⟨rfl, rfl, fun s => ?_⟩
  have hk := raise_keepsOperands s
  exact ⟨
    fun h => ⟨_, exec_eofRow_of_decAtEnd h, rfl, rfl, (hk _).inp, (hk _).cfg, (hk _).bufLength,
      fun ho => (hk _).buf (not_inPlace_of_decode ho)⟩,
    fun h => ⟨_, exec_eofRow_of_decAtEnd h, rfl, rfl, (hk _).inp, (hk _).cfg, (hk _).bufLength,
      fun ho => (hk _).buf (not_inPlace_of_decode ho)⟩⟩

end Sys2Proof.Machine
end

section
/-! SUPPORT. DECODE, the call as one function (R170, R172): the end of the call with either result, and what it leaves
unchanged. -/

namespace Sys2Proof.Machine

/-- Whatever the result, the end of an ENCODE or DECODE call writes neither operand nor BUF. -/
theorem deliverOut_keepsOperands (s : State) (r : CallResult) : s.KeepsOperands (s.deliverOut r) := by
  cases r with
  | ok bs =>
    rw [deliverOut_ok]
    exact ⟨rfl, rfl, rfl, rfl, rfl, rfl, rfl, fun _ => rfl⟩
  | err k => exact raise_keepsOperands s k

/-- Settles O17: the result of `decodeFn` is what the end of the call delivers, and the start loads the frame. -/
theorem decodeCallGivesParseResult : Obligations.DecodeCallGivesParseResult := by
  intro s c f hb ha
  have hop : (s.startCall .decode c f).op ≠ .decodeInPlace := by simp
  have hkeeps := deliverOut_keepsOperands (s.startCall .decode c f) (decodeFn s.params c f)
  refine ⟨_, exec_decode_next hb ha, fun p hp => ?_, fun k hk => ?_, ?_, fun a => ?_,
    hkeeps.cfg, hkeeps.params, hkeeps.level, hkeeps.req⟩
  · rw [hp, deliverOut_response hop, deliverOut_ok]
    exact ⟨rfl, Memory.bytes_ofBytes p, rfl, rfl⟩
  · rw [hk, deliverOut_response hop]
    exact ⟨rfl, rfl⟩
  · rw [hkeeps.inp]
    exact Memory.bytes_ofBytes f
  · rw [hkeeps.buf hop]
    rfl

end Sys2Proof.Machine
end

section
/-! SUPPORT. DECODE_IN_PLACE: where its emitting rows write BUF (R193, R292), and the view the call ends with (R190,
R197 to R201). -/

namespace Sys2Proof.Machine

/-! ## The rows that emit -/

/-- `Emit(v)` in a DECODE_IN_PLACE call writes one byte of BUF, at an index the scan has passed. -/
theorem emit_inPlace_below_read {s : State} (v : Byte) (next : FsmState) (ho : s.op = .decodeInPlace)
    (hw : s.buf.wf = true) (hrem : 1 ≤ s.rem) (hr : s.rem ≤ s.i) (hi : s.i < s.buf.length) :
    ∃ m, s.emit v next = .next { s with buf := m, st := next, i := s.i + 1 } ∧
      m.read (s.i - s.rem) = some v ∧ s.i - s.rem < s.i ∧
      (∀ a, a ≠ s.i - s.rem → m.read a = s.buf.read a) ∧ m.length = s.buf.length := by
  have hbelow : s.i - s.rem < s.i := by omega
  have hin : s.i - s.rem < s.buf.length := hbelow.trans hi
  have hm := Memory.write_eq s.buf hw (s.i - s.rem) v hin
  exact ⟨_, emit_inPlace v next ho hw hr hin, Memory.read_write_same _ _ _ _ hm, hbelow,
    fun _ ha => Memory.read_write_other _ _ _ _ _ hm ha, Memory.write_length hm⟩

/-- A decode byte row is selected only while a byte is left (R31). -/
theorem readIndex_lt_of_decReads {s : State} {st : FsmState} {b : Byte} (h : s.decReads st b = true) : s.i < s.n := by
  obtain ⟨-, -, -, -, hc⟩ := (decReads_iff s st b).1 h
  exact currentByte_lt hc

/-- Settles O29: each row is the action `Emit`, selected only where a byte is left to read. -/
theorem decodeInPlaceEmitsBelowRead : Obligations.DecodeInPlaceEmitsBelowRead := by
  intro s b ho hw hn hrem hr i v hrow
  have hemit := fun st x (h : s.decReads st x = true) =>
    emit_inPlace_below_read v .normal ho hw hrem hr (hn ▸ readIndex_lt_of_decReads h)
  rcases hrow with ⟨rfl, rfl, h, he, hf⟩ | ⟨rfl, rfl, h⟩ | ⟨rfl, rfl, h⟩
  · rw [exec_decLit h he hf]
    exact hemit _ _ h
  · rw [exec_decTfend h]
    exact hemit _ _ h
  · rw [exec_decTfesc h]
    exact hemit _ _ h

/-! ## The call -/

/-- The view a successful call ends with: END is the payload's length, and BUF[0:END) the payload (R197). -/
theorem deliverView_ok_view (s : State) (p : List Byte) :
    (s.deliverView (.ok p)).status = .ok ∧ (s.deliverView (.ok p)).viewEnd = p.length ∧
      (s.deliverView (.ok p)).buf.bytes.take p.length = p := by
  refine ⟨rfl, rfl, ?_⟩
  calc (s.deliverView (.ok p)).buf.bytes.take p.length
      = (s.buf.overwrite p).bytes.take p.length := Memory.freeFrom_take _ (Memory.overwrite_wf _ _) _ _
    _ = p := by simp

/-- Overwriting the front of a space by a sequence it has room for keeps its length (R53, R197). -/
theorem Memory.overwrite_length {m : Memory} {bs : List Byte} (h : bs.length ≤ m.length) :
    (m.overwrite bs).length = m.length := by
  simp [Memory.overwrite, h]

/-- The end of a DECODE_IN_PLACE call writes BUF within its length and no other operand. -/
theorem deliverView_keepsOperands {s : State} {r : CallResult} (ho : s.op = .decodeInPlace)
    (hr : ∀ p, r = .ok p → p.length ≤ s.buf.length) : s.KeepsOperands (s.deliverView r) := by
  cases r with
  | ok p =>
    have hlen : (s.deliverView (.ok p)).buf.length = s.buf.length :=
      (Memory.freeFrom_length _ _ _).trans (Memory.overwrite_length (hr p rfl))
    exact ⟨rfl, rfl, rfl, rfl, rfl, rfl, hlen, fun hno => absurd ho hno⟩
  | err k => exact raise_keepsOperands s k

/-- Settles O18: the result of `decodeFn` is what the end of the call delivers; a payload is shorter than its frame,
so the view fits BUF. -/
theorem decodeInPlaceCallGivesView : Obligations.DecodeInPlaceCallGivesView := by
  intro s c f hb ha
  have hop : (s.startCall .decodeInPlace c f).op = .decodeInPlace := rfl
  have hfits : ∀ p, decodeFn s.params c f = .ok p → p.length ≤ (s.startCall .decodeInPlace c f).buf.length := by
    intro p hp
    have hframe := decodeFn_length hp
    simp only [State.startCall_buf, if_true, Memory.ofBytes_length]
    omega
  have hkeeps := deliverView_keepsOperands hop hfits
  refine ⟨_, exec_decodeInPlace_next hb ha, fun p hp => ?_, fun k hk => ?_, ?_, fun a => ?_,
    hkeeps.cfg, hkeeps.params, hkeeps.level, hkeeps.req⟩
  · obtain ⟨hok, hend, hview⟩ := deliverView_ok_view (s.startCall .decodeInPlace c f) p
    rw [deliverView_response hop, hp, hend]
    exact ⟨hok, rfl, hview, rfl⟩
  · rw [deliverView_response hop, hk]
    exact ⟨rfl, rfl⟩
  · exact hkeeps.bufLength.trans (Memory.ofBytes_length f)
  · rw [hkeeps.inp]
    rfl

end Sys2Proof.Machine
end

section
/-! SUPPORT. The three calls as one: the result of a call as a function of its operands (R7, R15), and the end of the
call that delivers it. -/

namespace Sys2Proof.Machine

/-- The result of a call (R15): the frame of ENCODE (R120), the payload of either decoder (R172, R197). -/
def callResult (pr : Params) (c : SpecialChars) (op : Op) (data : List Byte) : CallResult :=
  match op with
  | .encode => encodeFn c data
  | .decode | .decodeInPlace => decodeFn pr c data

/-- The end of a call with its result: as a view of BUF in place, in OUT otherwise (R83). -/
def State.deliver (s : State) (r : CallResult) : State :=
  if s.op = .decodeInPlace then s.deliverView r else s.deliverOut r

/-- The status a call ends with (R34). -/
def CallResult.status : CallResult → Status
  | .ok _ => .ok
  | .err k => .err k

/-- What the caller reads of a result (R83). -/
def CallResult.response (op : Op) : CallResult → Response
  | .ok bs => if op = .decodeInPlace then .view bs.length bs else .bytes bs
  | .err k => .error k

theorem deliver_inPlace {s : State} (ho : s.op = .decodeInPlace) (r : CallResult) : s.deliver r = s.deliverView r :=
  if_pos ho

theorem deliver_not_inPlace {s : State} (ho : s.op ≠ .decodeInPlace) (r : CallResult) :
    s.deliver r = s.deliverOut r :=
  if_neg ho

@[simp] theorem deliver_err (s : State) (k : ErrKind) : s.deliver (.err k) = s.raise k := by
  rw [State.deliver, deliverView_err, deliverOut_err, ite_self]

/-! Of the four ends of a call each leaves these fields alike. -/

@[simp] theorem deliver_status (s : State) (r : CallResult) : (s.deliver r).status = r.status := by
  rw [State.deliver]; split <;> cases r <;> rfl

@[simp] theorem deliver_req (s : State) (r : CallResult) : (s.deliver r).req = s.req := by
  rw [State.deliver]; split <;> cases r <;> rfl

@[simp] theorem deliver_params (s : State) (r : CallResult) : (s.deliver r).params = s.params := by
  rw [State.deliver]; split <;> cases r <;> rfl

theorem deliver_status_ne_busy (s : State) (r : CallResult) : (s.deliver r).status ≠ .busy := by
  cases r <;> simp [CallResult.status]

theorem deliver_response (s : State) (r : CallResult) : (s.deliver r).response = some (r.response s.op) := by
  by_cases ho : s.op = .decodeInPlace
  · rw [deliver_inPlace ho, deliverView_response ho]
    cases r <;> simp [CallResult.response, ho]
  · rw [deliver_not_inPlace ho, deliverOut_response ho]
    cases r <;> simp [CallResult.response, ho]

/-- A call that runs ends with its result. -/
theorem exec_call_cases {s t : State} {op : Op} {c : SpecialChars} {data : List Byte}
    (h : exec (op.instr c data) s = .next t) :
    s.status ≠ .busy ∧ admits s.params op data.length = true ∧
      t = (s.startCall op c data).deliver (callResult s.params c op data) := by
  cases op with
  | encode => exact exec_encode_cases h
  | decode => exact exec_decode_cases h
  | decodeInPlace => exact exec_decodeInPlace_cases h

/-- A call runs when none is in flight and its operands fit. -/
theorem exec_call_next {s : State} {op : Op} {data : List Byte} (hb : s.status ≠ .busy)
    (ha : admits s.params op data.length = true) (c : SpecialChars) :
    exec (op.instr c data) s = .next ((s.startCall op c data).deliver (callResult s.params c op data)) := by
  cases op with
  | encode => exact exec_encode_next hb ha
  | decode => exact exec_decode_next hb ha
  | decodeInPlace => exact exec_decodeInPlace_next hb ha

/-- A configuration with two equal bytes decides the result of every call (R223). -/
theorem callResult_of_duplicate {c : SpecialChars} (hd : distinct4 c = false) (pr : Params) (op : Op)
    (data : List Byte) : callResult pr c op data = .err .duplicateSpecialChar := by
  cases op <;> simp [callResult, encodeFn, decodeFn, hd]

/-- Settles O19: the call ends with the error of the check, which leaves the spaces as the start of the call does. -/
theorem duplicateConfigurationIsRejected : Obligations.DuplicateConfigurationIsRejected := by
  intro s c data op hb ha hdup
  have hd := (distinct4_eq_false_iff c).2 hdup
  obtain ⟨hout, hbuf⟩ := raise_duplicate_keeps_spaces (s.startCall op c data)
  refine ⟨(s.startCall op c data).raise .duplicateSpecialChar, ?_, rfl, hout, fun ho => ?_, fun ho => ?_⟩
  · rw [exec_call_next hb ha, callResult_of_duplicate hd, deliver_err]
  · rw [hbuf, State.startCall_buf, if_pos ho, Memory.bytes_ofBytes]
  · rw [hbuf, State.startCall_buf, if_neg ho]

end Sys2Proof.Machine
end

section
/-! SUPPORT. The laws of the coding (R220 to R228): round trips, the exact inverse, lengths, flags, and renaming. -/

namespace Sys2Proof.Machine

/-! ## Round trips -/

/-- An ENCODE call under a valid configuration ends with the frame in OUT. -/
theorem encode_ends {s t : State} {c : SpecialChars} {p : List Byte} (hd : distinct4 c = true)
    (h : exec (.encode c p) s = .next t) :
    t.status = .ok ∧ t.out.bytes = frameOf c p ∧ t.response = some (.bytes (frameOf c p)) := by
  obtain ⟨hb, ha, -⟩ := exec_encode_cases h
  rw [exec_encode_valid hb ha hd] at h
  cases h
  refine ⟨rfl, Memory.bytes_ofBytes _, ?_⟩
  rw [response_of_ok rfl (by simp), Memory.bytes_ofBytes]

/-- Settles O50: OUT holds the frame, and `parse` reads the frame back. -/
theorem roundTrip : Obligations.RoundTrip := by
  intro s t c p hd _ h ha
  obtain ⟨hok, hout, -⟩ := encode_ends hd h
  rw [← Memory.bytes_length] at ha
  refine ⟨_, exec_decode_next (by simp [hok]) ha, ?_⟩
  rw [hout, decodeFn_frameOf _ hd, deliverOut_response (by simp)]

/-- Settles O51: the same payload, delivered as a view. -/
theorem roundTripInPlace : Obligations.RoundTripInPlace := by
  intro s t c p hd _ h ha
  obtain ⟨hok, hout, -⟩ := encode_ends hd h
  rw [← Memory.bytes_length] at ha
  refine ⟨_, exec_decodeInPlace_next (by simp [hok]) ha, ?_⟩
  rw [hout, decodeFn_frameOf _ hd]
  obtain ⟨hst, hend, hview⟩ := deliverView_ok_view (t.startCall .decodeInPlace c (frameOf c p)) p
  exact ⟨hst, hend, by rwa [hend]⟩

/-- What a DECODE call answers is the result of the call. -/
theorem decode_response_iff {s t : State} {c : SpecialChars} {f p : List Byte}
    (h : exec (.decode c f) s = .next t) :
    t.response = some (.bytes p) ↔ decodeFn s.params c f = .ok p := by
  obtain ⟨-, -, rfl⟩ := exec_decode_cases h
  rw [deliverOut_response (by simp)]
  cases decodeFn s.params c f <;> simp

/-- Settles O52: both sides say that `f` is the frame of `p`. -/
theorem decodeIsExactInverse : Obligations.DecodeIsExactInverse := by
  intro s t u c p f hd ht hu
  obtain ⟨-, -, hresponse⟩ := encode_ends hd hu
  calc t.response = some (.bytes p) ↔ decodeFn s.params c f = .ok p := decode_response_iff ht
    _ ↔ f = frameOf c p := decodeFn_ok_iff _ hd f p
    _ ↔ u.response = some (.bytes f) := by simp [hresponse, eq_comm]

/-! ## Lengths -/

/-- The occurrences of two different bytes, counted together. -/
theorem count_add_count {a b : Byte} (h : a ≠ b) (p : List Byte) :
    p.count a + p.count b = p.countP (fun x => x = a ∨ x = b) := by
  induction p with
  | nil => rfl
  | cons x p ih =>
    simp only [List.count_cons, List.countP_cons, ← ih, beq_iff_eq, decide_eq_true_eq]
    by_cases ha : x = a
    · simp only [ha, h, true_or, if_true, if_false]
      omega
    · by_cases hb : x = b
      · simp only [hb, h.symm, or_true, if_true, if_false]
        omega
      · simp only [ha, hb, or_self, if_false, Nat.add_zero]

theorem count_add_count_le {a b : Byte} (h : a ≠ b) (p : List Byte) : p.count a + p.count b ≤ p.length :=
  count_add_count h p ▸ List.countP_le_length

theorem frameOf_length {c : SpecialChars} (hd : distinct4 c = true) (p : List Byte) :
    (frameOf c p).length = 2 + p.length + p.count c.fend + p.count c.fesc := by
  obtain ⟨hne, -⟩ := (distinct4_iff c).1 hd
  simp only [frameOf, List.length_cons, List.length_append, List.length_nil, escAll_length c hne]
  omega

/-- Settles O53: the bytes that take two places are counted, and every byte of the payload is counted at most once. -/
theorem encodedLength : Obligations.EncodedLength := by
  intro s t c p hd h
  obtain ⟨hne, -⟩ := (distinct4_iff c).1 hd
  obtain ⟨-, hout, hresponse⟩ := encode_ends hd h
  have hlen : t.out.length = (frameOf c p).length := by rw [← hout, Memory.bytes_length]
  have hsum := count_add_count hne p
  have hle := count_add_count_le hne p
  have hall : p.countP (fun x => x = c.fend ∨ x = c.fesc) = p.length ↔ ∀ b ∈ p, b = c.fend ∨ b = c.fesc := by
    simp [List.countP_eq_length]
  have hnone : p.countP (fun x => x = c.fend ∨ x = c.fesc) = 0 ↔ ∀ b ∈ p, b ≠ c.fend ∧ b ≠ c.fesc := by
    simp [List.countP_eq_zero]
  rw [hresponse, hlen, frameOf_length hd]
  refine ⟨by rw [← frameOf_length hd]; rfl, rfl, by omega, ?_, by omega, ?_⟩
  · rw [← hall]
    omega
  · rw [← hnone]
    omega

/-- Settles O54: the body is the escaped payload, which holds no `fend`. -/
theorem frameHasFlagsOnlyAtItsEnds : Obligations.FrameHasFlagsOnlyAtItsEnds := by
  intro s t c p hd h
  obtain ⟨-, hout, -⟩ := encode_ends hd h
  have hbody := escAll_no_fend hd p
  refine ⟨escAll c p, hout, hbody, ?_⟩
  simp [hout, frameOf, List.count_eq_zero.2 hbody]

/-- Settles O55: an accepted frame is the frame of its payload, and each `fesc` in it opens one pair. -/
theorem decodedLength : Obligations.DecodedLength := by
  intro s t c p f hd h hresponse
  obtain ⟨hne, -⟩ := (distinct4_iff c).1 hd
  obtain ⟨-, rfl⟩ := decodeFn_ok ((decode_response_iff h).1 hresponse)
  have hpairs : (frameOf c p).length = p.length + 2 + (frameOf c p).count c.fesc := by
    have := escAll_count_fesc hd p
    simp [frameOf, hne]
    omega
  have hlen := frameOf_length hd p
  have hle := count_add_count_le hne p
  exact ⟨hpairs, by omega, by omega⟩

/-! ## Renaming -/

/-- The result with every byte of its output renamed. -/
def CallResult.rename (g : Byte → Byte) : CallResult → CallResult
  | .ok bs => .ok (bs.map g)
  | .err k => .err k

@[simp] theorem rename_status (g : Byte → Byte) (r : CallResult) : (r.rename g).status = r.status := by
  cases r <;> rfl

theorem distinct4_renameChars {g : Byte → Byte} (hg : Function.Injective g) (c : SpecialChars) :
    distinct4 (renameChars g c) = distinct4 c := by
  rw [Bool.eq_iff_iff, distinct4_iff, distinct4_iff]
  simp [renameChars, hg.eq_iff]

theorem escAll_map {g : Byte → Byte} (hg : Function.Injective g) (c : SpecialChars) (p : List Byte) :
    escAll (renameChars g c) (p.map g) = (escAll c p).map g := by
  induction p with
  | nil => rfl
  | cons b p ih =>
    have hesc : esc (renameChars g c) (g b) = (esc c b).map g := by
      simp only [esc, renameChars, hg.eq_iff]
      split
      · rfl
      · split <;> rfl
    simp [escAll, hesc, ih]

/-- `parse` compares bytes for equality only. -/
theorem parse_map {g : Byte → Byte} (hg : Function.Injective g) (pr : Params) (c : SpecialChars)
    (f acc : List Byte) :
    parse pr (renameChars g c) (f.map g) (acc.map g) = (parse pr c f acc).rename g := by
  induction f, acc using parse.induct c with
  | case1 acc => rfl
  | case2 acc => simp [parse, renameChars, CallResult.rename]
  | case3 acc b rest => simp [parse, renameChars, CallResult.rename]
  | case4 acc hne => simp [parse, renameChars, CallResult.rename, hg.eq_iff, hne]
  | case5 acc rest hne ih => simpa [parse, renameChars, hg.eq_iff, hne] using ih
  | case6 acc rest hne ht ih => simpa [parse, renameChars, hg.eq_iff, hne, ht] using ih
  | case7 acc t rest h1 h2 hne => simp [parse, renameChars, CallResult.rename, hg.eq_iff, h1, h2, hne]
  | case8 b rest acc h1 h2 ih =>
    rw [parse.eq_def pr c, parse.eq_def pr (renameChars g c)]
    simpa [renameChars, hg.eq_iff, h1, h2] using ih

theorem decodeFn_map {g : Byte → Byte} (hg : Function.Injective g) (pr : Params) (c : SpecialChars)
    (f : List Byte) : decodeFn pr (renameChars g c) (f.map g) = (decodeFn pr c f).rename g := by
  simp only [decodeFn, distinct4_renameChars hg]
  split
  · cases f with
    | nil => rfl
    | cons b rest =>
      simp only [List.map_cons]
      by_cases hb : b = c.fend
      · simpa [renameChars, hb] using parse_map hg pr c rest []
      · simp [renameChars, hg.eq_iff, hb, CallResult.rename]
  · rfl

/-- The result of a call is renamed with its operands (R227). -/
theorem callResult_map {g : Byte → Byte} (hg : Function.Injective g) (pr : Params) (c : SpecialChars) (op : Op)
    (data : List Byte) :
    callResult pr (renameChars g c) op (data.map g) = (callResult pr c op data).rename g := by
  cases op with
  | encode =>
    simp only [callResult, encodeFn, distinct4_renameChars hg]
    split
    · simp only [frameOf, escAll_map hg, CallResult.rename, List.map_cons, List.map_append, List.map_nil]
      rfl
    · rfl
  | decode => exact decodeFn_map hg pr c data
  | decodeInPlace => exact decodeFn_map hg pr c data

/-- Settles O56: the call ends with its result, which is renamed with the operands. -/
theorem renamingBytesRenamesResult : Obligations.RenamingBytesRenamesResult := by
  intro s t u g c data op hg ht hu
  obtain ⟨-, -, rfl⟩ := exec_call_cases ht
  obtain ⟨-, -, rfl⟩ := exec_call_cases hu
  simp only [deliver_status, deliver_response, callResult_map hg, rename_status, State.startCall_op]
  cases callResult s.params c op data with
  | err k => exact ⟨trivial, nofun, nofun⟩
  | ok out =>
    by_cases ho : op = .decodeInPlace
    · simp only [CallResult.response, CallResult.rename, ho, if_true]
      exact ⟨trivial, nofun, fun n bs h => by cases h; simp⟩
    · simp only [CallResult.response, CallResult.rename, ho, if_false]
      exact ⟨trivial, fun bs h => by cases h; rfl, nofun⟩

end Sys2Proof.Machine
end

section
/-! SUPPORT. The decoder as a run of `hdlc_frame_escape_fsm` over the unread bytes (R142, R158), which is `parse` from
state Normal on (R172). -/

namespace Sys2Proof.Machine

/-- The result of a decode call that has this state, these bytes left to read and this payload so far. -/
def fsmRun (pr : Params) (c : SpecialChars) : FsmState → List Byte → List Byte → CallResult
  | st, [], _ => .err (fsmEof pr st)
  | st, b :: rest, acc =>
    match fsmStep c st b rest.isEmpty with
    | .drop next => fsmRun pr c next rest acc
    | .emit v next => fsmRun pr c next rest (acc ++ [v])
    | .accept => .ok acc
    | .fail k => .err k

theorem fsmRun_drop {pr : Params} {c : SpecialChars} {st next : FsmState} {b : Byte} {rest acc : List Byte}
    (h : fsmStep c st b rest.isEmpty = .drop next) : fsmRun pr c st (b :: rest) acc = fsmRun pr c next rest acc := by
  rw [fsmRun, h]

theorem fsmRun_emit {pr : Params} {c : SpecialChars} {st next : FsmState} {b v : Byte} {rest acc : List Byte}
    (h : fsmStep c st b rest.isEmpty = .emit v next) :
    fsmRun pr c st (b :: rest) acc = fsmRun pr c next rest (acc ++ [v]) := by
  rw [fsmRun, h]

theorem fsmRun_accept {pr : Params} {c : SpecialChars} {st : FsmState} {b : Byte} {rest acc : List Byte}
    (h : fsmStep c st b rest.isEmpty = .accept) : fsmRun pr c st (b :: rest) acc = .ok acc := by
  rw [fsmRun, h]

theorem fsmRun_fail {pr : Params} {c : SpecialChars} {st : FsmState} {b : Byte} {rest acc : List Byte} {k : ErrKind}
    (h : fsmStep c st b rest.isEmpty = .fail k) : fsmRun pr c st (b :: rest) acc = .err k := by
  rw [fsmRun, h]

/-- From state Normal the machine's run is `parse`. -/
theorem fsmRun_normal (pr : Params) {c : SpecialChars} (hne : c.fend ≠ c.fesc) (f acc : List Byte) :
    fsmRun pr c .normal f acc = parse pr c f acc := by
  induction f, acc using parse.induct c with
  | case1 acc => rfl
  | case2 acc => simp [fsmRun, fsmStep, parse, hne]
  | case3 acc b rest => simp [fsmRun, fsmStep, parse, hne]
  | case4 acc _ => simp [fsmRun, fsmStep, fsmEof, parse, hne.symm]
  | case5 acc rest _ ih => simpa [fsmRun, fsmStep, parse, hne.symm] using ih
  | case6 acc rest _ ht ih => simpa [fsmRun, fsmStep, parse, hne.symm, ht] using ih
  | case7 acc t rest htfend htfesc _ => simp [fsmRun, fsmStep, parse, hne.symm, htfend, htfesc]
  | case8 b rest acc hfend hfesc ih =>
    rw [parse.eq_def]
    simpa [fsmRun, fsmStep, hfend, hfesc] using ih

/-- From its first state the machine's run is DECODE as a function. -/
theorem fsmRun_start (pr : Params) {c : SpecialChars} (hd : distinct4 c = true) (f : List Byte) :
    fsmRun pr c .expectOpeningFend f [] = decodeFn pr c f := by
  obtain ⟨hne, -⟩ := (distinct4_iff c).1 hd
  cases f with
  | nil => simp [fsmRun, fsmEof, decodeFn, hd]
  | cons b rest =>
    by_cases hb : b = c.fend
    · simp [fsmRun, fsmStep, decodeFn, hd, hb, fsmRun_normal pr hne]
    · simp [fsmRun, fsmStep, decodeFn, hd, hb]

/-- What `fsm_step` answers depends on `last` only at a `fend` in state Normal: elsewhere it goes on or fails alike. -/
theorem fsmStep_of_last {c : SpecialChars} {st : FsmState} {b : Byte} {last : Bool} {a : FsmAction}
    (h : fsmStep c st b last = a) (haccept : a ≠ .accept) (hstray : a ≠ .fail .fendCharInData) (last' : Bool) :
    fsmStep c st b last' = a := by
  cases st with
  | expectOpeningFend => exact h
  | afterEscape => exact h
  | normal =>
    by_cases he : b = c.fesc
    · simpa [fsmStep, he] using h
    · by_cases hf : b = c.fend
      · cases last <;> simp_all [fsmStep]
      · simpa [fsmStep, he, hf] using h

/-- Admissible parameters do not name the kind of the check (R11). -/
theorem paramsOk_kinds {pr : Params} (hp : paramsOk pr = true) :
    pr.errEmptyInput ≠ .duplicateSpecialChar ∧ pr.errEofAfterEscape ≠ .duplicateSpecialChar := by
  simp only [paramsOk, Bool.and_eq_true, Bool.or_eq_true, beq_iff_eq] at hp
  obtain ⟨⟨-, hempty⟩, heof⟩ := hp
  exact ⟨by rcases hempty with h | h <;> simp [h], by rcases heof with h | h <;> simp [h]⟩

/-- After the check no run of the machine ends with the kind of the check. -/
theorem fsmRun_ne_duplicate {pr : Params} (hp : paramsOk pr = true) (c : SpecialChars) (st : FsmState)
    (f acc : List Byte) : fsmRun pr c st f acc ≠ .err .duplicateSpecialChar := by
  obtain ⟨hempty, heof⟩ := paramsOk_kinds hp
  induction f generalizing st acc with
  | nil => cases st <;> simp [fsmRun, fsmEof, hempty, heof]
  | cons b rest ih =>
    cases ha : fsmStep c st b rest.isEmpty with
    | drop next => rw [fsmRun_drop ha]; exact ih _ _
    | emit v next => rw [fsmRun_emit ha]; exact ih _ _
    | accept => simp [fsmRun_accept ha]
    | fail k =>
      rw [fsmRun_fail ha]
      rcases fsmStep_fail ha with ⟨-, rfl⟩ | ⟨-, -, rfl⟩ | ⟨-, rfl⟩ <;> simp

end Sys2Proof.Machine
end

section
/-! SUPPORT. A call in progress and the result it is heading for: every step either goes on, closer to its end and with
the same result ahead, or ends the call with that result (R142, R230, R233). -/

namespace Sys2Proof.Machine

/-! ## A call in progress -/

/-- What the steps of a call rest on: of the invariant (R35) the part that speaks of the spaces the call reaches. -/
structure State.InCall (s : State) : Prop where
  busy : s.status = .busy
  sourceWf : s.source.wf = true
  sourceLength : s.source.length = s.n
  index : s.i ≤ s.n
  outWf : s.out.wf = true
  outLength : s.out.length = s.olen
  rem : s.rem ≤ s.i
  remPos : s.op ≠ .encode → s.st ≠ .expectOpeningFend → 1 ≤ s.rem
  start : s.phase ≠ .scan → s.st = .expectOpeningFend ∧ s.i = 0 ∧ s.out = []
  opening : s.phase = .opening → s.op = .encode
  checked : s.phase ≠ .check → distinct4 s.cfg = true

theorem inCall_of_inv {s : State} (hinv : s.Inv) (hb : s.status = .busy) : s.InCall := by
  obtain ⟨hwi, hwo, hwb⟩ := wf_of_inv hinv
  have hout := out_length_of_inv hinv hb
  obtain ⟨-, -, -, hrun, -⟩ := hinv
  obtain ⟨hlen, hi, hstart, hop, hd, henc, hdec⟩ := hrun hb
  obtain ⟨hrem, hremPos⟩ : s.rem ≤ s.i ∧ (s.op ≠ .encode → s.st ≠ .expectOpeningFend → 1 ≤ s.rem) := by
    by_cases hp : s.phase = .scan
    · by_cases ho : s.op = .encode
      · obtain ⟨hrem, -⟩ := (encScan_iff s).1 (henc hp ho)
        exact ⟨by omega, fun h => absurd ho h⟩
      · obtain ⟨-, hremStart, hremBound, -⟩ := (decScan_iff s).1 (hdec hp ho)
        refine ⟨?_, fun _ hst => (hremBound hst).1⟩
        by_cases hst : s.st = .expectOpeningFend
        · simp [hremStart hst]
        · exact (hremBound hst).2
    · obtain ⟨hst, -, hrem, -⟩ := (atStart_iff s).1 (hstart hp)
      exact ⟨by omega, fun _ h => absurd hst h⟩
  refine ⟨hb, ?_, hlen, hi, hwo, hout, hrem, hremPos, fun hp => ?_, hop, hd⟩
  · simp only [State.source]
    split
    · exact hwb
    · exact hwi
  · obtain ⟨hst, hi, -, -, hout⟩ := (atStart_iff s).1 (hstart hp)
    exact ⟨hst, hi, hout⟩

theorem startCall_source (s : State) (op : Op) (c : SpecialChars) (data : List Byte) :
    (s.startCall op c data).source = Memory.ofBytes data := by
  by_cases ho : op = .decodeInPlace <;> simp [State.source, ho]

/-- The start of a call needs nothing of the state before it (R36, R40). -/
theorem startCall_inCall (s : State) (op : Op) (c : SpecialChars) (data : List Byte) :
    (s.startCall op c data).InCall where
  busy := rfl
  sourceWf := by simp [startCall_source]
  sourceLength := by simp [startCall_source]
  index := by simp
  outWf := rfl
  outLength := rfl
  rem := Nat.le_refl 0
  remPos := fun _ h => absurd rfl h
  start := fun _ => ⟨rfl, rfl, rfl⟩
  opening := by simp
  checked := by simp

/-! ## Where the call stands, and what it is heading for -/

/-- The bytes the call has still to read. -/
def State.unread (s : State) : List Byte := s.source.bytes.drop s.i

/-- The payload a decode call has delivered so far: BUF[0:I - REM) in place (R193), OUT otherwise. -/
def State.payload (s : State) : List Byte :=
  if s.op = .decodeInPlace then s.buf.bytes.take (s.i - s.rem) else s.out.bytes

/-- The result the call is heading for, when these bytes are still to read. -/
def State.outcome (s : State) (rest : List Byte) : CallResult :=
  match s.phase with
  | .check => callResult s.params s.cfg s.op rest
  | .opening => .ok (frameOf s.cfg rest)
  | .scan =>
    if s.op = .encode then .ok (s.out.bytes ++ (escAll s.cfg rest ++ [s.cfg.fend]))
    else fsmRun s.params s.cfg s.st rest s.payload

/-- How many steps the call takes at most: a byte step for each unread byte, its end, and what comes before its scan. -/
def State.stepsLeft (s : State) : Nat :=
  (s.n - s.i + 1) + match s.phase with
    | .check => 2
    | .opening => 1
    | .scan => 0

theorem outcome_encode_scan {s : State} (hp : s.phase = .scan) (ho : s.op = .encode) (rest : List Byte) :
    s.outcome rest = .ok (s.out.bytes ++ (escAll s.cfg rest ++ [s.cfg.fend])) := by
  simp [State.outcome, hp, ho]

theorem outcome_decode_scan {s : State} (hp : s.phase = .scan) (ho : s.op ≠ .encode) (rest : List Byte) :
    s.outcome rest = fsmRun s.params s.cfg s.st rest s.payload := by
  simp [State.outcome, hp, ho]

theorem stepsLeft_scan {s : State} (hp : s.phase = .scan) : s.stepsLeft = s.n - s.i + 1 := by
  simp [State.stepsLeft, hp]

/-- `t` is a later state of the call in progress at `s`: it keeps what the end of the call reads, and having read some
bytes it heads for the result that `s` heads for when these come first. -/
structure State.GoesOnTo (s t : State) : Prop where
  inCall : t.InCall
  operands : s.KeepsOperands t
  n : t.n = s.n
  viewEnd : t.viewEnd = s.viewEnd
  draws : t.draws = s.draws
  out : s.op = .decodeInPlace → t.out = s.out
  checked : t.phase ≠ .check
  stepsLeft : t.stepsLeft < s.stepsLeft
  outcome : ∃ bs, s.unread = bs ++ t.unread ∧ ∀ rest, t.outcome rest = s.outcome (bs ++ rest)

theorem State.GoesOnTo.trans {s t u : State} (h : s.GoesOnTo t) (h' : t.GoesOnTo u) : s.GoesOnTo u where
  inCall := h'.inCall
  operands := h.operands.trans h'.operands
  n := h'.n.trans h.n
  viewEnd := h'.viewEnd.trans h.viewEnd
  draws := h'.draws.trans h.draws
  out := fun ho => (h'.out (by rwa [h.operands.op])).trans (h.out ho)
  checked := h'.checked
  stepsLeft := h'.stepsLeft.trans h.stepsLeft
  outcome := by
    obtain ⟨bs, hbs, hr⟩ := h.outcome
    obtain ⟨bs', hbs', hr'⟩ := h'.outcome
    exact ⟨bs ++ bs', by rw [hbs, hbs', List.append_assoc], fun rest => by rw [hr', hr, List.append_assoc]⟩

/-- The call at `s` goes on to a later state, or it ends with the result it was heading for. -/
def State.Proceeds (s : State) (r : Result) : Prop :=
  (∃ t, r = .next t ∧ s.GoesOnTo t) ∨ r = .next (s.deliver (s.outcome s.unread))

/-! ## The input -/

theorem unread_nil {s : State} (h : s.InCall) (hi : s.i = s.n) : s.unread = [] := by
  rw [State.unread, hi, ← h.sourceLength, ← Memory.bytes_length, List.drop_length]

theorem unread_of_start {s : State} (hi : s.i = 0) : s.unread = s.source.bytes := by
  rw [State.unread, hi, List.drop_zero]

/-- The byte at I is the first unread byte. -/
theorem source_bytes_of_currentByte {s : State} {b : Byte} (h : s.InCall) (hc : s.currentByte = some b) :
    s.source.bytes[s.i]? = some b := by
  rw [← Memory.read_eq _ h.sourceWf]
  exact source_read_of_currentByte hc

theorem unread_cons {s : State} {b : Byte} (h : s.InCall) (hc : s.currentByte = some b) :
    s.unread = b :: s.source.bytes.drop (s.i + 1) := by
  obtain ⟨hi, hb⟩ := List.getElem?_eq_some_iff.1 (source_bytes_of_currentByte h hc)
  rw [State.unread, List.drop_eq_getElem_cons hi, hb]

/-- While a byte is left, there is a byte at I. -/
theorem currentByte_of_lt {s : State} (h : s.InCall) (hi : s.i < s.n) : ∃ b, s.currentByte = some b := by
  have hlen : s.i < s.source.bytes.length := by rwa [Memory.bytes_length, h.sourceLength]
  exact ⟨s.source.bytes[s.i], by simp [State.currentByte, hi, Memory.read_eq _ h.sourceWf]⟩

/-- `last` says that no byte follows. -/
theorem last_eq_isEmpty {s : State} {b : Byte} (h : s.InCall) (hc : s.currentByte = some b) :
    s.last = (s.source.bytes.drop (s.i + 1)).isEmpty := by
  have hi := currentByte_lt hc
  have hlen : s.source.bytes.length = s.n := by rw [Memory.bytes_length, h.sourceLength]
  rw [Bool.eq_iff_iff, List.isEmpty_iff, List.drop_eq_nil_iff, hlen]
  simp only [State.last, beq_iff_eq]
  omega

/-! ## The transitions of a decode call -/

/-- A transition that drops the byte at I goes on. -/
theorem drop_goesOn {s : State} {b : Byte} {next : FsmState} (h : s.InCall) (hp : s.phase = .scan)
    (ho : s.op ≠ .encode) (hc : s.currentByte = some b)
    (ha : ∀ last, fsmStep s.cfg s.st b last = .drop next) :
    ∃ t, s.drop next = .next t ∧ s.GoesOnTo t := by
  have hlt := currentByte_lt hc
  have hpayload : ({ s with rem := s.rem + 1, st := next, i := s.i + 1 } : State).payload = s.payload := by
    simp only [State.payload, Nat.add_sub_add_right]
  refine ⟨_, rfl, ?_⟩
  exact {
    inCall := {
      h with
      index := hlt
      rem := Nat.succ_le_succ h.rem
      remPos := fun _ _ => Nat.succ_pos _
      start := fun hno => absurd hp hno }
    operands := drop_keepsOperands rfl
    n := rfl
    viewEnd := rfl
    draws := rfl
    out := fun _ => rfl
    checked := by simp [hp]
    stepsLeft := by rw [stepsLeft_scan hp, stepsLeft_scan (by exact hp)]; simp only; omega
    outcome := ⟨[b], unread_cons h hc, fun rest => by
      rw [outcome_decode_scan (by exact hp) (by exact ho), outcome_decode_scan hp ho, hpayload]
      exact (fsmRun_drop (ha _)).symm⟩ }

/-- An emission goes on when it delivers its byte and leaves the bytes to read. -/
theorem goesOn_of_emit {s t : State} {b v : Byte} {next : FsmState} (h : s.InCall) (hp : s.phase = .scan)
    (ho : s.op ≠ .encode) (hc : s.currentByte = some b) (ha : ∀ last, fsmStep s.cfg s.st b last = .emit v next)
    (hemit : s.emit v next = .next t) (ht : t.InCall) (hunread : t.unread = s.source.bytes.drop (s.i + 1))
    (hpayload : t.payload = s.payload ++ [v]) : s.GoesOnTo t := by
  have hlt := currentByte_lt hc
  have hkeeps := emit_keepsOperands hemit
  obtain ⟨hn, hend, hdraws, hphase, hi, hst, hout⟩ : t.n = s.n ∧ t.viewEnd = s.viewEnd ∧ t.draws = s.draws ∧
      t.phase = s.phase ∧ t.i = s.i + 1 ∧ t.st = next ∧ (s.op = .decodeInPlace → t.out = s.out) := by
    rcases emit_effect hemit with ⟨-, -, m, -, rfl⟩ | ⟨hip, m, -, rfl⟩
    · exact ⟨rfl, rfl, rfl, rfl, rfl, rfl, fun _ => rfl⟩
    · exact ⟨rfl, rfl, rfl, rfl, rfl, rfl, fun hip' => absurd hip' hip⟩
  refine ⟨ht, hkeeps, hn, hend, hdraws, hout, by simp [hphase, hp], ?_, [b], ?_, fun rest => ?_⟩
  · rw [stepsLeft_scan hp, stepsLeft_scan (hphase.trans hp), hn, hi]
    omega
  · rw [hunread, unread_cons h hc, List.singleton_append]
  · rw [outcome_decode_scan (hphase.trans hp) (by rwa [hkeeps.op]), outcome_decode_scan hp ho, hkeeps.params,
      hkeeps.cfg, hst, hpayload]
    exact (fsmRun_emit (ha _)).symm

/-- A transition that emits a byte goes on: in place it writes below the byte it read, so the bytes to read stay. -/
theorem emit_goesOn {s : State} {b v : Byte} {next : FsmState} (h : s.InCall) (hp : s.phase = .scan)
    (ho : s.op ≠ .encode) (hst : s.st ≠ .expectOpeningFend) (hc : s.currentByte = some b)
    (ha : ∀ last, fsmStep s.cfg s.st b last = .emit v next) :
    ∃ t, s.emit v next = .next t ∧ s.GoesOnTo t := by
  have hlt := currentByte_lt hc
  have hrem := h.rem
  have hremPos := h.remPos ho hst
  have hremSucc : s.rem ≤ s.i + 1 := Nat.le_succ_of_le hrem
  by_cases hip : s.op = .decodeInPlace
  · have hwf := h.sourceWf
    have hlen := h.sourceLength
    rw [source_of_inPlace hip] at hwf hlen
    have hin : s.i - s.rem < s.buf.length := by omega
    have hemit := emit_inPlace v next hip hwf hrem hin
    refine ⟨_, hemit, goesOn_of_emit h hp ho hc ha hemit ?_ ?_ ?_⟩
    · exact {
        h with
        sourceWf := by rw [source_of_inPlace (by exact hip)]; exact Memory.wf_ofBytes _
        sourceLength := by rw [source_of_inPlace (by exact hip)]; simpa using hlen
        index := hlt
        rem := hremSucc
        remPos := fun _ _ => hremPos
        start := fun hno => absurd hp hno }
    · rw [State.unread, source_of_inPlace (by exact hip), source_of_inPlace hip, Memory.bytes_ofBytes]
      exact List.drop_set_of_lt (show s.i - s.rem < s.i + 1 by omega)
    · simp only [State.payload, hip, if_true, Memory.bytes_ofBytes]
      rw [show s.i + 1 - s.rem = s.i - s.rem + 1 by omega, List.take_add_one, List.take_set_of_le (le_refl _)]
      simp [hin]
  · have hemit := emit_out v next hip h.outLength
    refine ⟨_, hemit, goesOn_of_emit h hp ho hc ha hemit ?_ ?_ ?_⟩
    · exact {
        h with
        index := hlt
        outWf := Memory.append_wf _ _ h.outWf _ _ (Memory.append_at_end _ _ _ h.outLength.symm)
        outLength := by simp [h.outLength]
        rem := hremSucc
        remPos := fun _ _ => hremPos
        start := fun hno => absurd hp hno }
    · rfl
    · simp [State.payload, hip, Memory.bytes]

/-- Overwriting a space by its own first bytes changes nothing. -/
theorem Memory.overwrite_front {m : Memory} {k : Nat} (hw : m.wf = true) (hk : k ≤ m.length) :
    m.overwrite (m.bytes.take k) = m := by
  rw [Memory.overwrite, List.length_take, Memory.bytes_length, min_eq_left hk, List.take_append_drop,
    ← Memory.eq_ofBytes m hw]

/-- `Accept` ends the call with the payload delivered so far. -/
theorem accept_delivers {s : State} (h : s.InCall) : s.accept = .next (s.deliver (.ok s.payload)) := by
  have hrem := h.rem
  have hi := h.index
  by_cases hip : s.op = .decodeInPlace
  · have hwf := h.sourceWf
    have hlen := h.sourceLength
    rw [source_of_inPlace hip] at hwf hlen
    have hend : s.payload.length = s.i - s.rem := by simp [State.payload, hip]; omega
    have hbuf : s.buf.overwrite s.payload = s.buf := by
      simp only [State.payload, hip, if_true]
      exact Memory.overwrite_front hwf (by omega)
    rw [accept_inPlace hip hrem, deliver_inPlace hip, State.deliverView, hbuf, hend]
  · have hout : s.out.front s.olen = Memory.ofBytes s.payload := by
      simp only [State.payload, hip, if_false]
      rw [Memory.front_all h.outLength.le, ← Memory.eq_ofBytes _ h.outWf]
    rw [accept_out hip, deliver_not_inPlace hip, deliverOut_ok, State.returnOut, hout]

/-- The step of a frame byte goes on or ends the call as it was bound to. -/
theorem perform_proceeds {s : State} {b : Byte} (h : s.InCall) (hp : s.phase = .scan) (ho : s.op ≠ .encode)
    (hc : s.currentByte = some b) : s.Proceeds (s.perform (fsmStep s.cfg s.st b s.last)) := by
  have hd := h.checked (by simp [hp])
  have hlast := last_eq_isEmpty h hc
  have hunread := unread_cons h hc
  rcases fsmStep_cases hd s.st b s.last with
    ⟨-, -, ha⟩ | ⟨-, -, ha⟩ | ⟨hst, -, v, ha⟩ | ⟨-, -, ha⟩ | ⟨k, ha⟩
  · rw [ha]
    exact .inl (drop_goesOn h hp ho hc (fsmStep_of_last ha (by simp) (by simp)))
  · rw [ha]
    exact .inl (drop_goesOn h hp ho hc (fsmStep_of_last ha (by simp) (by simp)))
  · rw [ha]
    exact .inl (emit_goesOn h hp ho hst hc (fsmStep_of_last ha (by simp) (by simp)))
  · refine .inr ?_
    rw [outcome_decode_scan hp ho, hunread, fsmRun_accept (hlast ▸ ha), ha]
    exact accept_delivers h
  · refine .inr ?_
    rw [outcome_decode_scan hp ho, hunread, fsmRun_fail (hlast ▸ ha), ha, deliver_err]
    rfl

/-- A wire symbol that is an escape pair goes on, by its two transitions. -/
theorem consumePair_goesOn {s : State} {v tr : Byte} (h : s.InCall) (hp : s.phase = .scan) (ho : s.op ≠ .encode)
    (hst : s.st = .normal) (hc : s.currentByte = some s.cfg.fesc) (hf : s.followingByte = some tr)
    (hv : tr = s.cfg.tfend ∧ v = s.cfg.fend ∨ tr = s.cfg.tfesc ∧ v = s.cfg.fesc) :
    ∃ t, s.consumePair v = .next t ∧ s.GoesOnTo t := by
  obtain ⟨-, -, -, -, -, htrades⟩ := (distinct4_iff _).1 (h.checked (by simp [hp]))
  obtain ⟨u, hu, hgo⟩ := drop_goesOn (next := .afterEscape) h hp ho hc (by simp [hst, fsmStep])
  obtain rfl : { s with rem := s.rem + 1, st := .afterEscape, i := s.i + 1 } = u := by
    simpa [State.drop] using hu
  obtain ⟨t, ht, hgo'⟩ := emit_goesOn (v := v) (next := .normal) hgo.inCall hp ho (by simp) hf (by
    rcases hv with ⟨rfl, rfl⟩ | ⟨rfl, rfl⟩
    · simp [fsmStep]
    · simp [fsmStep, htrades.symm])
  exact ⟨t, by rw [State.consumePair, hu, andThen_next, ht], hgo.trans hgo'⟩

/-! ## The steps of an ENCODE call -/

/-- A step that emits the symbol of the payload byte at I goes on. -/
theorem goesOn_of_symbol {s t : State} {b : Byte} (h : s.InCall) (hp : s.phase = .scan) (ho : s.op = .encode)
    (hc : s.currentByte = some b) (hkeeps : s.KeepsOperands t) {m : Memory} {k : Nat} (hm : m.wf = true)
    (hlen : m.length = s.olen + k) (hbytes : m.bytes = s.out.bytes ++ esc s.cfg b)
    (ht : t = { s with out := m, olen := s.olen + k, i := s.i + 1 }) : s.GoesOnTo t := by
  subst ht
  have hlt := currentByte_lt hc
  exact {
    inCall := {
      h with
      index := hlt
      outWf := hm
      outLength := hlen
      rem := Nat.le_succ_of_le h.rem
      start := fun hno => absurd hp hno }
    operands := hkeeps
    n := rfl
    viewEnd := rfl
    draws := rfl
    out := by simp [ho]
    checked := by simp [hp]
    stepsLeft := by rw [stepsLeft_scan hp, stepsLeft_scan (by exact hp)]; simp only; omega
    outcome := ⟨[b], unread_cons h hc, fun rest => by
      rw [outcome_encode_scan (by exact hp) (by exact ho), outcome_encode_scan hp ho, hbytes]
      simp [escAll]⟩ }

/-- The step of a payload byte goes on. -/
theorem encode_byte_goesOn {s : State} {b : Byte} (h : s.InCall) (hp : s.phase = .scan) (ho : s.op = .encode)
    (hc : s.currentByte = some b) :
    ∃ t, (if b = s.cfg.fesc then s.emitPair s.cfg.tfesc
      else if b = s.cfg.fend then s.emitPair s.cfg.tfend else s.emitByte b) = .next t ∧ s.GoesOnTo t := by
  have hpair : ∀ v, esc s.cfg b = [s.cfg.fesc, v] → ∃ t, s.emitPair v = .next t ∧ s.GoesOnTo t := by
    intro v hesc
    have hemit := emitPair_cells v h.outLength
    obtain ⟨m, m', hm, hm', ht⟩ := emitPair_effect hemit
    have hml : m.length = s.olen + 1 := by rw [Memory.append_length_at_end hm h.outLength.symm, h.outLength]
    refine ⟨_, hemit, goesOn_of_symbol (k := 2) h hp ho hc (emitPair_keepsOperands hemit)
      (Memory.append_wf _ _ (Memory.append_wf _ _ h.outWf _ _ hm) _ _ hm') ?_ ?_ ht⟩
    · rw [Memory.append_length_at_end hm' hml.symm, hml]
    · rw [hesc, Memory.append_bytes (hml ▸ hm'), Memory.append_bytes (h.outLength ▸ hm)]
      simp
  by_cases he : b = s.cfg.fesc
  · rw [if_pos he]
    exact hpair _ (by simp [esc, he])
  · by_cases hf : b = s.cfg.fend
    · rw [if_neg he, if_pos hf]
      exact hpair _ (by simp [esc, if_neg he, if_pos hf])
    · rw [if_neg he, if_neg hf]
      have hemit := emitByte_cells b h.outLength
      obtain ⟨m, hm, ht⟩ := emitByte_effect hemit
      refine ⟨_, hemit, goesOn_of_symbol (k := 1) h hp ho hc (emitByte_keepsOperands hemit)
        (Memory.append_wf _ _ h.outWf _ _ hm) ?_ ?_ ht⟩
      · rw [Memory.append_length_at_end hm h.outLength.symm, h.outLength]
      · rw [Memory.append_bytes (h.outLength ▸ hm)]
        simp [esc, he, hf]

/-- The open step goes on to the scan, with the flag in OUT. -/
theorem openFrame_goesOn {s : State} (h : s.InCall) (hp : s.phase = .opening) :
    ∃ t, s.openFrame = .next t ∧ s.GoesOnTo t := by
  have ho := h.opening hp
  obtain ⟨hst, hi, hout⟩ := h.start (by simp [hp])
  have hopen := openFrame_cells h.outLength
  refine ⟨_, hopen, ?_⟩
  exact {
    inCall := {
      h with
      outWf := Memory.append_wf _ _ h.outWf _ _ (Memory.append_at_end _ _ _ h.outLength.symm)
      outLength := by simp [h.outLength]
      start := by simp
      opening := by simp
      checked := fun _ => h.checked (by simp [hp]) }
    operands := openFrame_keepsOperands hopen
    n := rfl
    viewEnd := rfl
    draws := rfl
    out := by simp [ho]
    checked := by simp
    stepsLeft := by simp [State.stepsLeft, hp]
    outcome := ⟨[], rfl, fun rest => by
      rw [outcome_encode_scan rfl (by exact ho)]
      simp [State.outcome, hp, hout, Memory.bytes, frameOf]⟩ }

/-- The close step ends the call with its frame. -/
theorem closeFrame_delivers {s : State} (h : s.InCall) (hp : s.phase = .scan) (ho : s.op = .encode)
    (hi : s.i = s.n) : s.closeFrame = .next (s.deliver (s.outcome s.unread)) := by
  have hcells : s.out ++ [(s.olen, s.cfg.fend)] = Memory.ofBytes (s.out.bytes ++ [s.cfg.fend]) := by
    have happend := Memory.append_eq s.out h.outWf s.cfg.fend
    rw [Memory.append_at_end _ _ _ rfl, h.outLength] at happend
    exact Option.some.inj happend
  rw [closeFrame_cells h.outLength, outcome_encode_scan hp ho, unread_nil h hi, deliver_not_inPlace (by simp [ho]),
    deliverOut_ok, hcells]
  rfl

/-! ## Every step -/

/-- A check that passes goes on with nothing read. -/
theorem check_passed_goesOn {s : State} (h : s.InCall) (hp : s.phase = .check) (hd : distinct4 s.cfg = true) :
    s.GoesOnTo { s with phase := if s.op = .encode then .opening else .scan } := by
  obtain ⟨hst, hi, hout⟩ := h.start (by simp [hp])
  by_cases ho : s.op = .encode
  · rw [if_pos ho]
    exact {
      inCall := { h with
        start := fun _ => h.start (by simp [hp])
        opening := fun _ => ho
        checked := fun _ => hd }
      operands := ⟨rfl, rfl, rfl, rfl, rfl, rfl, rfl, fun _ => rfl⟩
      n := rfl
      viewEnd := rfl
      draws := rfl
      out := fun _ => rfl
      checked := by simp
      stepsLeft := by simp [State.stepsLeft, hp]
      outcome := ⟨[], rfl, fun rest => by simp [State.outcome, hp, ho, callResult, encodeFn, hd]⟩ }
  · rw [if_neg ho]
    have hpayload : ({ s with phase := .scan } : State).payload = [] := by
      simp [State.payload, hi, hout, Memory.bytes]
    have hresult : ∀ rest, callResult s.params s.cfg s.op rest = decodeFn s.params s.cfg rest := by
      cases hop : s.op <;> simp_all [callResult]
    exact {
      inCall := { h with
        start := by simp
        opening := by simp
        checked := fun _ => hd }
      operands := ⟨rfl, rfl, rfl, rfl, rfl, rfl, rfl, fun _ => rfl⟩
      n := rfl
      viewEnd := rfl
      draws := rfl
      out := fun _ => rfl
      checked := by simp
      stepsLeft := by simp [State.stepsLeft, hp]
      outcome := ⟨[], rfl, fun rest => by
        rw [outcome_decode_scan rfl (by exact ho), hpayload]
        simp [hst, fsmRun_start _ hd, State.outcome, hp, hresult]⟩ }

/-- Every step of a call goes on, or ends the call with the result it was heading for. -/
theorem step_proceeds {s : State} (h : s.InCall) : s.Proceeds (step s) := by
  cases hp : s.phase with
  | check =>
    rw [step_check h.busy hp]
    cases hd : distinct4 s.cfg with
    | true => exact .inl ⟨_, rfl, check_passed_goesOn h hp hd⟩
    | false =>
      refine .inr ?_
      simp [State.outcome, hp, callResult_of_duplicate hd]
  | opening =>
    rw [step_encode_open h.busy hp (h.opening hp)]
    exact .inl (openFrame_goesOn h hp)
  | scan =>
    have hd := h.checked (by simp [hp])
    rcases Nat.lt_or_eq_of_le h.index with hi | hi
    · obtain ⟨b, hc⟩ := currentByte_of_lt h hi
      by_cases ho : s.op = .encode
      · rw [step_encode_byte h.busy hp ho hc]
        exact .inl (encode_byte_goesOn h hp ho hc)
      · by_cases hl : s.level = .symbol
        · rcases step_decode_symbol hd h.busy hp ho hl hc with hstep | ⟨v, hst, rfl, hf, hstep⟩
          · rw [hstep]
            exact perform_proceeds h hp ho hc
          · rw [hstep]
            refine .inl ?_
            rcases hf with ⟨hf, hv⟩ | ⟨hf, hv⟩
            · exact consumePair_goesOn h hp ho hst hc hf (.inl ⟨rfl, hv⟩)
            · exact consumePair_goesOn h hp ho hst hc hf (.inr ⟨rfl, hv⟩)
        · rw [step_decode_byte hd h.busy hp ho hc (fun h' => absurd h' hl)]
          exact perform_proceeds h hp ho hc
    · refine .inr ?_
      by_cases ho : s.op = .encode
      · rw [step_encode_close h.busy hp ho hi, closeFrame_delivers h hp ho hi]
      · rw [step_decode_eof h.busy hp ho hi, outcome_decode_scan hp ho, unread_nil h hi, fsmRun, deliver_err]

/-- Settles O39: whether the step goes on or ends the call, it answers a state. -/
theorem callInProgressNeverStops : Obligations.CallInProgressNeverStops := by
  intro s hinv hb
  rcases step_proceeds (inCall_of_inv hinv hb) with ⟨t, ht, -⟩ | ht
  · exact ⟨t, ht⟩
  · exact ⟨_, ht⟩

end Sys2Proof.Machine
end

section
/-! SUPPORT. The width of the index and count registers (R10, R11, R236). -/

namespace Sys2Proof.Machine

/-! ## What fits -/

theorem fits_of_le {p : Params} {x y : Nat} (h : x ≤ y) (hy : fits p y = true) : fits p x = true := by
  cases hw : p.idxW with
  | none => simp [fits, hw]
  | some w =>
    simp only [fits, hw, decide_eq_true_eq] at hy ⊢
    omega

/-- A free value has the width of its register (R39). -/
theorem fits_freeIndex (s : State) (register : Nat) : fits s.params (s.freeIndex register) = true := by
  cases hw : s.params.idxW with
  | none => simp [fits, hw]
  | some w => simp [fits, State.freeIndex, hw, Nat.mod_lt]

/-- A finite IDX_W holds twice an accepted length, and the two flags (R11). -/
theorem fits_of_admits {p : Params} {op : Op} {n : Nat} (hp : paramsOk p = true) (ha : admits p op n = true) :
    fits p (2 * n + 2) = true := by
  simp only [paramsOk, Bool.and_eq_true] at hp
  obtain ⟨⟨hwidth, -⟩, -⟩ := hp
  simp only [admits, Bool.and_eq_true] at ha
  obtain ⟨hin, -⟩ := ha
  cases hw : p.idxW with
  | none => simp [fits, hw]
  | some w =>
    cases hc : p.capIn with
    | none => simp [hw, hc] at hwidth
    | some cap =>
      simp only [hw, hc, decide_eq_true_eq] at hwidth
      simp only [within, hc, decide_eq_true_eq] at hin
      simp only [fits, hw, decide_eq_true_eq]
      omega

theorem registersFit_iff (s : State) : s.registersFit = true ↔
    fits s.params s.i = true ∧ fits s.params s.n = true ∧ fits s.params s.rem = true ∧
      fits s.params s.olen = true ∧ fits s.params s.viewEnd = true := by
  simp [State.registersFit, and_assoc]

theorem accepted_iff (s : State) :
    s.accepted = true ↔ (s.status = .busy → admits s.params s.op s.n = true) := by
  by_cases hb : s.status = .busy <;> simp [State.accepted, hb]

/-! ## While a call runs -/

/-- The registers of a running call are bounded by its length: OLEN counts two bytes for a byte consumed, and a flag. -/
theorem registers_le_of_inv {s : State} (hinv : s.Inv) (hb : s.status = .busy) :
    s.i ≤ s.n ∧ s.rem ≤ s.n ∧ s.olen ≤ 2 * s.n + 2 := by
  have hcall := inCall_of_inv hinv hb
  have hi := hcall.index
  have hrem := hcall.rem
  refine ⟨hi, by omega, ?_⟩
  by_cases hp : s.phase = .scan
  · by_cases ho : s.op = .encode
    · obtain ⟨-, -, -, hd, hs⟩ := (inv_encode_scan_iff hb hp ho).1 hinv
      obtain ⟨-, -, holen⟩ := (encScan_iff s).1 hs
      obtain ⟨hne, -⟩ := (distinct4_iff _).1 hd
      have hcount := count_add_count_le hne (s.inp.bytes.take s.i)
      have htake := List.length_take_le s.i s.inp.bytes
      omega
    · obtain ⟨-, -, -, -, hs⟩ := (inv_decode_scan_iff hb hp ho).1 hinv
      obtain ⟨-, -, -, hdecode, hinPlace, -, -⟩ := (decScan_iff s).1 hs
      by_cases hip : s.op = .decodeInPlace
      · obtain ⟨holen, -⟩ := hinPlace hip
        omega
      · obtain ⟨holen, -⟩ := hdecode (op_eq_decode ho hip)
        omega
  · obtain ⟨-, -, hstart, -, -⟩ := (inv_before_scan_iff hb hp).1 hinv
    obtain ⟨-, -, -, holen, -⟩ := (atStart_iff s).1 hstart
    omega

theorem registersFit_of_running {s : State} (hinv : s.Inv) (hb : s.status = .busy) (hp : paramsOk s.params = true)
    (ha : admits s.params s.op s.n = true) (hend : fits s.params s.viewEnd = true) : s.registersFit = true := by
  obtain ⟨hi, hrem, holen⟩ := registers_le_of_inv hinv hb
  have hfit := fits_of_admits hp ha
  exact (registersFit_iff s).2 ⟨fits_of_le (by omega) hfit, fits_of_le (by omega) hfit, fits_of_le (by omega) hfit,
    fits_of_le holen hfit, hend⟩

/-! ## After a call -/

/-- The end of a call leaves free values in the registers, but for the END of a view. -/
theorem deliver_registersFit {s : State} {r : CallResult} (hend : fits s.params s.viewEnd = true)
    (hview : ∀ bs, s.op = .decodeInPlace → r = .ok bs → fits s.params bs.length = true) :
    (s.deliver r).registersFit = true := by
  have hfree := fits_freeIndex s
  cases r with
  | err k =>
    rw [deliver_err]
    exact (registersFit_iff _).2 ⟨hfree 0, hfree 1, hfree 2, hfree 3, hfree 4⟩
  | ok bs =>
    by_cases ho : s.op = .decodeInPlace
    · rw [deliver_inPlace ho]
      exact (registersFit_iff _).2 ⟨hfree 0, hfree 1, hfree 2, hfree 3, hview bs ho rfl⟩
    · rw [deliver_not_inPlace ho]
      exact (registersFit_iff _).2 ⟨hfree 0, hfree 1, hfree 2, hfree 3, hend⟩

/-- The view a call delivers in place is shorter than BUF by the two flags (R194). -/
theorem view_length_of_inv {s : State} {bs : List Byte} (hinv : (s.deliver (.ok bs)).Inv)
    (hip : s.op = .decodeInPlace) (hbuf : (s.deliver (.ok bs)).buf.length = s.buf.length) :
    bs.length + 2 ≤ s.buf.length := by
  rw [deliver_inPlace hip] at hinv hbuf
  obtain ⟨hok, hend, -⟩ := deliverView_ok_view s bs
  obtain ⟨-, -, -, -, hdelivered⟩ := hinv
  obtain ⟨-, hview⟩ := hdelivered hok
  rw [← hend, ← hbuf]
  exact hview hip

theorem deliver_accepted (s : State) (r : CallResult) : (s.deliver r).accepted = true :=
  (accepted_iff _).2 fun hb => absurd hb (deliver_status_ne_busy s r)

/-! ## Every step -/

/-- What the step of a block without a call in progress does: nothing, or an accepted call's start or whole. -/
theorem step_not_busy_accepts {s t : State} (hb : s.status ≠ .busy) (h : step s = .next t) :
    t = s ∨ ∃ op c data, admits s.params op data.length = true ∧
      (t = ({ s with req := none } : State).startCall op c data ∨
        t = (({ s with req := none } : State).startCall op c data).deliver (callResult s.params c op data)) := by
  rw [step, fetch_of_not_busy hb, takeRequest_of_not_busy hb] at h
  cases hf : s.fetchRequest with
  | idle =>
    rw [hf] at h
    cases h
    exact .inl rfl
  | start op c data =>
    rw [hf] at h
    obtain ⟨-, ha, ht⟩ := begin_cases h
    exact .inr ⟨op, c, data, ha, .inl ht⟩
  | run i =>
    rw [hf] at h
    obtain ⟨op, c, data, rfl⟩ := fetchRequest_run hf
    obtain ⟨-, ha, ht⟩ := exec_call_cases h
    exact .inr ⟨op, c, data, ha, .inr ht⟩
  | refuse r => rw [hf] at h; cases h
  | stop f => rw [hf] at h; cases h

/-- A step of a call in progress keeps the bound. -/
theorem step_busy_registersFit {s t : State} (hinv : s.Inv) (hb : s.status = .busy) (hp : paramsOk s.params = true)
    (hfit : s.registersFit = true) (ha : admits s.params s.op s.n = true) (h : step s = .next t) :
    t.registersFit = true ∧ t.accepted = true ∧ t.params = s.params := by
  have hcall := inCall_of_inv hinv hb
  have htinv := everyStepKeepsInvariant s t hinv h
  have hkeeps := step_keepsOperands hb h
  obtain ⟨-, -, -, -, hend⟩ := (registersFit_iff s).1 hfit
  rcases step_proceeds hcall with ⟨u, hu, hgo⟩ | hended
  · cases h.symm.trans hu
    have ha' : admits t.params t.op t.n = true := by rwa [hkeeps.params, hkeeps.op, hgo.n]
    refine ⟨registersFit_of_running htinv hgo.inCall.busy (by rwa [hkeeps.params]) ha' ?_,
      (accepted_iff t).2 fun _ => ha', hkeeps.params⟩
    rwa [hkeeps.params, hgo.viewEnd]
  · cases h.symm.trans hended
    refine ⟨deliver_registersFit hend fun bs hip hok => ?_, deliver_accepted _ _, hkeeps.params⟩
    rw [hok] at htinv hkeeps
    have hlen := hcall.sourceLength
    rw [source_of_inPlace hip] at hlen
    have hbound := view_length_of_inv htinv hip hkeeps.bufLength
    exact fits_of_le (by omega) (fits_of_admits hp ha)

/-- Settles O40: a running call's registers are bounded by its accepted length, and those of an ended call are free
values of the register's width. -/
theorem registersNeverExceedTheirWidth : Obligations.RegistersNeverExceedTheirWidth := by
  intro s t hinv hp hfit hacc h
  by_cases hb : s.status = .busy
  · exact step_busy_registersFit hinv hb hp hfit ((accepted_iff s).1 hacc hb) h
  · have htinv := everyStepKeepsInvariant s t hinv h
    rcases step_not_busy_accepts hb h with rfl | ⟨op, c, data, ha, rfl | rfl⟩
    · exact ⟨hfit, hacc, rfl⟩
    · exact ⟨registersFit_of_running htinv rfl hp ha (fits_freeIndex s 4), (accepted_iff _).2 fun _ => ha, rfl⟩
    · refine ⟨deliver_registersFit (fits_freeIndex s 4) fun bs hip hok => ?_, deliver_accepted _ _,
        deliver_params _ _⟩
      obtain rfl : op = .decodeInPlace := hip
      have hbound := decodeFn_length hok
      exact fits_of_le (show bs.length ≤ 2 * data.length + 2 by omega) (fits_of_admits hp ha)

end Sys2Proof.Machine
end

section
/-! SUPPORT. A call run step by step ends as the call as one function does, at every level (R7, R8, R233). -/

namespace Sys2Proof.Machine

/-! ## From a call in progress to its end -/

/-- An ended call: the internal registers are released (R39), and the rest is what the end delivers. -/
def State.ended (s : State) (status : Status) (viewEnd : Nat) (out buf : Memory) : State :=
  { s.release with status := status, viewEnd := viewEnd, out := out, buf := buf }

theorem raise_eq_ended (s : State) (k : ErrKind) :
    s.raise k = s.ended (.err k) (s.freeIndex 4) (s.outAfter k) (s.bufAfter k) := rfl

theorem deliverOut_eq_ended (s : State) (bs : List Byte) :
    s.deliverOut (.ok bs) = s.ended .ok s.viewEnd (Memory.ofBytes bs) s.buf := deliverOut_ok s bs

theorem deliverView_eq_ended (s : State) (bs : List Byte) :
    s.deliverView (.ok bs) = s.ended .ok bs.length s.out ((s.buf.overwrite bs).freeFrom bs.length s.draws) := rfl

section

variable {s t : State} (h : s.InCall) (hgo : s.GoesOnTo t)
include hgo

theorem freeIndex_of_goesOn (register : Nat) : t.freeIndex register = s.freeIndex register := by
  simp [State.freeIndex, hgo.operands.params, hgo.draws]

theorem ended_of_goesOn (status : Status) (viewEnd : Nat) (out buf : Memory) :
    t.ended status viewEnd out buf = s.ended status viewEnd out buf := by
  have hkeeps := hgo.operands
  have hfree := freeIndex_of_goesOn hgo
  apply State.ext <;> simp [State.ended, hkeeps.cfg, hkeeps.inp, hkeeps.op, hkeeps.params, hkeeps.level, hkeeps.req,
    hgo.draws, hfree]

theorem outAfter_of_goesOn {k : ErrKind} (hk : k ≠ .duplicateSpecialChar) : t.outAfter k = s.outAfter k := by
  simp only [State.outAfter, hk, false_or, hgo.operands.op, hgo.draws]
  split
  · exact hgo.out ‹_›
  · rfl

include h

/-- Of BUF the end of a call in place keeps the length and the bytes of the result. -/
theorem buf_freeFrom_of_goesOn (hip : s.op = .decodeInPlace) (draw : Nat) :
    t.buf.freeFrom 0 draw = s.buf.freeFrom 0 draw := by
  have hws := h.sourceWf
  have hwt := hgo.inCall.sourceWf
  rw [source_of_inPlace hip] at hws
  rw [source_of_inPlace (hgo.operands.op.trans hip)] at hwt
  rw [Memory.eq_ofBytes _ hwt, Memory.eq_ofBytes _ hws]
  exact Memory.freeFrom_congr _ _ 0 _ (by simp [hgo.operands.bufLength]) rfl

theorem bufAfter_of_goesOn {k : ErrKind} (hk : k ≠ .duplicateSpecialChar) : t.bufAfter k = s.bufAfter k := by
  simp only [State.bufAfter, hk, false_or, hgo.operands.op, hgo.draws]
  split
  · exact hgo.operands.buf ‹_›
  · exact buf_freeFrom_of_goesOn h hgo (not_not.1 ‹_›) _

/-- A later state of a call ends with the same result in the same state: it differs in registers that the end of the
call releases and in bytes that the result overwrites or leaves open. -/
theorem deliver_of_goesOn {r : CallResult} (hr : r ≠ .err .duplicateSpecialChar) : t.deliver r = s.deliver r := by
  cases r with
  | err k =>
    have hk : k ≠ .duplicateSpecialChar := fun hk => hr (hk ▸ rfl)
    rw [deliver_err, deliver_err, raise_eq_ended, raise_eq_ended, ended_of_goesOn hgo, freeIndex_of_goesOn hgo,
      outAfter_of_goesOn hgo hk, bufAfter_of_goesOn h hgo hk]
  | ok bs =>
    by_cases hip : s.op = .decodeInPlace
    · have hbuf : (t.buf.overwrite bs).freeFrom bs.length s.draws =
          (s.buf.overwrite bs).freeFrom bs.length s.draws :=
        Memory.freeFrom_congr _ _ _ _ (by simp [hgo.operands.bufLength]) (by simp)
      rw [deliver_inPlace hip, deliver_inPlace (hgo.operands.op.trans hip), deliverView_eq_ended,
        deliverView_eq_ended, ended_of_goesOn hgo, hgo.out hip, hgo.draws, hbuf]
    · have hip' : t.op ≠ .decodeInPlace := by rwa [hgo.operands.op]
      rw [deliver_not_inPlace hip, deliver_not_inPlace hip', deliverOut_eq_ended, deliverOut_eq_ended,
        ended_of_goesOn hgo, hgo.viewEnd, hgo.operands.buf hip]

end

/-- Once the check has passed, a call is heading for no error of the check. -/
theorem outcome_ne_duplicate {s : State} (hp : paramsOk s.params = true) (hc : s.phase ≠ .check) (rest : List Byte) :
    s.outcome rest ≠ .err .duplicateSpecialChar := by
  cases hph : s.phase with
  | check => exact absurd hph hc
  | opening => simp [State.outcome, hph]
  | scan =>
    by_cases ho : s.op = .encode
    · simp [outcome_encode_scan hph ho]
    · rw [outcome_decode_scan hph ho]
      exact fsmRun_ne_duplicate hp _ _ _ _

theorem outcome_of_goesOn {s t : State} (hgo : s.GoesOnTo t) : t.outcome t.unread = s.outcome s.unread := by
  obtain ⟨bs, hbs, hr⟩ := hgo.outcome
  rw [hr, hbs]

/-- A call in progress runs to the end it was heading for, and the block stays there. -/
theorem run_inCall {s : State} (h : s.InCall) (hp : paramsOk s.params = true) (hreq : s.req = none) {k : Nat}
    (hk : s.stepsLeft ≤ k) : run k s = .next (s.deliver (s.outcome s.unread)) := by
  induction k generalizing s with
  | zero =>
    have hpos : 1 ≤ s.stepsLeft := by
      rw [State.stepsLeft]
      omega
    omega
  | succ k ih =>
    rcases step_proceeds h with ⟨t, ht, hgo⟩ | hend
    · have hp' : paramsOk t.params = true := by rwa [hgo.operands.params]
      have hlt := hgo.stepsLeft
      rw [run_step ht, ih hgo.inCall hp' (hgo.operands.req.trans hreq) (by omega), deliver_of_goesOn h hgo
        (outcome_ne_duplicate hp' hgo.checked _), outcome_of_goesOn hgo]
    · rw [run_step hend, run_idle (deliver_status_ne_busy _ _) ((deliver_req _ _).trans hreq)]

/-! ## From the request to the end -/

/-- The state in which a requested call starts, the request taken. -/
def State.started (s : State) (op : Op) (c : SpecialChars) (data : List Byte) : State :=
  ({ s with req := none } : State).startCall op c data

theorem started_unread (s : State) (op : Op) (c : SpecialChars) (data : List Byte) :
    (s.started op c data).unread = data := by
  rw [unread_of_start rfl, State.started, startCall_source, Memory.bytes_ofBytes]

theorem started_outcome (s : State) (op : Op) (c : SpecialChars) (data rest : List Byte) :
    (s.started op c data).outcome rest = callResult s.params c op rest := rfl

theorem started_stepsLeft (s : State) (op : Op) (c : SpecialChars) (data : List Byte) :
    (s.started op c data).stepsLeft = data.length + 3 := rfl

/-- N + 4 steps from a request the block takes end the call with its result, at every level. -/
theorem run_call {s : State} {op : Op} {c : SpecialChars} {data : List Byte} (hp : paramsOk s.params = true)
    (hb : s.status ≠ .busy) (hr : s.req = some ⟨op.code, c, data, false⟩)
    (ha : admits s.params op data.length = true) :
    run (data.length + 4) s = .next ((s.started op c data).deliver (callResult s.params c op data)) := by
  by_cases hl : s.level = .call
  · have hstep : step s = .next ((s.started op c data).deliver (callResult s.params c op data)) := by
      rw [stepRunsRequestedCall s _ op hb hl hr (decodeOp_code op) (.inr rfl)]
      exact exec_call_next (s := { s with req := none }) hb ha c
    exact run_one hstep (deliver_status_ne_busy _ _) (deliver_req _ _) _ (by omega)
  · rw [run_step (step_start_of_request hb hl hr ha)]
    have hrun := run_inCall (startCall_inCall _ op c data) (s := s.started op c data) hp rfl
      (k := data.length + 3) (started_stepsLeft s op c data).le
    rwa [started_unread, started_outcome] at hrun

/-- A run from a request that answers a state has taken the request. -/
theorem admits_of_step {s t : State} {op : Op} {c : SpecialChars} {data : List Byte} (hb : s.status ≠ .busy)
    (hr : s.req = some ⟨op.code, c, data, false⟩) (h : step s = .next t) :
    admits s.params op data.length = true := by
  obtain ⟨-, -, hover⟩ := requestsWithoutMeaningAreRefused s _ hb hr
  by_contra hno
  rw [hover op rfl rfl (Bool.eq_false_of_not_eq_true hno)] at h
  cases h

theorem run_call_cases {s t : State} {op : Op} {c : SpecialChars} {data : List Byte} (hp : paramsOk s.params = true)
    (hb : s.status ≠ .busy) (hr : s.req = some ⟨op.code, c, data, false⟩) (h : run (data.length + 4) s = .next t) :
    t = (s.started op c data).deliver (callResult s.params c op data) := by
  obtain ⟨u, hu, -⟩ := andThen_eq_next h
  rw [run_call hp hb hr (admits_of_step hb hr hu)] at h
  cases h
  rfl

/-- Settles O46: the run ends with the result of the call in the state the call answers. -/
theorem stepMachineAgreesWithCall : Obligations.StepMachineAgreesWithCall := by
  intro s t op c data hp hb _ hr h
  obtain ⟨-, ha, rfl⟩ := exec_call_cases h
  exact run_call hp hb hr ha

/-- Settles O47: the run ends with the result of the call, which for ENCODE is a frame or the error of the check. -/
theorem everyCallEnds : Obligations.EveryCallEnds := by
  intro s op c data hp hb hr ha
  refine ⟨_, run_call hp hb hr ha, deliver_req _ _, ?_⟩
  rw [deliver_status]
  cases hres : callResult s.params c op data with
  | ok bs => exact .inl rfl
  | err k =>
    refine .inr ⟨k, rfl, ?_⟩
    rintro rfl
    by_cases hd : distinct4 c = true
    · simp [callResult, encodeFn, hd] at hres
    · simpa [callResult, encodeFn, hd, eq_comm] using hres

/-- Settles O48: the response is read from the result of the call, which depends on the request and the parameters. -/
theorem responseDependsOnRequestOnly : Obligations.ResponseDependsOnRequestOnly := by
  intro s₁ s₂ t₁ t₂ op c data hb₁ hb₂ hparams hp hr₁ hr₂ h₁ h₂
  obtain rfl := run_call_cases hp hb₁ hr₁ h₁
  obtain rfl := run_call_cases (hparams ▸ hp) hb₂ hr₂ h₂
  rw [deliver_response, deliver_response, hparams]
  rfl

/-- One payload, delivered in OUT and as a view. -/
theorem deliver_ok_agree {s u : State} (hs : s.op ≠ .decodeInPlace) (hu : u.op = .decodeInPlace) (p : List Byte) :
    (u.deliver (.ok p)).viewEnd = (s.deliver (.ok p)).out.bytes.length ∧
      (u.deliver (.ok p)).buf.bytes.take (u.deliver (.ok p)).viewEnd = (s.deliver (.ok p)).out.bytes := by
  obtain ⟨-, hend, hview⟩ := deliverView_ok_view u p
  rw [deliver_not_inPlace hs, deliver_inPlace hu, deliverOut_ok, hend, Memory.bytes_ofBytes]
  exact ⟨rfl, hview⟩

/-- Settles O49: both runs end with the one result of the decoders, as OUT and as a view. -/
theorem decodersAgree : Obligations.DecodersAgree := by
  intro s t u c f hp hb ht hu
  obtain rfl := run_call_cases (s := { s with req := some ⟨Op.decode.code, c, f, false⟩ }) hp hb rfl ht
  obtain rfl := run_call_cases (s := { s with req := some ⟨Op.decodeInPlace.code, c, f, false⟩ }) hp hb rfl hu
  rw [deliver_status, deliver_status]
  refine ⟨rfl, fun hok => ?_⟩
  cases hres : decodeFn s.params c f with
  | err k => simp [callResult, hres, CallResult.status] at hok
  | ok p =>
    simp only [callResult, hres]
    exact deliver_ok_agree (by simp [State.started]) rfl p

end Sys2Proof.Machine
end

section
/-! SUPPORT. What the bytes read so far decide (R234): along a run the result ahead depends on the bytes to come alone. -/

namespace Sys2Proof.Machine

/-- While a run from a call in progress has not ended the call, it stands at a later state of the call. -/
theorem goesOn_of_run {s u : State} (h : s.InCall) (hreq : s.req = none) {j : Nat} (hrun : run j s = .next u)
    (hu : u.status = .busy) : u = s ∨ s.GoesOnTo u := by
  induction j generalizing s with
  | zero =>
    cases hrun
    exact .inl rfl
  | succ j ih =>
    rcases step_proceeds h with ⟨t, ht, hgo⟩ | hend
    · rw [run_step ht] at hrun
      rcases ih hgo.inCall (hgo.operands.req.trans hreq) hrun with rfl | hgo'
      · exact .inr hgo
      · exact .inr (hgo.trans hgo')
    · rw [run_step hend, run_idle (deliver_status_ne_busy _ _) ((deliver_req _ _).trans hreq)] at hrun
      cases hrun
      exact absurd hu (deliver_status_ne_busy _ _)

/-- The bytes such a run has read, and the result ahead for whatever bytes follow them. -/
theorem outcome_of_run {s u : State} (h : s.InCall) (hreq : s.req = none) {j : Nat} (hrun : run j s = .next u)
    (hu : u.status = .busy) : u.InCall ∧ s.KeepsOperands u ∧ u.n = s.n ∧
      ∃ bs, s.unread = bs ++ u.unread ∧ ∀ rest, u.outcome rest = s.outcome (bs ++ rest) := by
  rcases goesOn_of_run h hreq hrun hu with rfl | hgo
  · exact ⟨h, .refl _, rfl, [], rfl, fun _ => rfl⟩
  · exact ⟨hgo.inCall, hgo.operands, hgo.n, hgo.outcome⟩

theorem unread_length {s : State} (h : s.InCall) : s.unread.length = s.n - s.i := by
  rw [State.unread, List.length_drop, Memory.bytes_length, h.sourceLength]

/-- A list that begins with the same bytes, the one after `bs` included, has `b` after `bs`. -/
theorem eq_append_cons_of_take {bs rest f : List Byte} {b : Byte}
    (h : f.take (bs.length + 1) = (bs ++ b :: rest).take (bs.length + 1)) :
    f = bs ++ b :: f.drop (bs.length + 1) := by
  calc f = f.take (bs.length + 1) ++ f.drop (bs.length + 1) := (List.take_append_drop _ _).symm
    _ = bs ++ [b] ++ f.drop (bs.length + 1) := by rw [h, List.take_length_add_append]; simp
    _ = bs ++ b :: f.drop (bs.length + 1) := by simp

/-- A transition that ends a call with an error is the action `Fail`. -/
theorem eq_fail_of_perform {s t : State} {a : FsmAction} {k : ErrKind} (hb : s.status = .busy)
    (h : s.perform a = .next t) (hk : t.status = .err k) : a = .fail k := by
  rcases perform_cases h with
    ⟨nx, -, rfl⟩ | ⟨v, nx, -, -, -, m, -, rfl⟩ | ⟨v, nx, -, -, m, -, rfl⟩ | ⟨-, -, -, rfl⟩ | ⟨-, -, rfl⟩ |
    ⟨k', rfl, rfl⟩
  · simp [hb] at hk
  · simp [hb] at hk
  · simp [hb] at hk
  · simp at hk
  · simp at hk
  · simpa using hk

/-- What `fsm_step` fails on it fails on whatever follows; a stray `fend` needs a byte to follow. -/
theorem fsmStep_fail_of_last {c : SpecialChars} {st : FsmState} {b : Byte} {last last' : Bool} {k : ErrKind}
    (h : fsmStep c st b last = .fail k) (hlast : k = .fendCharInData → last' = false) :
    fsmStep c st b last' = .fail k := by
  by_cases hkind : k = .fendCharInData
  · rcases fsmStep_fail h with ⟨-, hk⟩ | ⟨-, hfalse, -⟩ | ⟨-, hk⟩
    · simp [hkind] at hk
    · rwa [hlast hkind, ← hfalse]
    · simp [hkind] at hk
  · exact fsmStep_of_last h (by simp) (by simpa using hkind) last'

/-- A byte step that ends a decode call with an error decides the result by the byte at I. -/
theorem outcome_of_failing_step {s t : State} {b : Byte} {k : ErrKind} (h : s.InCall) (ho : s.op ≠ .encode)
    (hl : s.level ≠ .symbol) (hc : s.currentByte = some b) (hstep : step s = .next t) (hk : t.status = .err k)
    {rest : List Byte} (hstray : k = .fendCharInData → rest ≠ []) : s.outcome (b :: rest) = .err k := by
  cases hp : s.phase with
  | opening => exact absurd (h.opening hp) ho
  | check =>
    rw [step_check h.busy hp] at hstep
    cases hd : distinct4 s.cfg with
    | true =>
      rw [hd, if_pos rfl] at hstep
      cases hstep
      simp [h.busy] at hk
    | false =>
      rw [hd, if_neg (by simp)] at hstep
      cases hstep
      obtain rfl : ErrKind.duplicateSpecialChar = k := by simpa using hk
      simp [State.outcome, hp, callResult_of_duplicate hd]
  | scan =>
    rw [byteStepPerformsFsmStep s b h.busy hp ho hl hc] at hstep
    rw [outcome_decode_scan hp ho]
    exact fsmRun_fail (fsmStep_fail_of_last (eq_fail_of_perform h.busy hstep hk) (by simpa using hstray))

/-- Settles O57: the run reads the bytes that both inputs begin with, so the result ahead is that of the call on the
other input once it reads its own rest; the failing byte is the next of both. -/
theorem errorIsDecidedByPrefix : Obligations.ErrorIsDecidedByPrefix := by
  intro s u t op c f f' j k ho hb hl hr hrun hu hi hstep hk hpre hstray ha
  cases j with
  | zero =>
    cases hrun
    exact absurd hu hb
  | succ j =>
    obtain ⟨s₁, hs₁, hrun⟩ := andThen_eq_next hrun
    rw [step_start_of_request hb (by simp [hl]) hr (admits_of_step hb hr hs₁)] at hs₁
    cases hs₁
    obtain ⟨hcall, hkeeps, hn, bs, hread, hahead⟩ := outcome_of_run (startCall_inCall _ op c f) rfl hrun hu
    change (s.started op c f).unread = bs ++ u.unread at hread
    rw [started_unread] at hread
    obtain ⟨b, hc⟩ := currentByte_of_lt hcall (hi.trans_eq hn.symm)
    have hlen : bs.length = u.i := by
      have hsum := congrArg List.length hread
      rw [List.length_append, unread_length hcall, hn, State.startCall_n] at hsum
      omega
    rw [hread, unread_cons hcall hc, ← hlen] at hpre
    have hf' := eq_append_cons_of_take hpre
    have hrest : k = .fendCharInData → f'.drop (bs.length + 1) ≠ [] := by
      intro hkind hnil
      have hmore := hstray hkind
      rw [List.drop_eq_nil_iff] at hnil
      omega
    have hresult : callResult s.params c op f' = .err k :=
      calc callResult s.params c op f' = callResult s.params c op (bs ++ b :: f'.drop (bs.length + 1)) := by rw [← hf']
        _ = u.outcome (b :: f'.drop (bs.length + 1)) := (hahead _).symm
        _ = .err k := outcome_of_failing_step hcall (hkeeps.op ▸ ho) (by simp [hkeeps.level, hl]) hc hstep hk hrest
    exact ⟨_, exec_call_next hb ha c, by rw [deliver_status, hresult]; rfl⟩

end Sys2Proof.Machine
end

section
/-! SUPPORT. The request port while a call is in progress (R260): a second call is refused, and no step reads or takes
the presented request. -/

namespace Sys2Proof.Machine

theorem begin_callInFlight {s : State} (hb : s.status = .busy) (op : Op) (cfg : SpecialChars) (data : List Byte) :
    s.begin op cfg data = .refused .callInFlight :=
  if_pos hb

/-- Settles O20: the start of a call refuses, and the call with it. -/
theorem noSecondCallInFlight : Obligations.NoSecondCallInFlight :=
  fun _ cfg data op hb => exec_call_refused (begin_callInFlight hb op cfg data)

/-! ## A state with another request presented -/

def State.withRequest (s : State) (q : Option Request) : State := { s with req := q }

@[simp] theorem withRequest_olen (s : State) (q : Option Request) : (s.withRequest q).olen = s.olen := rfl
@[simp] theorem withRequest_out (s : State) (q : Option Request) : (s.withRequest q).out = s.out := rfl
@[simp] theorem withRequest_buf (s : State) (q : Option Request) : (s.withRequest q).buf = s.buf := rfl
@[simp] theorem withRequest_writeIndex (s : State) (q : Option Request) :
    (s.withRequest q).writeIndex = s.writeIndex := rfl
@[simp] theorem withRequest_fetchRow (s : State) (q : Option Request) :
    (s.withRequest q).fetchRow = s.fetchRow := rfl

/-- The answer with another request presented in the state it goes on to. -/
def answerWith (q : Option Request) (r : Result) : Result := andThen r fun t => .next (t.withRequest q)

theorem andThen_answerWith {q : Option Request} {r : Result} {k : State → Result}
    (hk : ∀ t, k (t.withRequest q) = answerWith q (k t)) :
    andThen (answerWith q r) k = answerWith q (andThen r k) := by
  cases r with
  | next t => exact hk t
  | fault f => rfl
  | refused f => rfl

theorem ite_answerWith {q : Option Request} {p : Prop} [Decidable p] {r r' u u' : Result} (hr : r' = answerWith q r)
    (hu : u' = answerWith q u) : (if p then r' else u') = answerWith q (if p then r else u) := by
  by_cases hp : p
  · simpa only [if_pos hp] using hr
  · simpa only [if_neg hp] using hu

theorem whenSelected_answerWith {q : Option Request} {b : Bool} {r r' : Result} (h : r' = answerWith q r) :
    whenSelected b r' = answerWith q (whenSelected b r) :=
  ite_answerWith h rfl

/-! ## The shared operations -/

theorem appendOut_withRequest (s : State) (q : Option Request) (v : Byte) :
    (s.withRequest q).appendOut v = answerWith q (s.appendOut v) := by
  simp only [State.appendOut, withRequest_out, withRequest_olen]
  cases s.out.append s.olen v with
  | some m => rfl
  | none => rfl

theorem storeInPlace_withRequest (s : State) (q : Option Request) (v : Byte) :
    (s.withRequest q).storeInPlace v = answerWith q (s.storeInPlace v) := by
  simp only [State.storeInPlace, withRequest_writeIndex, withRequest_buf]
  cases s.writeIndex with
  | none => rfl
  | some a =>
    cases hm : s.buf.write a v with
    | some m => simp only [hm]; rfl
    | none => simp only [hm]; rfl

theorem storeOutput_withRequest (s : State) (q : Option Request) (v : Byte) :
    (s.withRequest q).storeOutput v = answerWith q (s.storeOutput v) :=
  ite_answerWith (storeInPlace_withRequest s q v) (appendOut_withRequest s q v)

theorem emit_withRequest (s : State) (q : Option Request) (v : Byte) (next : FsmState) :
    (s.withRequest q).emit v next = answerWith q (s.emit v next) := by
  rw [State.emit, storeOutput_withRequest]
  exact andThen_answerWith fun _ => rfl

theorem accept_withRequest (s : State) (q : Option Request) : (s.withRequest q).accept = answerWith q s.accept := by
  refine ite_answerWith ?_ rfl
  rw [withRequest_writeIndex]
  cases s.writeIndex with
  | some e => rfl
  | none => rfl

theorem consumePair_withRequest (s : State) (q : Option Request) (v : Byte) :
    (s.withRequest q).consumePair v = answerWith q (s.consumePair v) :=
  emit_withRequest { s with rem := s.rem + 1, st := .afterEscape, i := s.i + 1 } q v .normal

theorem emitByte_withRequest (s : State) (q : Option Request) (v : Byte) :
    (s.withRequest q).emitByte v = answerWith q (s.emitByte v) := by
  rw [State.emitByte, appendOut_withRequest]
  exact andThen_answerWith fun _ => rfl

theorem emitPair_withRequest (s : State) (q : Option Request) (v : Byte) :
    (s.withRequest q).emitPair v = answerWith q (s.emitPair v) := by
  rw [State.emitPair, appendOut_withRequest]
  exact andThen_answerWith fun t => emitByte_withRequest t q v

theorem openFrame_withRequest (s : State) (q : Option Request) :
    (s.withRequest q).openFrame = answerWith q s.openFrame := by
  rw [State.openFrame, appendOut_withRequest]
  exact andThen_answerWith fun _ => rfl

theorem closeFrame_withRequest (s : State) (q : Option Request) :
    (s.withRequest q).closeFrame = answerWith q s.closeFrame := by
  rw [State.closeFrame, appendOut_withRequest]
  exact andThen_answerWith fun _ => rfl

/-! ## The instructions -/

theorem execCheckConfig_withRequest (s : State) (q : Option Request) :
    execCheckConfig (s.withRequest q) = answerWith q (execCheckConfig s) :=
  whenSelected_answerWith (ite_answerWith rfl rfl)

theorem execFlag_withRequest (s : State) (q : Option Request) :
    execFlag (s.withRequest q) = answerWith q (execFlag s) :=
  ite_answerWith (openFrame_withRequest s q) (ite_answerWith (closeFrame_withRequest s q)
    (ite_answerWith rfl (whenSelected_answerWith (accept_withRequest s q))))

/-- During a call no instruction reads the presented request: the three calls are refused, and each row is one of the
shared operations. -/
theorem exec_withRequest {s : State} (hb : s.status = .busy) (q : Option Request) (i : Instr) :
    exec i (s.withRequest q) = answerWith q (exec i s) := by
  have hcall : ∀ op cfg data,
      exec (Op.instr op cfg data) (s.withRequest q) = answerWith q (exec (Op.instr op cfg data) s) := by
    intro op cfg data
    rw [noSecondCallInFlight s cfg data op hb, noSecondCallInFlight (s.withRequest q) cfg data op hb]
    rfl
  cases i with
  | encode cfg data => exact hcall .encode cfg data
  | decode cfg data => exact hcall .decode cfg data
  | decodeInPlace cfg data => exact hcall .decodeInPlace cfg data
  | checkConfig => exact execCheckConfig_withRequest s q
  | encFesc => exact whenSelected_answerWith (emitPair_withRequest s q _)
  | encFend => exact whenSelected_answerWith (emitPair_withRequest s q _)
  | encLit b => exact whenSelected_answerWith (emitByte_withRequest s q b)
  | decOpen => exact whenSelected_answerWith rfl
  | decNoopen b => exact whenSelected_answerWith rfl
  | decEsc => exact whenSelected_answerWith rfl
  | decClose => exact whenSelected_answerWith (accept_withRequest s q)
  | decStray => exact whenSelected_answerWith rfl
  | decLit b => exact whenSelected_answerWith (emit_withRequest s q b .normal)
  | decTfend => exact whenSelected_answerWith (emit_withRequest s q _ .normal)
  | decTfesc => exact whenSelected_answerWith (emit_withRequest s q _ .normal)
  | decBadtrade b => exact whenSelected_answerWith rfl
  | decEofE => exact whenSelected_answerWith rfl
  | decEofN => exact whenSelected_answerWith rfl
  | decEofA => exact whenSelected_answerWith rfl
  | flag => exact execFlag_withRequest s q
  | escFend =>
    exact ite_answerWith (emitPair_withRequest s q _) (whenSelected_answerWith (consumePair_withRequest s q _))
  | escFesc =>
    exact ite_answerWith (emitPair_withRequest s q _) (whenSelected_answerWith (consumePair_withRequest s q _))
  | lit b =>
    exact ite_answerWith (emitByte_withRequest s q b) (whenSelected_answerWith (emit_withRequest s q b .normal))

/-! ## The step -/

theorem step_withRequest {s : State} (hb : s.status = .busy) (q : Option Request) :
    step (s.withRequest q) = answerWith q (step s) := by
  have hb' : (s.withRequest q).status = .busy := hb
  rw [step, step, fetch_of_busy hb, fetch_of_busy hb', takeRequest_busy hb, takeRequest_busy hb',
    withRequest_fetchRow]
  cases s.fetchRow with
  | idle => rfl
  | start op cfg data =>
    simp only [begin_callInFlight hb, begin_callInFlight hb', answerWith, andThen_refused]
  | run i => exact exec_withRequest hb q i
  | refuse r => rfl
  | stop f => rfl

/-- Settles O9: the step keeps the presented request, and with another one it answers the same state but for it. -/
theorem busyBlockIgnoresRequest : Obligations.BusyBlockIgnoresRequest := by
  intro s t r hb h
  have hstep := step_withRequest hb r
  rw [h] at hstep
  exact ⟨(step_keepsOperands hb h).req, hstep⟩

end Sys2Proof.Machine
end

section
/-! SUPPORT. Where in the input each error can end a call (R246). -/

namespace Sys2Proof.Machine

/-- A step that goes on to a later state of the call ends nothing. -/
theorem status_of_goesOn {s t : State} {r : Result} (hgo : ∃ u, r = .next u ∧ s.GoesOnTo u) (h : r = .next t) :
    t.status = .busy := by
  obtain ⟨u, hu, hgo⟩ := hgo
  cases h.symm.trans hu
  exact hgo.inCall.busy

/-- What ends a call with an error: the check, a byte that `fsm_step` fails on, or the end of the input. -/
theorem error_cases {s t : State} {k : ErrKind} (hcall : s.InCall) (h : step s = .next t) (hk : t.status = .err k) :
    (s.phase = .check ∧ k = .duplicateSpecialChar) ∨
    (s.phase = .scan ∧ s.op ≠ .encode ∧ s.i < s.n ∧ ∃ b, fsmStep s.cfg s.st b s.last = .fail k) ∨
    (s.phase = .scan ∧ s.op ≠ .encode ∧ s.i = s.n ∧ k = fsmEof s.params s.st) := by
  rcases step_busy_cases hcall.busy hcall.checked h with
    ⟨-, -, rfl⟩ | ⟨hp, -, rfl⟩ | ⟨hp, -, h⟩ | ⟨-, -, -, h⟩ | ⟨b, hp, ho, hc, h⟩ | ⟨b, hp, ho, hc, h⟩ |
    ⟨v, hp, ho, -, hst, hc, hf, h⟩ | ⟨hp, ho, hi, rfl⟩
  · simp [hcall.busy] at hk
  · exact .inl ⟨hp, (Status.err.inj hk).symm⟩
  · simp [status_of_goesOn (openFrame_goesOn hcall hp) h] at hk
  · simp [closeFrame_status h] at hk
  · simp [status_of_goesOn (encode_byte_goesOn hcall hp ho hc) h] at hk
  · exact .inr (.inl ⟨hp, ho, currentByte_lt hc, b, eq_fail_of_perform hcall.busy h hk⟩)
  · obtain ⟨tr, hf, hv⟩ : ∃ tr, s.followingByte = some tr ∧
        (tr = s.cfg.tfend ∧ v = s.cfg.fend ∨ tr = s.cfg.tfesc ∧ v = s.cfg.fesc) := by
      rcases hf with ⟨hf, hv⟩ | ⟨hf, hv⟩
      · exact ⟨_, hf, .inl ⟨rfl, hv⟩⟩
      · exact ⟨_, hf, .inr ⟨rfl, hv⟩⟩
    simp [status_of_goesOn (consumePair_goesOn hcall hp ho hst hc hf hv) h] at hk
  · exact .inr (.inr ⟨hp, ho, hi, (Status.err.inj hk).symm⟩)

/-- How far the scan of a decode call is, by its state (R35): the opening flag comes before Normal, and an escape byte
between it and AfterEscape. -/
theorem readIndex_of_state {s : State} (hinv : s.Inv) (hb : s.status = .busy) (hp : s.phase = .scan)
    (ho : s.op ≠ .encode) : (s.st = .expectOpeningFend → s.i = 0) ∧ (s.st = .normal → 1 ≤ s.i) ∧
      (s.st = .afterEscape → 2 ≤ s.i) := by
  obtain ⟨-, -, -, -, hs⟩ := (inv_decode_scan_iff hb hp ho).1 hinv
  obtain ⟨hstart, -, hrem, -, -, -, hescape⟩ := (decScan_iff s).1 hs
  refine ⟨hstart.1, fun hst => ?_, fun hst => ?_⟩
  · obtain ⟨hpos, hle⟩ := hrem (by simp [hst])
    exact hpos.trans hle
  · obtain ⟨-, hle⟩ := hrem (by simp [hst])
    exact (hescape hst).1.trans hle

/-- Settles O45: by what raised the error, and in the scan by the state the machine was in. -/
theorem errorsOccurWhereTheTableSays : Obligations.ErrorsOccurWhereTheTableSays := by
  intro s t k hinv hempty heof hb h hk
  rcases error_cases (inCall_of_inv hinv hb) h hk with
    ⟨hp, rfl⟩ | ⟨hp, ho, hlt, b, hfail⟩ | ⟨hp, ho, hi, rfl⟩
  · exact ⟨fun _ => rfl, fun _ => hp, nofun, nofun, nofun, nofun⟩
  · obtain ⟨hstart, hnormal, hescape⟩ := readIndex_of_state hinv hb hp ho
    rcases fsmStep_fail hfail with ⟨hst, rfl⟩ | ⟨hst, hlast, rfl⟩ | ⟨hst, rfl⟩
    · exact ⟨fun h => absurd h ho, nofun, fun _ => hstart hst, nofun, nofun, nofun⟩
    · have hmore : s.i ≠ s.n - 1 := by simpa [State.last] using hlast
      exact ⟨fun h => absurd h ho, nofun, nofun, nofun, fun _ => ⟨hnormal hst, by omega⟩, nofun⟩
    · exact ⟨fun h => absurd h ho, nofun, nofun, nofun, nofun, fun _ => ⟨hescape hst, hlt⟩⟩
  · obtain ⟨hstart, hnormal, hescape⟩ := readIndex_of_state hinv hb hp ho
    cases hst : s.st with
    | expectOpeningFend =>
      rw [fsmEof, hempty]
      exact ⟨fun h => absurd h ho, nofun, fun _ => hstart hst, nofun, nofun, nofun⟩
    | normal =>
      have hpos := hnormal hst
      exact ⟨fun h => absurd h ho, nofun, nofun, fun _ => ⟨hi, by omega⟩, nofun, nofun⟩
    | afterEscape =>
      have hpos := hescape hst
      rw [fsmEof, heof]
      exact ⟨fun h => absurd h ho, nofun, nofun, fun _ => ⟨hi, by omega⟩, nofun, nofun⟩

end Sys2Proof.Machine
end

section
/-! SUPPORT. BUF through the steps of a DECODE_IN_PLACE call that go on: the one byte a step may write lies below the
read index, for the opening flag has been removed before the first byte is emitted (R59, R193, R292). -/

namespace Sys2Proof.Machine

/-- From `s` to `t` BUF is left as it was, or written at I - REM, an index the scan has passed. -/
def State.WritesBelowRead (s t : State) : Prop :=
  t.buf = s.buf ∨ s.i - s.rem < s.i ∧ ∃ v, s.buf.write (s.i - s.rem) v = some t.buf

/-- The write index is below the read index once a byte has been removed. -/
theorem writesBelowRead_of_write {s t : State} {v : Byte} (hpos : 1 ≤ s.rem) (hr : s.rem ≤ s.i)
    (hm : s.buf.write (s.i - s.rem) v = some t.buf) : s.WritesBelowRead t :=
  .inr ⟨by omega, v, hm⟩

theorem State.WritesBelowRead.keeps_unread {s t : State} (h : s.WritesBelowRead t) :
    ∀ a, s.i ≤ a → t.buf.read a = s.buf.read a := by
  intro a ha
  rcases h with hbuf | ⟨hlt, v, hm⟩
  · rw [hbuf]
  · exact Memory.read_write_other _ _ _ _ _ hm (by omega)

theorem State.WritesBelowRead.keeps_others {s t : State} (h : s.WritesBelowRead t) :
    ∀ a, a ≠ s.i - s.rem → t.buf.read a = s.buf.read a := by
  intro a ha
  rcases h with hbuf | ⟨-, v, hm⟩
  · rw [hbuf]
  · exact Memory.read_write_other _ _ _ _ _ hm ha

/-- The machine emits nothing before the opening flag (R143, R144). -/
theorem state_of_fsmStep_emit {c : SpecialChars} {st next : FsmState} {b v : Byte} {last : Bool}
    (h : fsmStep c st b last = .emit v next) : st ≠ .expectOpeningFend := by
  rintro rfl
  by_cases hb : b = c.fend <;> simp [fsmStep, hb] at h

/-- A transition of a decode call writes BUF below the read index, leaves it, or ends the call. -/
theorem perform_writesBelowRead {s t : State} {a : FsmAction} (hpos : ∀ v next, a = .emit v next → 1 ≤ s.rem)
    (h : s.perform a = .next t) (ht : t.status = .busy) : s.WritesBelowRead t := by
  rcases perform_cases h with
    ⟨nx, -, rfl⟩ | ⟨v, nx, ha, -, hr, m, hm, rfl⟩ | ⟨v, nx, -, -, m, -, rfl⟩ | ⟨-, -, -, rfl⟩ | ⟨-, -, rfl⟩ |
    ⟨k, -, rfl⟩
  · exact .inl rfl
  · exact writesBelowRead_of_write (hpos v nx ha) hr hm
  · exact .inl rfl
  · simp at ht
  · simp at ht
  · simp at ht

/-- An escape pair moves I and REM together, so that its byte too is written at the I - REM of its start. -/
theorem consumePair_writesBelowRead {s t : State} {v : Byte} (hpos : 1 ≤ s.rem) (h : s.consumePair v = .next t) :
    s.WritesBelowRead t := by
  rcases consumePair_cases h with ⟨-, hr, m, hm, rfl⟩ | ⟨-, m, -, rfl⟩
  · exact writesBelowRead_of_write hpos hr hm
  · exact .inl rfl

theorem step_writesBelowRead {s t : State} (hcall : s.InCall) (ho : s.op = .decodeInPlace) (h : step s = .next t)
    (ht : t.status = .busy) : s.WritesBelowRead t := by
  have hdec : s.op ≠ .encode := by simp [ho]
  rcases step_busy_cases hcall.busy hcall.checked h with
    ⟨-, -, rfl⟩ | ⟨-, -, rfl⟩ | ⟨-, henc, -⟩ | ⟨-, henc, -⟩ | ⟨b, -, henc, -⟩ | ⟨b, -, -, -, h⟩ |
    ⟨v, -, -, -, hst, -, -, h⟩ | ⟨-, -, -, rfl⟩
  · exact .inl rfl
  · simp at ht
  · exact absurd henc hdec
  · exact absurd henc hdec
  · exact absurd henc hdec
  · exact perform_writesBelowRead (fun _ _ ha => hcall.remPos hdec (state_of_fsmStep_emit ha)) h ht
  · exact consumePair_writesBelowRead (hcall.remPos hdec (by simp [hst])) h
  · simp at ht

/-- Settles O42: the step writes BUF nowhere but at I - REM, which lies below I. -/
theorem inPlaceWritesStayBelowReadIndex : Obligations.InPlaceWritesStayBelowReadIndex := by
  intro s t hinv hb ho h ht
  have hwrites := step_writesBelowRead (inCall_of_inv hinv hb) ho h ht
  exact ⟨hwrites.keeps_unread, hwrites.keeps_others⟩

end Sys2Proof.Machine
end
